-- ==== Sys2Proof/Word.lean ====
section
/-! DEFINITION. The widths of the block: 32-bit registers and addresses (00_scope.md R6, `REG_W` and `ADDR_W`), 8-bit
buffer and wire bytes (R8), and the engine index that selects a channel (R17; at most 8 channels, R6). -/

namespace Sys2Proof

/-- A block register, a command word or a system address: u32 (00_scope.md R6, R8). -/
abbrev Word := BitVec 32

/-- A buffer byte or a byte of the wire: u8 (00_scope.md R8, R9). -/
abbrev Byte := BitVec 8

/-- An engine index, the channel number `CHAN_MAP` gives for a logical id (00_scope.md R17).
`NUM_CHANNELS` is 1 to 8 (R6), so three bits hold it (10_state.md R30, field `CH`). -/
abbrev Engine := Fin 8

end Sys2Proof
end

