-- ==== Sys2Proof/Syntax.lean ====
section
/-! DEFINITION. The seven commands of 30_encoding.md R82, one constructor per row of spec/opcode_table.json. -/

namespace Sys2Proof

/-- A command of the block (30_encoding.md R82). `ch` is the logical channel id of field `CH`, an index into `CHAN_MAP`
that the block never computes with; a legal word holds 0 to 15 (R80), which `Instr.wellFormed` checks.
The wider operands stand in `ARG0` to `ARG2` and are no part of the word (R83). -/
inductive Instr where
  /-- `INIT ch, over8` (42_channel_registry.md R151). -/
  | init (ch : Nat) (over8 : Bool)
  /-- `SUBMIT_SEND ch, hostcb` (41_transfer_engine.md R121). -/
  | submitSend (ch : Nat) (hostcb : Bool)
  /-- `SUBMIT_RECV ch, hostcb` (41_transfer_engine.md R122). -/
  | submitRecv (ch : Nat) (hostcb : Bool)
  /-- `SEND_BYTE ch, data` (41_transfer_engine.md R131). -/
  | sendByte (ch : Nat) (data : Byte)
  /-- `GET_BYTE ch` (41_transfer_engine.md R132). -/
  | getByte (ch : Nat)
  /-- `FRAMER_START ch` (43_framer.md R161). -/
  | framerStart (ch : Nat)
  /-- `SEND_FRAME ch` (43_framer.md R168). -/
  | sendFrame (ch : Nat)
  deriving DecidableEq, Repr

/-- The logical channel id a command names (30_encoding.md R80, field `CH`). -/
def Instr.ch : Instr → Nat
  | .init ch _ => ch
  | .submitSend ch _ => ch
  | .submitRecv ch _ => ch
  | .sendByte ch _ => ch
  | .getByte ch => ch
  | .framerStart ch => ch
  | .sendFrame ch => ch

end Sys2Proof
end

