-- ==== Sys2Proof/WellFormed.lean ====
section
/-! DEFINITION. Which terms of `Instr` a command word can hold. -/

namespace Sys2Proof

/-- A command is well-formed when its channel id fits the 4-bit field `CH` (30_encoding.md R80). The flag and the byte
operand have the width of their fields by type. -/
def Instr.wellFormed (i : Instr) : Bool := decide (i.ch < 16)

end Sys2Proof
end

