-- ==== Sys2Proof/Decode.lean ====
section
/-! DEFINITION. Decoding of a command word (30_encoding.md R88), total on every word, and after it the encoder
(R89), written from the formats of R81. -/

namespace Sys2Proof

/-- Why a command word is illegal. Both have the defined effect of 30_encoding.md R84: neither is refused (R86). -/
inductive Illegal where
  /-- `OP` is 0x0 or 0x8 to 0xF (R85). -/
  | reservedOpcode (op : BitVec 4)
  /-- A bit that the format of a listed `OP` requires to be 0 is 1 (R84). -/
  | reservedBits (w : Word)
  /-- Fewer than four bytes: no command word (R87). -/
  | truncated
  deriving DecidableEq, Repr

/-- Field `OP` (30_encoding.md R80). -/
def fieldOp (w : Word) : BitVec 4 := w.extractLsb' 0 4

/-- Field `CH` (30_encoding.md R80). -/
def fieldCh (w : Word) : Nat := (w.extractLsb' 4 4).toNat

/-- Field `F` (30_encoding.md R80). -/
def fieldF (w : Word) : Bool := w.getLsbD 8

/-- Field `DATA` (30_encoding.md R80). -/
def fieldData (w : Word) : Byte := w.extractLsb' 16 8

/-- Format R: bits [31:9] are 0 (30_encoding.md R81). -/
def legalR (w : Word) : Bool := w.extractLsb' 9 23 == 0#23

/-- Format B: bits [31:24] and [15:8] are 0 (30_encoding.md R81). -/
def legalB (w : Word) : Bool := w.extractLsb' 24 8 == 0#8 && w.extractLsb' 8 8 == 0#8

/-- Format S: bits [31:8] are 0 (30_encoding.md R81). -/
def legalS (w : Word) : Bool := w.extractLsb' 8 24 == 0#24

/-- `i` where the word keeps its format's reserved bits at 0, illegal otherwise (30_encoding.md R84). -/
def ifLegal (legal : Bool) (w : Word) (i : Instr) : Except Illegal Instr :=
  if legal then .ok i else .error (.reservedBits w)

/-- The decode procedure of 30_encoding.md R88. -/
def decode (w : Word) : Except Illegal Instr :=
  match fieldOp w with
  | 0x1#4 => ifLegal (legalR w) w (.init (fieldCh w) (fieldF w))
  | 0x2#4 => ifLegal (legalR w) w (.submitSend (fieldCh w) (fieldF w))
  | 0x3#4 => ifLegal (legalR w) w (.submitRecv (fieldCh w) (fieldF w))
  | 0x4#4 => ifLegal (legalB w) w (.sendByte (fieldCh w) (fieldData w))
  | 0x5#4 => ifLegal (legalS w) w (.getByte (fieldCh w))
  | 0x6#4 => ifLegal (legalS w) w (.framerStart (fieldCh w))
  | 0x7#4 => ifLegal (legalS w) w (.sendFrame (fieldCh w))
  | op => .error (.reservedOpcode op)

/-- A register's four bytes as a word: byte offset +0 holds bits [7:0] (20_memory.md R62). -/
def wordOfBytes (b0 b1 b2 b3 : Byte) : Word := b3 ++ b2 ++ b1 ++ b0

/-- Decoding of the first command in a list of bytes, total on any list (30_encoding.md R87, 20_memory.md R62). -/
def decodeBytes : List Byte → Except Illegal Instr
  | b0 :: b1 :: b2 :: b3 :: _ => decode (wordOfBytes b0 b1 b2 b3)
  | _ => .error .truncated

/-- Byte `k` of a table word: the host numbers bit 0 as the least significant bit of the word. -/
def tableByte (w k : Nat) : Byte := BitVec.ofNat 8 (w / 2 ^ (8 * k))

/-- The four bytes of a command word of `nbits` table bits, the bits above them 0, in register byte order. -/
def tableBytes (nbits w : Nat) : List Byte :=
  let v := w % 2 ^ nbits
  [tableByte v 0, tableByte v 1, tableByte v 2, tableByte v 3]

/-- The instruction the decoder reads from the bits of an opcode-table row. -/
def decodeTableWord (nbits w : Nat) : Option Instr :=
  match decodeBytes (tableBytes nbits w) with
  | .ok i => some i
  | .error _ => none

/-- Flag bit as a field of one bit. -/
def flagBit (f : Bool) : BitVec 1 := BitVec.ofBool f

/-- The word of a format R command: `{zeros[31:9], F, ch[3:0], op}` (30_encoding.md R89). -/
def encodeR (op : BitVec 4) (ch : Nat) (f : Bool) : Word :=
  0#23 ++ flagBit f ++ BitVec.ofNat 4 ch ++ op

/-- The word of a format B command: `{0x00, data[7:0], 0x00, ch[3:0], op}` (30_encoding.md R89). -/
def encodeB (op : BitVec 4) (ch : Nat) (data : Byte) : Word :=
  0#8 ++ data ++ 0#8 ++ BitVec.ofNat 4 ch ++ op

/-- The word of a format S command: `{0x000000, ch[3:0], op}` (30_encoding.md R89). -/
def encodeS (op : BitVec 4) (ch : Nat) : Word :=
  0#24 ++ BitVec.ofNat 4 ch ++ op

/-- The command word of a well-formed command (30_encoding.md R89). -/
def encode : Instr → Word
  | .init ch over8 => encodeR 0x1#4 ch over8
  | .submitSend ch hostcb => encodeR 0x2#4 ch hostcb
  | .submitRecv ch hostcb => encodeR 0x3#4 ch hostcb
  | .sendByte ch data => encodeB 0x4#4 ch data
  | .getByte ch => encodeS 0x5#4 ch
  | .framerStart ch => encodeS 0x6#4 ch
  | .sendFrame ch => encodeS 0x7#4 ch

end Sys2Proof
end

