-- ==== Sys2Proof/Config.lean ====
section
/-! DEFINITION. The implementation parameters of 00_scope.md R6 as plain data, and the one thing the spec leaves free:
the codecs of a platform (R6, R15).

The interface fixes `State.reset` and `step` without a parameter argument, so a State carries its `Params` in a field
that no step changes. A claim over every state is then a claim over every parameter value R6 allows. -/

namespace Sys2Proof

/-- A decoded message, one constructor per row of the payload table (43_framer.md R169). -/
inductive Message where
  | resetPin (port pin : Word)
  | readPin (port pin : Word)
  | setPin (port pin : Word)
  | togglePin (port pin : Word)
  | pinValue (port pin value : Word)
  deriving DecidableEq, Repr

/-- Which codecs the block was built with (00_scope.md R6, `HeaderCodec` and `PayloadCodec`). -/
inductive CodecSel where
  /-- The reference codecs of 43_framer.md R170 and R171, which the spec's vectors use. -/
  | reference
  /-- A platform's own codecs, the `k`-th pair: `Config.platform…` below, of which nothing is known but what a claim
  assumes (R15). -/
  | platform (k : Nat)
  deriving DecidableEq, Repr

/-- A range of system addresses whose byte reads, writes or both the system memory refuses (20_memory.md R66; log entry
8). -/
structure Refusing where
  base : Nat
  size : Nat
  reads : Bool
  writes : Bool
  deriving DecidableEq, Repr

/-- The implementation parameters (00_scope.md R6). `ADDR_W` and `REG_W` are 32 (`Word`). `ARB_POLICY` is left OPEN, so
the arbiter's grant is a choice the schedule makes (60_exceptions.md R196). -/
structure Params where
  /-- `NUM_CHANNELS`, 1 to 8. -/
  numChannels : Nat
  /-- `CHAN_MAP`: logical id and engine index; an id not listed maps to `none`. -/
  chanMap : List (Nat × Engine)
  /-- `TX_FIFO_DEPTH`, at least 1. -/
  txDepth : Nat
  /-- `RX_FIFO_DEPTH`, at least 1. -/
  rxDepth : Nat
  /-- `SPIN_BOUND`, the polls of a blocking byte operation before Timeout. -/
  spinBound : Nat
  /-- `HDR_LEN`, the header size in bytes. -/
  hdrLen : Nat
  /-- `CORE_CLOCK_HZ`, above 0. -/
  coreClock : Nat
  /-- `BASE`, the address of the register window, aligned to 0x400. -/
  base : Word
  /-- `DISPATCH_IDS`, the identifiers that have a handler. -/
  dispatchIds : List Word
  /-- `MANT_MAX`, the largest baud mantissa. -/
  mantMax : Nat
  /-- `HeaderCodec` and `PayloadCodec`. -/
  codec : CodecSel
  /-- The accesses the system memory refuses (20_memory.md R66: "It admits or refuses each byte access"). -/
  refusing : List Refusing
  deriving DecidableEq, Repr

/-- What the spec asks of the parameters (00_scope.md R6, 42_channel_registry.md R150): the ranges of R6, an injective
`CHAN_MAP` from ids 0 to 15 onto engine indices below `NUM_CHANNELS`, and a header length that a descriptor's 32-bit
`LEN` holds (10_state.md R27). The reference header codec has 10
bytes, so with it `HDR_LEN` is 10 (R15 (b)). DEDUCED: `SPIN_BOUND` and `HDR_LEN` are at least 1 (log entry 3; safe). -/
abbrev Params.wf (p : Params) : Prop :=
  1 ≤ p.numChannels ∧ p.numChannels ≤ 8 ∧
  (p.chanMap.map (·.1)).Nodup ∧ (p.chanMap.map (·.2)).Nodup ∧
  (∀ e ∈ p.chanMap, e.1 < 16 ∧ e.2.val < p.numChannels) ∧
  1 ≤ p.txDepth ∧ 1 ≤ p.rxDepth ∧ 1 ≤ p.spinBound ∧ 1 ≤ p.hdrLen ∧ p.hdrLen < 2 ^ 32 ∧
  0 < p.coreClock ∧ p.base.toNat % 0x400 = 0 ∧ p.mantMax ≤ 4095 ∧ (p.codec = .reference → p.hdrLen = 10)

/-- The parameter values of the spec's vectors (95_test_vectors.md, Conventions): `State.reset` is the machine built
with them. DESIGN CHOICE where R6 says OPEN (log entry 2; unsafe for a claim about `State.reset` alone). -/
def Params.ofVectors : Params where
  numChannels := 2
  chanMap := [(0, 0), (1, 1)]
  txDepth := 1
  rxDepth := 1
  spinBound := 2000
  hdrLen := 10
  coreClock := 16000000
  base := 0x40000000#32
  dispatchIds := [0#32, 1#32, 2#32, 3#32]
  mantMax := 4095
  codec := .reference
  refusing := []

/-- FREE VALUE: a platform's `HeaderCodec.encode` (00_scope.md R6, OPEN); log entry 4. -/
opaque Config.platformHeaderEncode : Nat → Word → Word → List Byte

/-- FREE VALUE: a platform's `HeaderCodec.decode`, `none` being DecodeError (00_scope.md R6, OPEN); log entry 4. -/
opaque Config.platformHeaderDecode : Nat → List Byte → Option (Word × Word)

/-- FREE VALUE: a platform's `PayloadCodec.decode`, `none` being DecodeError (00_scope.md R6, OPEN); log entry 4. -/
opaque Config.platformPayloadDecode : Nat → Word → List Byte → Option Message

/-- FREE VALUE: a platform's `PayloadCodec.encode` (00_scope.md R6, OPEN), used by software only; log entry 4. -/
opaque Config.platformPayloadEncode : Nat → Message → List Byte

end Sys2Proof
end

