-- ==== Sys2Proof/Machine/State.lean ====
section
/-! DEFINITION. Everything 10_state.md gives the block, the system memory, and the agents' pending steps, as plain data;
the reset state of 10_state.md R34. -/

namespace Sys2Proof.Machine

/-- System memory (20_memory.md R60) as address and byte pairs in one canonical form: addresses strictly rising, and no
entry equal to what an unlisted address reads as (`unlistedByte`, `Memory.wf`). -/
abbrev Memory := List Host.Cell

/-- The result codes (60_exceptions.md R190). Codes 8 to 15 are never written, so they have no constructor. -/
inductive ResultCode where
  | ok | invalidArgument | nullReference | busy | timeout | invalidChannel | decodeFailure | unmappedId
  deriving DecidableEq, Repr

/-- Which command a `CmdDone` event names (10_state.md R32); `illegal` is the word of 30_encoding.md R84. -/
inductive CmdOp where
  | illegal | init | submitSend | submitRecv | sendByte | getByte | framerStart | sendFrame
  deriving DecidableEq, Repr

/-- Field `STATE` of a descriptor: 0 Ready, 1 Busy (10_state.md R27). -/
inductive DescState where
  | ready | busy
  deriving DecidableEq, Repr

/-- Field `MODE` of a descriptor: 0 Async, 1 Blocking (10_state.md R27). -/
inductive DescMode where
  | async | blocking
  deriving DecidableEq, Repr

/-- Field `CB` of a descriptor: 0 none, 1 host interrupt, 2 frame parser; 3 never occurs (10_state.md R27). -/
inductive Callback where
  | none | host | framer
  deriving DecidableEq, Repr

/-- A request descriptor, `TXD[i]` or `RXD[i]` (10_state.md R27). -/
structure Descriptor where
  addr : Word
  len : Word
  cur : Word
  state : DescState
  mode : DescMode
  cb : Callback
  deriving DecidableEq, Repr

/-- `CR[i]`, channel control (10_state.md R24). -/
structure Control where
  ue : Bool
  te : Bool
  re : Bool
  txeie : Bool
  rxneie : Bool
  over8 : Bool
  deriving DecidableEq, Repr

/-- The state of one channel: `CR` (10_state.md R24), the stored bit `OVR` of `SR` (R25), `BRR` (R26), the two
descriptors (R27) and the two FIFOs, oldest byte first (R32). -/
structure Channel where
  cr : Control
  ovr : Bool
  brr : Word
  txd : Descriptor
  rxd : Descriptor
  txf : List Byte
  rxf : List Byte
  deriving DecidableEq, Repr

/-- `FR.STATE` (10_state.md R30, 43_framer.md R160). -/
inductive FrameState where
  | headerWait | payloadWait
  deriving DecidableEq, Repr

/-- The frame context `FR` (10_state.md R30). -/
structure FrameContext where
  active : Bool
  state : FrameState
  ch : Engine
  lastId : Word
  lastLen : Word
  lastResult : ResultCode
  hdrAddr : Word
  payAddr : Word
  payCap : Word
  deriving DecidableEq, Repr

/-- `CMDSTATE`, the blocking command in progress (10_state.md R32). -/
inductive CmdState where
  | idle
  /-- Channel `i`, byte `b`, `k` polls made. -/
  | sendByte (i : Engine) (b : Byte) (k : Nat)
  /-- Channel `i`, `k` polls made. -/
  | getByte (i : Engine) (k : Nat)
  /-- Header bytes `hb`, payload address and length, position `pos` in the frame, `k` polls made for the current byte. -/
  | sendFrame (i : Engine) (hb : List Byte) (pay len : Word) (pos k : Nat)
  deriving DecidableEq, Repr

/-- The events of the history that ENV observes (10_state.md R32). -/
inductive Event where
  | wireOut (i : Engine) (b : Byte)
  | wireIn (i : Engine) (b : Byte) (kept : Bool)
  | handlerCall (id : Word) (m : Message)
  | cmdDone (op : CmdOp) (code : ResultCode)
  deriving DecidableEq, Repr

/-- A model fault as the fault set records it (60_exceptions.md R192). -/
inductive ModelFault where
  /-- A HOST register access that is not an aligned 32-bit access, or a refused memory access; the byte address. -/
  | busError (addr : Nat)
  /-- A HOST access to a byte the block owns; the byte address. -/
  | ownershipViolation (addr : Nat)
  /-- The unreachable branch of 41_transfer_engine.md R127; the engine index. -/
  | invariantBroken (i : Engine)
  deriving DecidableEq, Repr

/-- The width of a HOST access to the register window (20_memory.md R63). -/
inductive Width where
  | w8 | w16 | w32
  deriving DecidableEq, Repr

/-- A HOST statement that is one step: 30_encoding.md R89 with `MW` and `MR` taken a byte at a time (log entry 9). A
register access is at `BASE + off`, with `off` in the window's 0x400 bytes (20_memory.md R60). -/
inductive HostStmt where
  | regRead (w : Width) (off : BitVec 10)
  | regWrite (w : Width) (off : BitVec 10) (v : Word)
  | memRead (a : Word)
  | memWrite (a : Word) (b : Byte)
  deriving DecidableEq, Repr

/-- An atomic step of an agent (00_scope.md R3, 20_memory.md R65), and the reset input (70_reset_and_hazards.md R220).
ENV's choices, a byte and when it arrives, stand in `lineRx`. -/
inductive Action where
  | host (st : HostStmt)
  | poll
  | svc (i : Engine)
  | lineTx (i : Engine)
  | lineRx (i : Engine) (b : Byte)
  | reset
  deriving DecidableEq, Repr

/-- The state. All but the last two fields is the spec's (10_state.md), `par` being the parameters of 00_scope.md R6.
`hostData` and `agenda` are the model's own (log entries 1 and 9). -/
structure State where
  /-- The implementation parameters; no step changes them. -/
  par : Params
  /-- System memory (20_memory.md R60). -/
  mem : Memory
  arg0 : Word
  arg1 : Word
  arg2 : Word
  /-- `RESULT[3:0]`; the other bits read as zero (10_state.md R22). -/
  result : ResultCode
  /-- `RDATA` (10_state.md R20). -/
  rdata : Word
  irqStatus : Word
  irqEnable : Word
  /-- Channel `i`'s registers, descriptors and FIFOs; those of an index at or above `NUM_CHANNELS` do not exist
  (10_state.md R23) and nothing reaches them (log entry 15). -/
  chans : Vector Channel 8
  fr : FrameContext
  cmdState : CmdState
  /-- The event history, oldest first. -/
  events : List Event
  /-- The fault set, without repeats (60_exceptions.md R192). -/
  faults : List ModelFault
  /-- MODEL'S OWN: what the HOST's last load returned. -/
  hostData : Word
  /-- MODEL'S OWN: the steps that agents take next, the first first. Every interleaving of 20_memory.md R71 is one
  agenda. -/
  agenda : List Action
  deriving DecidableEq, Repr

/-- Why a step has no next state. Each is safe: a stop proves nothing about the hardware. No command raises any. -/
inductive Fault where
  /-- Raised by `step` when no agent's step is pending: the model's input has ended (log entry 1). Safe. -/
  | nothingScheduled
  /-- Stuck (00_scope.md R12): a HOST statement while a blocking command is in progress. The HOST is held in its CMD
  write and has no such step (41_transfer_engine.md R130, 93_implementation_defined.md U12). Raised by a HOST step. Safe. -/
  | hostHeld
  /-- Stuck: a poll step with `CMDSTATE` Idle (41_transfer_engine.md R130). Raised by a poll step. Safe. -/
  | noPollPending
  /-- Stuck: a service invocation of a channel with no service request (60_exceptions.md R196), or of an engine index at
  or above `NUM_CHANNELS`. Raised by a SEQ step. Safe. -/
  | noServiceRequest (i : Engine)
  /-- Stuck: a line transmit step that is not enabled (40_serial_fifo.md R103), or of a channel that does not exist.
  Raised by a LINE step. Safe. -/
  | lineTxNotEnabled (i : Engine)
  /-- Stuck: a line receive step of an engine index at or above `NUM_CHANNELS`: no such agent (00_scope.md R3). Raised by
  a LINE step. Safe. -/
  | noSuchLine (i : Engine)
  /-- A HOST load or store of system memory that the memory refuses. What the HOST's own access then meets is the
  platform's (log entry 10). Raised by a HOST step. Safe. -/
  | hostAccessRefused (addr : Nat)
  /-- The header bytes of a SEND_FRAME end before `HDR_LEN`: the codec breaks law (b) of 00_scope.md R15 (log entry
  14). Raised by a poll step. Safe. -/
  | headerCodecLawBroken
  deriving DecidableEq, Repr

/-- Why an instruction has no meaning. The spec's decoder refuses no word (30_encoding.md R86). -/
inductive Refusal where
  /-- Raised by an arm of `exec` whose instruction has no meaning yet; no arm raises it. Safe. -/
  | notModelled (mnemonic : String)
  deriving DecidableEq, Repr

/-- How far a piece of pseudocode came: to its end, or to a `raise`, after which nothing more of the step is executed
(60_exceptions.md R192). Either way the state it carries is the state the step leaves. -/
inductive Flow where
  | go (s : State)
  | stop (s : State)
  deriving DecidableEq, Repr

/-- A descriptor after reset (10_state.md R34). -/
def Descriptor.reset : Descriptor where
  addr := 0#32
  len := 0#32
  cur := 0#32
  state := .ready
  mode := .async
  cb := .none

/-- A channel after reset (10_state.md R34). -/
def Channel.reset : Channel where
  cr := { ue := false, te := false, re := false, txeie := false, rxneie := false, over8 := false }
  ovr := false
  brr := 0#32
  txd := Descriptor.reset
  rxd := Descriptor.reset
  txf := []
  rxf := []

/-- The frame context after reset (10_state.md R34). -/
def FrameContext.reset : FrameContext where
  active := false
  state := .headerWait
  ch := 0
  lastId := 0#32
  lastLen := 0#32
  lastResult := .ok
  hdrAddr := 0#32
  payAddr := 0#32
  payCap := 0#32

/-- The reset state of the block built with parameters `par`, over the system memory `mem`, which reset does not touch
(70_reset_and_hazards.md R220, 10_state.md R34). -/
def State.resetOf (par : Params) (mem : Memory) : State where
  par := par
  mem := mem
  arg0 := 0#32
  arg1 := 0#32
  arg2 := 0#32
  result := .ok
  rdata := 0#32
  irqStatus := 0#32
  irqEnable := 0#32
  chans := Vector.replicate 8 Channel.reset
  fr := FrameContext.reset
  cmdState := .idle
  events := []
  faults := []
  hostData := 0#32
  agenda := []

/-- The machine right after reset (10_state.md R34), built with the parameters of the spec's vectors (log entry 2), over
a memory that lists nothing. -/
def State.reset : State := State.resetOf Params.ofVectors []

end Sys2Proof.Machine
end

