-- ==== Sys2Proof/Machine/Codec.lean ====
section
/-! DEFINITION. The codec parameters (00_scope.md R6, R15): the reference codecs of 43_framer.md R170 and R171, and the
choice between them and a platform's. -/

namespace Sys2Proof

/-- The identifier of a message (43_framer.md R169). -/
def Message.id : Message → Word
  | .resetPin _ _ => 0#32
  | .readPin _ _ => 1#32
  | .setPin _ _ => 2#32
  | .togglePin _ _ => 3#32
  | .pinValue _ _ _ => 4#32

/-- The fields of a message, numbered from 1 (43_framer.md R169, R171). -/
def Message.fields : Message → List Word
  | .resetPin port pin => [port, pin]
  | .readPin port pin => [port, pin]
  | .setPin port pin => [port, pin]
  | .togglePin port pin => [port, pin]
  | .pinValue port pin value => [port, pin, value]

namespace Machine

/-- `le32(v)` (00_scope.md R9). -/
def le32 (v : Word) : List Byte :=
  [v.extractLsb' 0 8, v.extractLsb' 8 8, v.extractLsb' 16 8, v.extractLsb' 24 8]

/-- The value of four little-endian bytes (43_framer.md R170). -/
def word32 (b0 b1 b2 b3 : Byte) : Word := b3 ++ b2 ++ b1 ++ b0

/-- `RefHeader.encode(id, len)` (43_framer.md R170). -/
def refHeaderEncode (id len : Word) : List Byte := [0x0D#8] ++ le32 id ++ [0x15#8] ++ le32 len

/-- `RefHeader.decode(h)` (43_framer.md R170). -/
def refHeaderDecode (h : List Byte) : Option (Word × Word) :=
  match h with
  | [t0, i0, i1, i2, i3, t1, l0, l1, l2, l3] =>
    if t0 = 0x0D#8 ∧ t1 = 0x15#8 then some (word32 i0 i1 i2 i3, word32 l0 l1 l2 l3) else none
  | _ => none

/-- `varint(v)` in at most `fuel + 1` bytes; four suffice below the last byte of a u32 (43_framer.md R171). -/
def varint : Nat → Nat → List Byte
  | 0, v => [BitVec.ofNat 8 v]
  | fuel + 1, v => if v < 128 then [BitVec.ofNat 8 v] else BitVec.ofNat 8 (v % 128 + 128) :: varint fuel (v / 128)

/-- Reads a varint of at most `fuel` bytes: its value and the bytes after it; `none` when it is truncated or longer
(43_framer.md R171). -/
def readVarint : Nat → List Byte → Option (Nat × List Byte)
  | 0, _ => none
  | _ + 1, [] => none
  | fuel + 1, b :: p =>
    if b.toNat < 128 then some (b.toNat, p)
    else
      match readVarint fuel p with
      | none => none
      | some (v, rest) => some (b.toNat - 128 + 128 * v, rest)

/-- `message(id, fields)`, the fields in the order of 43_framer.md R169. -/
def messageOf (id : Word) (fields : List Word) : Option Message :=
  match id.toNat, fields with
  | 0, [port, pin] => some (.resetPin port pin)
  | 1, [port, pin] => some (.readPin port pin)
  | 2, [port, pin] => some (.setPin port pin)
  | 3, [port, pin] => some (.togglePin port pin)
  | 4, [port, pin, value] => some (.pinValue port pin value)
  | _, _ => none

/-- How many fields identifier `id` has; `none` where the table has no such identifier (43_framer.md R171). -/
def fieldCount (id : Word) : Option Nat :=
  if id.toNat < 4 then some 2 else if id.toNat = 4 then some 3 else none

/-- The bytes of fields `k`, `k + 1`, … of a message, those equal to zero omitted (43_framer.md R171). -/
def encodeFields : Nat → List Word → List Byte
  | _, [] => []
  | k, v :: vs =>
    (if v = 0#32 then [] else BitVec.ofNat 8 (8 * k) :: varint 4 v.toNat) ++ encodeFields (k + 1) vs

/-- `RefPayload.encode(m)` (43_framer.md R171). -/
def refPayloadEncode (m : Message) : List Byte := encodeFields 1 m.fields

/-- The loop of `RefPayload.decode` over the bytes `p`, of which each turn takes at least one, so `p.length` turns are
enough (43_framer.md R171). -/
def decodeFields : Nat → List Word → List Byte → Option (List Word)
  | _, fields, [] => some fields
  | 0, _, _ :: _ => none
  | fuel + 1, fields, t :: p =>
    if 128 ≤ t.toNat ∨ t.toNat % 8 ≠ 0 ∨ t.toNat / 8 < 1 ∨ fields.length < t.toNat / 8 then none
    else
      match readVarint 5 p with
      | none => none
      | some (v, rest) =>
        if 2 ^ 32 ≤ v then none
        else decodeFields fuel (fields.set (t.toNat / 8 - 1) (BitVec.ofNat 32 v)) rest

/-- `RefPayload.decode(id, p)` (43_framer.md R171). -/
def refPayloadDecode (id : Word) (p : List Byte) : Option Message :=
  match fieldCount id with
  | none => none
  | some n =>
    match decodeFields p.length (List.replicate n 0#32) p with
    | none => none
    | some fields => messageOf id fields

/-- `HeaderCodec.encode(id, len)` (00_scope.md R6). -/
def headerEncode (p : Params) (id len : Word) : List Byte :=
  match p.codec with
  | .reference => refHeaderEncode id len
  | .platform k => Config.platformHeaderEncode k id len

/-- `HeaderCodec.decode(h)`, `none` being DecodeError (00_scope.md R6). -/
def headerDecode (p : Params) (h : List Byte) : Option (Word × Word) :=
  match p.codec with
  | .reference => refHeaderDecode h
  | .platform k => Config.platformHeaderDecode k h

/-- `PayloadCodec.decode(id, p)`, `none` being DecodeError (00_scope.md R6). -/
def payloadDecode (p : Params) (id : Word) (bytes : List Byte) : Option Message :=
  match p.codec with
  | .reference => refPayloadDecode id bytes
  | .platform k => Config.platformPayloadDecode k id bytes

/-- `PayloadCodec.encode(m)` (00_scope.md R6). -/
def payloadEncode (p : Params) (m : Message) : List Byte :=
  match p.codec with
  | .reference => refPayloadEncode m
  | .platform k => Config.platformPayloadEncode k m

/-- The codec laws a claim may assume (00_scope.md R15 (a), (b), (c)); (d) holds of every Lean function. -/
def CodecLaws (p : Params) : Prop :=
  (∀ id len, headerDecode p (headerEncode p id len) = some (id, len)) ∧
  (∀ id len, (headerEncode p id len).length = p.hdrLen) ∧
  (∀ m : Message, payloadDecode p m.id (payloadEncode p m) = some m)

end Machine

end Sys2Proof
end

