-- ==== Sys2Proof/Machine/Ops.lean ====
section
/-! DEFINITION. The named operations over memory, channels, results, events and faults that every rule uses
(00_scope.md R10 to R12, 20_memory.md R60 to R68, 60_exceptions.md R190 to R192). -/

namespace Sys2Proof.Machine

/-! ### Channels -/

/-- The state of channel `i`. -/
def State.chan (s : State) (i : Engine) : Channel := s.chans[i.val]

/-- `s` with channel `i` changed by `f`. -/
def State.updChan (s : State) (i : Engine) (f : Channel → Channel) : State :=
  { s with chans := s.chans.set i.val (f (s.chan i)) i.isLt }

/-- `CR[i]` changed by `f`. -/
def State.updCr (s : State) (i : Engine) (f : Control → Control) : State :=
  s.updChan i fun c => { c with cr := f c.cr }

/-- `TXD[i]` changed by `f`. -/
def State.updTxd (s : State) (i : Engine) (f : Descriptor → Descriptor) : State :=
  s.updChan i fun c => { c with txd := f c.txd }

/-- `RXD[i]` changed by `f`. -/
def State.updRxd (s : State) (i : Engine) (f : Descriptor → Descriptor) : State :=
  s.updChan i fun c => { c with rxd := f c.rxd }

/-- `FR` changed by `f`. -/
def State.updFr (s : State) (f : FrameContext → FrameContext) : State := { s with fr := f s.fr }

/-- `CMDSTATE <- c`. -/
def State.setCmdState (s : State) (c : CmdState) : State := { s with cmdState := c }

/-- System memory `m`. -/
def State.setMem (s : State) (m : Memory) : State := { s with mem := m }

/-- `RDATA <- v`. -/
def State.setRdata (s : State) (v : Word) : State := { s with rdata := v }

/-- What the HOST's load returned. -/
def State.setHostData (s : State) (v : Word) : State := { s with hostData := v }

/-- The steps that agents take next. -/
def State.setAgenda (s : State) (l : List Action) : State := { s with agenda := l }

/-- An engine index that has a channel (10_state.md R23). -/
def State.hasChan (s : State) (i : Engine) : Bool := decide (i.val < s.par.numChannels)

/-- `TxPush(i, b)` (00_scope.md R11). -/
def txPush (i : Engine) (b : Byte) (s : State) : State := s.updChan i fun c => { c with txf := c.txf ++ [b] }

/-- The FIFO left by `TxPop(i)`, whose byte the caller has in hand (00_scope.md R11). -/
def txDrop (i : Engine) (s : State) : State := s.updChan i fun c => { c with txf := c.txf.tail }

/-- `RxPush(i, b)` (00_scope.md R11). -/
def rxPush (i : Engine) (b : Byte) (s : State) : State := s.updChan i fun c => { c with rxf := c.rxf ++ [b] }

/-- The FIFO left by `RxPop(i)`, whose byte the caller has in hand (00_scope.md R11). -/
def rxDrop (i : Engine) (s : State) : State := s.updChan i fun c => { c with rxf := c.rxf.tail }

/-! ### Results, events, interrupt bits, faults -/

/-- `emit e` (00_scope.md R12). -/
def emit (e : Event) (s : State) : State := { s with events := s.events ++ [e] }

/-- `result <- code` and the `CmdDone` event that ends the command (00_scope.md R12, 60_exceptions.md R190). -/
def finish (op : CmdOp) (code : ResultCode) (s : State) : State := emit (.cmdDone op code) { s with result := code }

/-- Sets bit `b` of `IRQ_STATUS` (10_state.md R29); a bit already 1 stays 1 (60_exceptions.md R198). -/
def setIrq (b : Nat) (s : State) : State := { s with irqStatus := s.irqStatus ||| (1#32 <<< b) }

/-- `raise Fault(kind, info)`: the one way this machine takes an exception (60_exceptions.md R192). The fault joins the
fault set; nothing is saved and no mode, mask or target changes (R201). What called it goes no
further, and what it did before stays (log entry 6, DEDUCED). -/
def raise (f : ModelFault) (s : State) : State :=
  { s with faults := if f ∈ s.faults then s.faults else s.faults ++ [f] }

/-- The state a piece of pseudocode leaves. -/
def Flow.state : Flow → State
  | .go s => s
  | .stop s => s

/-- `k` after a piece of pseudocode that did not raise (60_exceptions.md R192). -/
def Flow.andThen (f : Flow) (k : State → Flow) : Flow :=
  match f with
  | .go s => k s
  | .stop s => .stop s

/-- The step that runs a piece of pseudocode. -/
def Flow.toStep (f : Flow) : Host.Outcome State Fault Refusal := .next f.state

/-! ### System memory -/

/-- What an address that memory does not list reads as. DESIGN CHOICE: launch contents are unspecified (10_state.md R34),
and every launch memory is some list (log entry 5). -/
def unlistedByte : Byte := 0#8

/-- The byte at address `a`. -/
def Memory.read : Memory → Nat → Byte
  | [], _ => unlistedByte
  | (k, c) :: m, a => if k = a then c else Memory.read m a

/-- The cells that hold byte `b` at `a` before the cells `m` (of addresses above `a`). -/
def consCell (a : Nat) (b : Byte) (m : Memory) : Memory := if b = unlistedByte then m else (a, b) :: m

/-- Memory with byte `b` at address `a`, in canonical form. -/
def Memory.write : Memory → Nat → Byte → Memory
  | [], a, b => consCell a b []
  | (k, c) :: m, a, b =>
    if a < k then consCell a b ((k, c) :: m)
    else if a = k then consCell a b m
    else (k, c) :: Memory.write m a b

/-- The canonical form: addresses of the 32-bit space, strictly rising, and no entry equal to what an unlisted address
reads as. -/
abbrev Memory.wf (m : Memory) : Prop :=
  m.Pairwise (fun x y => x.1 < y.1) ∧ ∀ c ∈ m, c.2 ≠ unlistedByte ∧ c.1 < 2 ^ 32

/-- The register window: `[BASE, BASE + 0x400)` (20_memory.md R60). -/
def inWindow (p : Params) (a : Nat) : Bool := decide (p.base.toNat ≤ a ∧ a < p.base.toNat + 0x400)

/-- A byte of a range. -/
def inRange (base size a : Nat) : Bool := decide (base ≤ a ∧ a < base + size)

/-- The system memory refuses reads of `a` (20_memory.md R66). -/
def refusesRead (p : Params) (a : Nat) : Bool := p.refusing.any fun r => r.reads && inRange r.base r.size a

/-- The system memory refuses writes of `a` (20_memory.md R66). -/
def refusesWrite (p : Params) (a : Nat) : Bool := p.refusing.any fun r => r.writes && inRange r.base r.size a

/-- A byte read by the block is admitted: the address exists (20_memory.md R60; log entry 12), memory admits it and it is
not in the block's own window (R61, R66). -/
def readAdmitted (p : Params) (a : Nat) : Bool := decide (a < 2 ^ 32) && !inWindow p a && !refusesRead p a

/-- A byte write by the block is admitted (20_memory.md R60, R61, R66). -/
def writeAdmitted (p : Params) (a : Nat) : Bool := decide (a < 2 ^ 32) && !inWindow p a && !refusesWrite p a

/-- `MemRead(a, 1)`, or the fault of a refused access (00_scope.md R11, 20_memory.md R66). -/
def memRead (a : Nat) (s : State) : Except ModelFault Byte :=
  if readAdmitted s.par a then .ok (s.mem.read a) else .error (.busError a)

/-- `MemWrite(a, 1, b)`; a refused access raises, and the step goes no further (00_scope.md R11, 20_memory.md R66). -/
def memWrite (a : Nat) (b : Byte) (s : State) : Flow :=
  if writeAdmitted s.par a then .go (s.setMem (s.mem.write a b)) else .stop (raise (.busError a) s)

/-- `[MemRead(a + k, 1) for k in 0..n-1]`, in order, or the fault of the first refused one (43_framer.md R164, R165). -/
def memReadList (a : Nat) : Nat → State → Except ModelFault (List Byte)
  | 0, _ => .ok []
  | n + 1, s =>
    match memRead a s with
    | .error f => .error f
    | .ok b =>
      match memReadList (a + 1) n s with
      | .error f => .error f
      | .ok bs => .ok (b :: bs)

/-! ### Ownership of buffers -/

/-- The address of the byte a descriptor moves next (20_memory.md R64). -/
def Descriptor.cursorAddr (d : Descriptor) : Nat := d.addr.toNat + d.cur.toNat

/-- Byte `a` lies in the buffer of a Busy descriptor (20_memory.md R67). -/
def Descriptor.owns (d : Descriptor) (a : Nat) : Bool :=
  decide (d.state = .busy) && inRange d.addr.toNat d.len.toNat a

/-- Byte `a` lies in a buffer of the started frame parser (20_memory.md R67). -/
def framerOwns (s : State) (a : Nat) : Bool :=
  s.fr.active && (inRange s.fr.hdrAddr.toNat s.par.hdrLen a || inRange s.fr.payAddr.toNat s.fr.payCap.toNat a)

/-- Some channel that exists satisfies `q`. -/
def State.anyChan (s : State) (q : Channel → Bool) : Bool :=
  (List.finRange 8).any fun i => s.hasChan i && q (s.chan i)

/-- A HOST write of `a` breaks ownership (20_memory.md R68). -/
def ownedForWrite (s : State) (a : Nat) : Bool :=
  s.anyChan (fun c => c.txd.owns a || c.rxd.owns a) || framerOwns s a

/-- A HOST read of `a` breaks ownership: a Busy receive buffer or a parser buffer. A Busy transmit buffer may be read
(20_memory.md R68). -/
def ownedForRead (s : State) (a : Nat) : Bool := s.anyChan (fun c => c.rxd.owns a) || framerOwns s a

end Sys2Proof.Machine
end

