-- ==== Sys2Proof/Machine/Flags.lean ====
section
/-! DEFINITION. The flags, the words the registers read as, the service request and the host interrupt line: all computed
from state (10_state.md R22 to R30, 60_exceptions.md R190, R195, R198). -/

namespace Sys2Proof.Machine

/-- `TXE`: the transmit FIFO has room (10_state.md R25). -/
def txe (s : State) (i : Engine) : Bool := decide ((s.chan i).txf.length < s.par.txDepth)

/-- `RXNE`: the receive FIFO holds a byte (10_state.md R25). -/
def rxne (s : State) (i : Engine) : Bool := decide (0 < (s.chan i).rxf.length)

/-- `TC`: the transmit FIFO is empty (10_state.md R25). -/
def tc (s : State) (i : Engine) : Bool := decide ((s.chan i).txf.length = 0)

/-- The receive FIFO has room (40_serial_fifo.md R104). -/
def rxRoom (s : State) (i : Engine) : Bool := decide ((s.chan i).rxf.length < s.par.rxDepth)

/-- A flag in bit `n` of a word, the other bits 0. -/
def bitAt (n : Nat) (f : Bool) : Word := if f then 1#32 <<< n else 0#32

/-- The value of `SR[i]` (10_state.md R25). -/
def srWord (s : State) (i : Engine) : Word :=
  bitAt 0 (txe s i) ||| bitAt 1 (rxne s i) ||| bitAt 2 (s.chan i).ovr ||| bitAt 3 (tc s i)

/-- The value of `CR[i]` (10_state.md R24). -/
def crWord (c : Control) : Word :=
  bitAt 0 c.ue ||| bitAt 1 c.te ||| bitAt 2 c.re ||| bitAt 3 c.txeie ||| bitAt 4 c.rxneie ||| bitAt 5 c.over8

/-- The code of a callback in field `CB` (10_state.md R27). -/
def Callback.code : Callback → Word
  | .none => 0#32
  | .host => 1#32
  | .framer => 2#32

/-- `TXD_CTL[i]` or `RXD_CTL[i]`: `{zeros[31:4], CB[1:0], MODE, STATE}` (10_state.md R27). -/
def ctlWord (d : Descriptor) : Word :=
  bitAt 0 (decide (d.state = .busy)) ||| bitAt 1 (decide (d.mode = .blocking)) ||| (d.cb.code <<< 2)

/-- The number of a result code (60_exceptions.md R190). -/
def ResultCode.code : ResultCode → Word
  | .ok => 0#32
  | .invalidArgument => 1#32
  | .nullReference => 2#32
  | .busy => 3#32
  | .timeout => 4#32
  | .invalidChannel => 5#32
  | .decodeFailure => 6#32
  | .unmappedId => 7#32

/-- `FR_STATUS`: bit 0 `ACTIVE`, bit 1 `STATE`, bits [6:4] `CH`, bits [11:8] `LAST_RESULT` (10_state.md R30). -/
def frStatusWord (f : FrameContext) : Word :=
  bitAt 0 f.active ||| bitAt 1 (decide (f.state = .payloadWait)) ||| (BitVec.ofNat 32 f.ch.val <<< 4) |||
    (f.lastResult.code <<< 8)

/-- Bit `2*i` of `IRQ_STATUS`, `TXC[i]` (10_state.md R29). -/
def txcBit (i : Engine) : Nat := 2 * i.val

/-- Bit `2*i+1` of `IRQ_STATUS`, `RXC[i]` (10_state.md R29). -/
def rxcBit (i : Engine) : Nat := 2 * i.val + 1

/-- Bit 16 of `IRQ_STATUS`, `FRAME_DONE` (10_state.md R29). -/
def frameDoneBit : Nat := 16

/-- Bit 17 of `IRQ_STATUS`, `FRAME_ERR` (10_state.md R29). -/
def frameErrBit : Nat := 17

/-- The bits of `IRQ_STATUS` and `IRQ_ENABLE` that exist: two for each channel, `FRAME_DONE` and `FRAME_ERR`; the others
are RAZ/WI (10_state.md R29). -/
def irqMask (p : Params) : Word := BitVec.ofNat 32 (2 ^ (2 * p.numChannels) - 1) ||| 0x00030000#32

/-- `ServiceRequest(i)` (60_exceptions.md R195). -/
def serviceRequest (s : State) (i : Engine) : Bool :=
  (s.chan i).cr.ue && ((txe s i && (s.chan i).cr.txeie) || (rxne s i && (s.chan i).cr.rxneie))

/-- The value of `IRQ_STATUS`: bits that do not exist read as zero (10_state.md R29). -/
def irqStatusWord (s : State) : Word := s.irqStatus &&& irqMask s.par

/-- The value of `IRQ_ENABLE`: bits that do not exist read as zero (10_state.md R29). -/
def irqEnableWord (s : State) : Word := s.irqEnable &&& irqMask s.par

/-- `irq_out`: some bit is set in both `IRQ_STATUS` and `IRQ_ENABLE` (60_exceptions.md R198). -/
def irqOut (s : State) : Bool := decide (irqStatusWord s &&& irqEnableWord s ≠ 0#32)

/-- The transmit side of LINE[i] is active (40_serial_fifo.md R102). -/
def lineTxActive (s : State) (i : Engine) : Bool := (s.chan i).cr.ue && (s.chan i).cr.te

/-- The receive side of LINE[i] is active (40_serial_fifo.md R102). -/
def lineRxActive (s : State) (i : Engine) : Bool := (s.chan i).cr.ue && (s.chan i).cr.re

end Sys2Proof.Machine
end

