-- ==== Sys2Proof/Machine/Operands.lean ====
section
/-! DEFINITION. What the commands do with their operands before any effect: the channel map, the submit's validation, the
parser's buffer check and the baud divisor (42_channel_registry.md R150, R152; 41_transfer_engine.md R120; 43_framer.md
R161). -/

namespace Sys2Proof.Machine

/-- `CHAN_MAP(ch)` (42_channel_registry.md R150). -/
def chanMap (p : Params) (ch : Nat) : Option Engine := p.chanMap.lookup ch

/-- `addr + len > 2^32` (41_transfer_engine.md R120, 43_framer.md R161, R168). -/
def leavesMemory (addr len : Nat) : Bool := decide (2 ^ 32 < addr + len)

/-- `Validate(ch, addr, len)` (41_transfer_engine.md R120). -/
def validate (p : Params) (ch : Nat) (addr len : Word) : Except ResultCode Engine :=
  if addr = 0#32 then .error .nullReference
  else
    match chanMap p ch with
    | none => .error .invalidChannel
    | some i =>
      if len = 0#32 ∨ leavesMemory addr.toNat len.toNat = true then .error .invalidArgument else .ok i

/-- `[a, a + n)` and `[b, b + m)` share an address (43_framer.md R161). -/
def rangesOverlap (a n b m : Nat) : Bool := decide (a < b + m ∧ b < a + n)

/-- FRAMER_START's buffer check: the capacity is 0, a buffer leaves the address space, or the two overlap
(43_framer.md R161). -/
def framerBuffersBad (hdrLen : Nat) (hdr pay cap : Word) : Bool :=
  decide (cap = 0#32) || leavesMemory hdr.toNat hdrLen || leavesMemory pay.toNat cap.toNat ||
    rangesOverlap hdr.toNat hdrLen pay.toNat cap.toNat

/-- The oversampling factor `S = 8 * (2 - over8)` (42_channel_registry.md R152). -/
def oversampling (over8 : Bool) : Nat := 8 * (2 - over8.toNat)

/-- `ceil(a / b)` (00_scope.md R8). -/
def ceilDiv (a b : Nat) : Nat := (a + b - 1) / b

/-- `BaudDivisor(clk, baud, over8)`, the mantissa and the fraction; `none` is its error (42_channel_registry.md R152). -/
def baudDivisor (mantMax clk baud : Nat) (over8 : Bool) : Option (Nat × Nat) :=
  if baud = 0 then none
  else
    let S := oversampling over8
    let D := S * baud
    let frac := ceilDiv (clk % D * S) D
    let carried := if frac = S then (clk / D + 1, 0) else (clk / D, frac)
    if carried.1 = 0 ∨ mantMax < carried.1 then none else some carried

/-- `{zeros[31:16], mant[11:0], frac[3:0]}` (42_channel_registry.md R151, R153). -/
def brrWord (mant frac : Nat) : Word := 0#16 ++ BitVec.ofNat 12 mant ++ BitVec.ofNat 4 frac

/-- Flag `HOSTCB` as a descriptor's callback (41_transfer_engine.md R121, R122). -/
def hostCallback (hostcb : Bool) : Callback := if hostcb then .host else .none

/-- A descriptor populated by a submit or an arm (41_transfer_engine.md R121, R122; 43_framer.md R162). -/
def submitted (addr len : Word) (cb : Callback) : Descriptor where
  addr := addr
  len := len
  cur := 0#32
  state := .busy
  mode := .async
  cb := cb

/-- A descriptor held by a blocking command: nothing but `STATE` and `MODE` is touched (41_transfer_engine.md R130). -/
def Descriptor.hold (d : Descriptor) : Descriptor := { d with state := .busy, mode := .blocking }

/-- A descriptor a blocking command gives back (41_transfer_engine.md R130). -/
def Descriptor.restore (d : Descriptor) : Descriptor := { d with state := .ready, mode := .async }

/-- A descriptor that completes: Ready, with its cursor reset; `ADDR`, `LEN` and `CB` keep their values
(41_transfer_engine.md R126, R127). -/
def Descriptor.complete (d : Descriptor) : Descriptor := { d with state := .ready, cur := 0#32 }

/-- A descriptor whose cursor moved past one byte. -/
def Descriptor.advance (d : Descriptor) : Descriptor := { d with cur := d.cur + 1#32 }

end Sys2Proof.Machine
end

