-- ==== Sys2Proof/Machine/Transfer.lean ====
section
/-! DEFINITION. The submits and the blocking single-byte commands (41_transfer_engine.md R121, R122, R130 to R132). -/

namespace Sys2Proof.Machine

/-! ### Submits -/

/-- The tail of an accepted SUBMIT_SEND: `CR[i].TXEIE <- 1` and the OK result (41_transfer_engine.md R121). -/
def sendAccepted (i : Engine) (s : State) : State :=
  finish .submitSend .ok (s.updCr i fun c => { c with txeie := true })

/-- The body of SUBMIT_SEND from Ready: populate, enable the transmitter, and push the first byte where the FIFO has room
(41_transfer_engine.md R121). A refused read raises, and `TXEIE` and the result are then not written. -/
def sendStart (i : Engine) (addr len : Word) (cb : Callback) (s : State) : Flow :=
  let s1 := (s.updTxd i fun _ => submitted addr len cb).updCr i fun c => { c with te := true }
  if txe s1 i then
    match memRead addr.toNat s1 with
    | .error f => .stop (raise f s1)
    | .ok b => .go (sendAccepted i ((txPush i b s1).updTxd i fun d => { d with cur := 1#32 }))
  else .go (sendAccepted i s1)

/-- SUBMIT_SEND (41_transfer_engine.md R121). -/
def execSubmitSend (ch : Nat) (hostcb : Bool) (s : State) : Host.Outcome State Fault Refusal :=
  match validate s.par ch s.arg0 s.arg1 with
  | .error code => .next (finish .submitSend code s)
  | .ok i =>
    if (s.chan i).txd.state = .busy then .next (finish .submitSend .busy s)
    else (sendStart i s.arg0 s.arg1 (hostCallback hostcb) s).toStep

/-- A receive descriptor populated and its source enabled: the effect of SUBMIT_RECV (41_transfer_engine.md R122) and of
the parser's Arm (43_framer.md R162). -/
def armReceive (i : Engine) (addr len : Word) (cb : Callback) (s : State) : State :=
  (s.updRxd i fun _ => submitted addr len cb).updCr i fun c => { c with re := true, rxneie := true }

/-- SUBMIT_RECV (41_transfer_engine.md R122). -/
def execSubmitRecv (ch : Nat) (hostcb : Bool) (s : State) : Host.Outcome State Fault Refusal :=
  match validate s.par ch s.arg0 s.arg1 with
  | .error code => .next (finish .submitRecv code s)
  | .ok i =>
    if (s.chan i).rxd.state = .busy then .next (finish .submitRecv .busy s)
    else .next (finish .submitRecv .ok (armReceive i s.arg0 s.arg1 (hostCallback hostcb) s))

/-! ### Blocking commands: holding and giving back a direction -/

/-- `TXD[i]` held Busy/Blocking and the transmitter enabled (41_transfer_engine.md R131, 43_framer.md R168). -/
def holdTx (i : Engine) (s : State) : State :=
  (s.updTxd i Descriptor.hold).updCr i fun c => { c with te := true }

/-- `RXD[i]` held Busy/Blocking and the receiver enabled (41_transfer_engine.md R132). -/
def holdRx (i : Engine) (s : State) : State :=
  (s.updRxd i Descriptor.hold).updCr i fun c => { c with re := true }

/-- The end of a blocking command on `TXD[i]` (41_transfer_engine.md R131, 43_framer.md R168). -/
def endTx (op : CmdOp) (i : Engine) (code : ResultCode) (s : State) : State :=
  finish op code ((s.updTxd i Descriptor.restore).setCmdState .idle)

/-- The end of a blocking command on `RXD[i]` (41_transfer_engine.md R132). -/
def endRx (op : CmdOp) (i : Engine) (code : ResultCode) (s : State) : State :=
  finish op code ((s.updRxd i Descriptor.restore).setCmdState .idle)

/-! ### SEND_BYTE and GET_BYTE -/

/-- SEND_BYTE, start step (41_transfer_engine.md R131). -/
def execSendByte (ch : Nat) (data : Byte) (s : State) : Host.Outcome State Fault Refusal :=
  match chanMap s.par ch with
  | none => .next (finish .sendByte .invalidChannel s)
  | some i =>
    if (s.chan i).txd.state = .busy then .next (finish .sendByte .busy s)
    else .next ((holdTx i s).setCmdState (.sendByte i data 0))

/-- SEND_BYTE, poll step at `CMDSTATE = SendByte(i, b, k)` (41_transfer_engine.md R131). -/
def pollSendByte (i : Engine) (b : Byte) (k : Nat) (s : State) : State :=
  if txe s i then endTx .sendByte i .ok (txPush i b s)
  else if k + 1 = s.par.spinBound then endTx .sendByte i .timeout s
  else s.setCmdState (.sendByte i b (k + 1))

/-- GET_BYTE, start step (41_transfer_engine.md R132). -/
def execGetByte (ch : Nat) (s : State) : Host.Outcome State Fault Refusal :=
  match chanMap s.par ch with
  | none => .next (finish .getByte .invalidChannel s)
  | some i =>
    if (s.chan i).rxd.state = .busy then .next (finish .getByte .busy s)
    else .next ((holdRx i s).setCmdState (.getByte i 0))

/-- GET_BYTE, poll step at `CMDSTATE = GetByte(i, k)` (41_transfer_engine.md R132). -/
def pollGetByte (i : Engine) (k : Nat) (s : State) : State :=
  match (s.chan i).rxf with
  | b :: _ => endRx .getByte i .ok ((rxDrop i s).setRdata (b.setWidth 32))
  | [] =>
    if k + 1 = s.par.spinBound then endRx .getByte i .timeout s
    else s.setCmdState (.getByte i (k + 1))

end Sys2Proof.Machine
end

