-- ==== Sys2Proof/Machine/Framer.lean ====
section
/-! DEFINITION. The frame parser and the send path (43_framer.md R161 to R168). -/

namespace Sys2Proof.Machine

/-! ### FRAMER_START and the re-arm -/

/-- `Arm(i, addr, len)` (43_framer.md R162). -/
def arm (i : Engine) (addr len : Word) (s : State) : State := armReceive i addr len .framer s

/-- `Arm(i, FR.HDR_ADDR, HDR_LEN)`: a receive for a header frame (43_framer.md R161, R164, R165). -/
def armHeader (i : Engine) (s : State) : State := arm i s.fr.hdrAddr (BitVec.ofNat 32 s.par.hdrLen) s

/-- The body of FRAMER_START once its checks pass (43_framer.md R161). -/
def framerBegin (i : Engine) (hdr pay cap : Word) (s : State) : State :=
  armHeader i (s.updFr fun f =>
    { f with ch := i, hdrAddr := hdr, payAddr := pay, payCap := cap, state := .headerWait, active := true })

/-- FRAMER_START (43_framer.md R161). -/
def execFramerStart (ch : Nat) (s : State) : Host.Outcome State Fault Refusal :=
  if s.arg0 = 0#32 ∨ s.arg1 = 0#32 then .next (finish .framerStart .nullReference s)
  else
    match chanMap s.par ch with
    | none => .next (finish .framerStart .invalidChannel s)
    | some i =>
      if framerBuffersBad s.par.hdrLen s.arg0 s.arg1 s.arg2 then .next (finish .framerStart .invalidArgument s)
      else if s.fr.active = true ∨ (s.chan i).rxd.state = .busy then .next (finish .framerStart .busy s)
      else .next (finish .framerStart .ok (framerBegin i s.arg0 s.arg1 s.arg2 s))

/-! ### The completion action -/

/-- A rejected frame: `FR.LAST_RESULT` and `FRAME_ERR` (43_framer.md R164, R166). -/
def frameRejected (code : ResultCode) (s : State) : State :=
  setIrq frameErrBit (s.updFr fun f => { f with lastResult := code })

/-- `Dispatch(id, p)` (43_framer.md R166). -/
def dispatch (id : Word) (p : List Byte) (s : State) : State :=
  if id ∈ s.par.dispatchIds then
    match payloadDecode s.par id p with
    | none => frameRejected .decodeFailure s
    | some m =>
      setIrq frameDoneBit ((emit (.handlerCall id m) s).updFr fun f => { f with lastResult := .ok })
  else frameRejected .unmappedId s

/-- A header that decoded to `(id, len)` within the capacity: record it, then dispatch an empty payload at once or arm
the payload (43_framer.md R164). -/
def headerAccepted (i : Engine) (id len : Word) (s : State) : State :=
  let s1 := s.updFr fun f => { f with lastId := id, lastLen := len }
  if len = 0#32 then armHeader i (dispatch id [] s1)
  else (arm i s1.fr.payAddr len s1).updFr fun f => { f with state := .payloadWait }

/-- What a header's bytes lead to (43_framer.md R164). -/
def headerParsed (i : Engine) (h : List Byte) (s : State) : State :=
  match headerDecode s.par h with
  | none => armHeader i (frameRejected .decodeFailure s)
  | some (id, len) =>
    if s.fr.payCap < len then armHeader i (frameRejected .decodeFailure s) else headerAccepted i id len s

/-- `HeaderDone(i)` (43_framer.md R164). -/
def headerDone (i : Engine) (s : State) : Flow :=
  match memReadList s.fr.hdrAddr.toNat s.par.hdrLen s with
  | .error f => .stop (raise f s)
  | .ok h => .go (headerParsed i h s)

/-- What a payload's bytes lead to: the handler first, then the re-arm (43_framer.md R165). -/
def payloadParsed (i : Engine) (p : List Byte) (s : State) : State :=
  (armHeader i (dispatch s.fr.lastId p s)).updFr fun f => { f with state := .headerWait }

/-- `PayloadDone(i)` (43_framer.md R165). -/
def payloadDone (i : Engine) (s : State) : Flow :=
  match memReadList s.fr.payAddr.toNat s.fr.lastLen.toNat s with
  | .error f => .stop (raise f s)
  | .ok p => .go (payloadParsed i p s)

/-- `FramerOnRx(i)` (43_framer.md R163). -/
def framerOnRx (i : Engine) (s : State) : Flow :=
  match s.fr.state with
  | .headerWait => headerDone i s
  | .payloadWait => payloadDone i s

/-! ### SEND_FRAME -/

/-- SEND_FRAME, start step (43_framer.md R168). -/
def execSendFrame (ch : Nat) (s : State) : Host.Outcome State Fault Refusal :=
  if s.arg0 = 0#32 ∧ 0#32 < s.arg1 then .next (finish .sendFrame .nullReference s)
  else
    match chanMap s.par ch with
    | none => .next (finish .sendFrame .invalidChannel s)
    | some i =>
      if leavesMemory s.arg0.toNat s.arg1.toNat then .next (finish .sendFrame .invalidArgument s)
      else if (s.chan i).txd.state = .busy then .next (finish .sendFrame .busy s)
      else
        .next ((holdTx i s).setCmdState
          (.sendFrame i (headerEncode s.par s.arg2 s.arg1) s.arg0 s.arg1 0 0))

/-- The address of payload byte `pos` of a frame (43_framer.md R168). -/
def framePayloadAddr (p : Params) (pay : Word) (pos : Nat) : Nat := pay.toNat + pos - p.hdrLen

/-- The poll that found room and has byte `b` of the frame (43_framer.md R168). -/
def frameBytePushed (i : Engine) (hb : List Byte) (pay len : Word) (pos : Nat) (b : Byte) (s : State) : State :=
  if pos + 1 = s.par.hdrLen + len.toNat then endTx .sendFrame i .ok (txPush i b s)
  else (txPush i b s).setCmdState (.sendFrame i hb pay len (pos + 1) 0)

/-- SEND_FRAME, poll step at `CMDSTATE = SendFrame(i, hb, pay, len, pos, k)` (43_framer.md R168). -/
def pollSendFrame (i : Engine) (hb : List Byte) (pay len : Word) (pos k : Nat) (s : State) :
    Host.Outcome State Fault Refusal :=
  if txe s i then
    if pos < s.par.hdrLen then
      match hb[pos]? with
      | none => .fault .headerCodecLawBroken
      | some b => .next (frameBytePushed i hb pay len pos b s)
    else
      match memRead (framePayloadAddr s.par pay pos) s with
      | .error f => .next (raise f s)
      | .ok b => .next (frameBytePushed i hb pay len pos b s)
  else if k + 1 = s.par.spinBound then .next (endTx .sendFrame i .timeout s)
  else .next (s.setCmdState (.sendFrame i hb pay len pos (k + 1)))

end Sys2Proof.Machine
end

