-- ==== Sys2Proof/Machine/Registry.lean ====
section
/-! DEFINITION. INIT (42_channel_registry.md R151), and the effect of an illegal command word (30_encoding.md R84). -/

namespace Sys2Proof.Machine

/-- An illegal command word: `result <- InvalidArgument` and its `CmdDone` event, nothing else (30_encoding.md R84, R85,
R88). -/
def execIllegal (s : State) : State := finish .illegal .invalidArgument s

/-- The channel an INIT programs: `BRR`, `OVER8` and `UE` (42_channel_registry.md R151, R153). -/
def initChannel (over8 : Bool) (d : Nat × Nat) (c : Channel) : Channel :=
  { c with brr := brrWord d.1 d.2, cr := { c.cr with over8 := over8, ue := true } }

/-- INIT meets a running channel: initialised already, with a descriptor Busy (42_channel_registry.md R151). -/
def reinitBusy (c : Channel) : Bool :=
  c.cr.ue && (decide (c.txd.state = .busy) || decide (c.rxd.state = .busy))

/-- INIT (42_channel_registry.md R151). -/
def execInit (ch : Nat) (over8 : Bool) (s : State) : Host.Outcome State Fault Refusal :=
  match chanMap s.par ch with
  | none => .next (finish .init .invalidChannel s)
  | some i =>
    match baudDivisor s.par.mantMax s.par.coreClock s.arg0.toNat over8 with
    | none => .next (finish .init .invalidArgument s)
    | some d =>
      if reinitBusy (s.chan i) then .next (finish .init .busy s)
      else .next (finish .init .ok (s.updChan i (initChannel over8 d)))

end Sys2Proof.Machine
end

