-- ==== Sys2Proof/Machine/Dispatch.lean ====
section
/-! DEFINITION. The meaning of each command: its step when the HOST writes its word to `CMD` with `CMDSTATE` Idle
(30_encoding.md R88). For a blocking command that is its start step (41_transfer_engine.md R130). -/

namespace Sys2Proof.Machine

/-- One arm per command (30_encoding.md R82). -/
def exec (i : Instr) (s : State) : Host.Outcome State Fault Refusal :=
  match i with
  | .init ch over8 => Sys2Proof.Machine.execInit ch over8 s
  | .submitSend ch hostcb => Sys2Proof.Machine.execSubmitSend ch hostcb s
  | .submitRecv ch hostcb => Sys2Proof.Machine.execSubmitRecv ch hostcb s
  | .sendByte ch data => Sys2Proof.Machine.execSendByte ch data s
  | .getByte ch => Sys2Proof.Machine.execGetByte ch s
  | .framerStart ch => Sys2Proof.Machine.execFramerStart ch s
  | .sendFrame ch => Sys2Proof.Machine.execSendFrame ch s

end Sys2Proof.Machine
end

