-- ==== Sys2Proof/Machine/HostPort.lean ====
section
/-! DEFINITION. The HOST agent: its register accesses and its accesses to system memory, the CMD write that starts a
command, and the poll step of a blocking command (20_memory.md R60 to R70; 10_state.md R22, R23; 41_transfer_engine.md
R130). -/

namespace Sys2Proof.Machine

/-! ### The register map -/

/-- The registers of the window (10_state.md R22, R23). -/
inductive Reg where
  | cmd | arg0 | arg1 | arg2 | result | rdata | irqStatus | irqEnable
  | frStatus | frLastId | frLastLen | frHdrAddr | frPayAddr | frPayCap
  | cr (i : Engine) | sr (i : Engine) | brr (i : Engine)
  | txdAddr (i : Engine) | txdLen (i : Engine) | txdCur (i : Engine) | txdCtl (i : Engine)
  | rxdAddr (i : Engine) | rxdLen (i : Engine) | rxdCur (i : Engine) | rxdCtl (i : Engine)
  /-- RAZ/WI: offsets 0x038 to 0x0FF, window offsets 0x2C to 0x3F, and the windows of absent channels. -/
  | reserved
  deriving DecidableEq, Repr

/-- The global registers by offset (10_state.md R22). -/
def globalReg (off : Nat) : Reg :=
  match off with
  | 0x000 => .cmd
  | 0x004 => .arg0
  | 0x008 => .arg1
  | 0x00C => .arg2
  | 0x010 => .result
  | 0x014 => .rdata
  | 0x018 => .irqStatus
  | 0x01C => .irqEnable
  | 0x020 => .frStatus
  | 0x024 => .frLastId
  | 0x028 => .frLastLen
  | 0x02C => .frHdrAddr
  | 0x030 => .frPayAddr
  | 0x034 => .frPayCap
  | _ => .reserved

/-- The registers of channel `i` by offset within its window (10_state.md R23). -/
def channelReg (i : Engine) (off : Nat) : Reg :=
  match off with
  | 0x00 => .cr i
  | 0x04 => .sr i
  | 0x08 => .brr i
  | 0x0C => .txdAddr i
  | 0x10 => .txdLen i
  | 0x14 => .txdCur i
  | 0x18 => .txdCtl i
  | 0x1C => .rxdAddr i
  | 0x20 => .rxdLen i
  | 0x24 => .rxdCur i
  | 0x28 => .rxdCtl i
  | _ => .reserved

/-- The register at a byte offset from `BASE`: channel `i`'s window stands at `0x100 + 0x40 * i`, and the window of an
index at or above `NUM_CHANNELS` is reserved (10_state.md R22, R23). -/
def regAt (p : Params) (off : Nat) : Reg :=
  if off < 0x100 then globalReg off
  else if h : (off - 0x100) / 0x40 < 8 then
    if (off - 0x100) / 0x40 < p.numChannels then channelReg ⟨(off - 0x100) / 0x40, h⟩ ((off - 0x100) % 0x40)
    else .reserved
  else .reserved

/-- What a read of a register returns (20_memory.md R70, 10_state.md R22 to R30). -/
def readReg (r : Reg) (s : State) : Word :=
  match r with
  | .cmd => 0#32
  | .arg0 => s.arg0
  | .arg1 => s.arg1
  | .arg2 => s.arg2
  | .result => s.result.code
  | .rdata => s.rdata
  | .irqStatus => irqStatusWord s
  | .irqEnable => irqEnableWord s
  | .frStatus => frStatusWord s.fr
  | .frLastId => s.fr.lastId
  | .frLastLen => s.fr.lastLen
  | .frHdrAddr => s.fr.hdrAddr
  | .frPayAddr => s.fr.payAddr
  | .frPayCap => s.fr.payCap
  | .cr i => crWord (s.chan i).cr
  | .sr i => srWord s i
  | .brr i => (s.chan i).brr
  | .txdAddr i => (s.chan i).txd.addr
  | .txdLen i => (s.chan i).txd.len
  | .txdCur i => (s.chan i).txd.cur
  | .txdCtl i => ctlWord (s.chan i).txd
  | .rxdAddr i => (s.chan i).rxd.addr
  | .rxdLen i => (s.chan i).rxd.len
  | .rxdCur i => (s.chan i).rxd.cur
  | .rxdCtl i => ctlWord (s.chan i).rxd
  | .reserved => 0#32

/-- `OVR` cleared where bit 2 is written as 1 (20_memory.md R69, 10_state.md R25). -/
def clearOvr (i : Engine) (v : Word) (s : State) : State :=
  s.updChan i fun c => { c with ovr := c.ovr && !v.getLsbD 2 }

/-- A write to a register other than `CMD`; a write to a read-only register or a reserved offset is ignored
(20_memory.md R69). -/
def writeReg (r : Reg) (v : Word) (s : State) : State :=
  match r with
  | .arg0 => { s with arg0 := v }
  | .arg1 => { s with arg1 := v }
  | .arg2 => { s with arg2 := v }
  | .irqStatus => { s with irqStatus := s.irqStatus &&& ~~~v }
  | .irqEnable => { s with irqEnable := v &&& irqMask s.par }
  | .sr i => clearOvr i v s
  | .cmd | .result | .rdata | .frStatus | .frLastId | .frLastLen | .frHdrAddr | .frPayAddr | .frPayCap
  | .cr _ | .brr _ | .txdAddr _ | .txdLen _ | .txdCur _ | .txdCtl _
  | .rxdAddr _ | .rxdLen _ | .rxdCur _ | .rxdCtl _ | .reserved => s

/-! ### HOST statements -/

/-- A permitted register access: 32 bits wide, at a multiple of 4 (20_memory.md R63). `BASE` is aligned to 0x400, so the
offset decides (log entry 11). -/
def regAccessOk (w : Width) (off : BitVec 10) : Bool := decide (w = .w32) && decide (off.toNat % 4 = 0)

/-- The address of a register access. -/
def regAddr (p : Params) (off : BitVec 10) : Nat := p.base.toNat + off.toNat

/-- A write of `w` to `CMD` with `CMDSTATE` Idle: the command it encodes, or the illegal word's effect
(30_encoding.md R88). -/
def command (w : Word) (s : State) : Host.Outcome State Fault Refusal :=
  match decode w with
  | .ok i => exec i s
  | .error _ => .next (execIllegal s)

/-- A HOST register read (20_memory.md R63, R70). -/
def regRead (w : Width) (off : BitVec 10) (s : State) : State :=
  if regAccessOk w off then s.setHostData (readReg (regAt s.par off.toNat) s)
  else raise (.busError (regAddr s.par off)) s

/-- A HOST register write (20_memory.md R63, R69). -/
def regWrite (w : Width) (off : BitVec 10) (v : Word) (s : State) : Host.Outcome State Fault Refusal :=
  if regAccessOk w off then
    match regAt s.par off.toNat with
    | .cmd => command v s
    | r => .next (writeReg r v s)
  else .next (raise (.busError (regAddr s.par off)) s)

/-- A HOST load of a byte. Inside the window it is an 8-bit register access (20_memory.md R63; log entry 11); elsewhere
it returns memory unless it breaks ownership (R68). -/
def hostMemRead (a : Word) (s : State) : Host.Outcome State Fault Refusal :=
  if inWindow s.par a.toNat then .next (raise (.busError a.toNat) s)
  else if ownedForRead s a.toNat then .next (raise (.ownershipViolation a.toNat) s)
  else if refusesRead s.par a.toNat then .fault (.hostAccessRefused a.toNat)
  else .next (s.setHostData ((s.mem.read a.toNat).setWidth 32))

/-- A HOST store of a byte, likewise (20_memory.md R63, R68). -/
def hostMemWrite (a : Word) (b : Byte) (s : State) : Host.Outcome State Fault Refusal :=
  if inWindow s.par a.toNat then .next (raise (.busError a.toNat) s)
  else if ownedForWrite s a.toNat then .next (raise (.ownershipViolation a.toNat) s)
  else if refusesWrite s.par a.toNat then .fault (.hostAccessRefused a.toNat)
  else .next (s.setMem (s.mem.write a.toNat b))

/-- The effect of a HOST statement (30_encoding.md R89). -/
def hostStmt (st : HostStmt) (s : State) : Host.Outcome State Fault Refusal :=
  match st with
  | .regRead w off => .next (regRead w off s)
  | .regWrite w off v => regWrite w off v s
  | .memRead a => hostMemRead a s
  | .memWrite a b => hostMemWrite a b s

/-- A HOST statement, which the HOST has only while `CMDSTATE` is Idle (41_transfer_engine.md R130). -/
def hostStep (st : HostStmt) (s : State) : Host.Outcome State Fault Refusal :=
  if s.cmdState = .idle then hostStmt st s else .fault .hostHeld

/-- The poll step of the blocking command in progress (41_transfer_engine.md R130). -/
def pollStep (s : State) : Host.Outcome State Fault Refusal :=
  match s.cmdState with
  | .idle => .fault .noPollPending
  | .sendByte i b k => .next (pollSendByte i b k s)
  | .getByte i k => .next (pollGetByte i k s)
  | .sendFrame i hb pay len pos k => pollSendFrame i hb pay len pos k s

end Sys2Proof.Machine
end

