-- ==== Sys2Proof/Machine/Line.lean ====
section
/-! DEFINITION. The line side of a channel's FIFOs (40_serial_fifo.md R102 to R105). -/

namespace Sys2Proof.Machine

/-- `LineTx(i)`, where it is enabled (40_serial_fifo.md R103). -/
def lineTxStep (i : Engine) (s : State) : Host.Outcome State Fault Refusal :=
  match (s.chan i).txf with
  | [] => .fault (.lineTxNotEnabled i)
  | b :: _ =>
    if s.hasChan i && lineTxActive s i then .next (emit (.wireOut i b) (txDrop i s))
    else .fault (.lineTxNotEnabled i)

/-- `LineRx(i, b)` (40_serial_fifo.md R104, R105). -/
def lineRx (i : Engine) (b : Byte) (s : State) : State :=
  if lineRxActive s i then
    if rxRoom s i then emit (.wireIn i b true) (rxPush i b s)
    else emit (.wireIn i b false) (s.updChan i fun c => { c with ovr := true })
  else emit (.wireIn i b false) s

/-- A line receive step: always enabled on a channel that exists (40_serial_fifo.md R104). -/
def lineRxStep (i : Engine) (b : Byte) (s : State) : Host.Outcome State Fault Refusal :=
  if s.hasChan i then .next (lineRx i b s) else .fault (.noSuchLine i)

end Sys2Proof.Machine
end

