-- ==== Sys2Proof/Machine/Sequencer.lean ====
section
/-! DEFINITION. The service invocation of the SEQ agent (41_transfer_engine.md R124 to R128). -/

namespace Sys2Proof.Machine

/-- `Callback(i, TX, cb)` and `Callback(i, RX, cb)`: the bit of a host callback is the direction's
(41_transfer_engine.md R128; log entry 16). -/
def callback (i : Engine) (bit : Nat) (cb : Callback) (s : State) : Flow :=
  match cb with
  | .none => .go s
  | .host => .go (setIrq bit s)
  | .framer => framerOnRx i s

/-- Transmit completion (41_transfer_engine.md R126). -/
def txComplete (i : Engine) (s : State) : Flow :=
  let s1 := (s.updCr i fun c => { c with txeie := false }).updTxd i Descriptor.complete
  callback i (txcBit i) (s1.chan i).txd.cb s1

/-- `TxBranch(i)` (41_transfer_engine.md R126). -/
def txBranch (i : Engine) (s : State) : Flow :=
  if txe s i && (s.chan i).cr.txeie then
    if (s.chan i).txd.cur < (s.chan i).txd.len then
      match memRead (s.chan i).txd.cursorAddr s with
      | .error f => .stop (raise f s)
      | .ok b => .go ((txPush i b s).updTxd i Descriptor.advance)
    else txComplete i s
  else .go s

/-- Receive completion (41_transfer_engine.md R127). -/
def rxComplete (i : Engine) (s : State) : Flow :=
  let s1 := (s.updCr i fun c => { c with rxneie := false }).updRxd i Descriptor.complete
  callback i (rxcBit i) (s1.chan i).rxd.cb s1

/-- The cursor moves past the byte written, and the receive completes where it reaches the length
(41_transfer_engine.md R127). -/
def rxAdvance (i : Engine) (s : State) : Flow :=
  let s1 := s.updRxd i Descriptor.advance
  if (s1.chan i).rxd.cur = (s1.chan i).rxd.len then rxComplete i s1 else .go s1

/-- `RxBranch(i)` (41_transfer_engine.md R127). The pop precedes the write, so a refused write loses the byte. -/
def rxBranch (i : Engine) (s : State) : Flow :=
  match (s.chan i).rxf with
  | [] => .go s
  | b :: _ =>
    if (s.chan i).cr.rxneie then
      if (s.chan i).rxd.cur < (s.chan i).rxd.len then
        (memWrite (s.chan i).rxd.cursorAddr b (rxDrop i s)).andThen (rxAdvance i)
      else .stop (raise (.invariantBroken i) s)
    else .go s

/-- `SVC(i)`: the transmit branch, then the receive branch (41_transfer_engine.md R125). -/
def serve (i : Engine) (s : State) : Flow := (txBranch i s).andThen (rxBranch i)

/-- The SEQ step: a service invocation of a channel that requests service, whichever the arbiter grants
(60_exceptions.md R195, R196; log entry 7). -/
def seqStep (i : Engine) (s : State) : Host.Outcome State Fault Refusal :=
  if s.hasChan i && serviceRequest s i then (serve i s).toStep else .fault (.noServiceRequest i)

end Sys2Proof.Machine
end

