-- ==== Sys2Proof/Machine/Agents.lean ====
section
/-! DEFINITION. The atomic steps of the agents (00_scope.md R3, 20_memory.md R65), and reset (70_reset_and_hazards.md
R220). -/

namespace Sys2Proof.Machine

/-- Reset: every piece of the block's state at its reset value. System memory is not touched (70_reset_and_hazards.md
R220), nor are the parameters, what the HOST holds and what the agents do next (log entry 13). -/
def resetStep (s : State) : State :=
  { State.resetOf s.par s.mem with hostData := s.hostData, agenda := s.agenda }

/-- The step an agent takes. -/
def act (a : Action) (s : State) : Host.Outcome State Fault Refusal :=
  match a with
  | .host st => hostStep st s
  | .poll => pollStep s
  | .svc i => seqStep i s
  | .lineTx i => lineTxStep i s
  | .lineRx i b => lineRxStep i b s
  | .reset => .next (resetStep s)

/-- The next pending step is taken; with none pending the model's input has ended. -/
def stepOf (s : State) : Host.Outcome State Fault Refusal :=
  match s.agenda with
  | [] => .fault .nothingScheduled
  | a :: rest => act a (s.setAgenda rest)

/-- The bytes of a command word of the opcode table, as the value of a `CMD` write. -/
def tableWord (nbits w : Nat) : Word :=
  wordOfBytes (tableByte (w % 2 ^ nbits) 0) (tableByte (w % 2 ^ nbits) 1) (tableByte (w % 2 ^ nbits) 2)
    (tableByte (w % 2 ^ nbits) 3)

/-- The HOST statement `W CMD, w` (30_encoding.md R89; `CMD` is at offset 0, 10_state.md R22). -/
def cmdWrite (w : Word) : Action := .host (.regWrite .w32 0#10 w)

/-- `s` with the HOST's write of a command word as its next step, and the HOST free to make it. -/
def placeCommand (s : State) (nbits w : Nat) : State :=
  { s with agenda := cmdWrite (tableWord nbits w) :: s.agenda, cmdState := .idle }

end Sys2Proof.Machine
end

