-- ==== Sys2Proof/Machine/Step.lean ====
section
/-! DEFINITION. One step of the machine, and where a command word comes from (log entry 1). -/

namespace Sys2Proof.Machine

/-- One atomic step of one agent (20_memory.md R65, R71): the one that stands first in `agenda`. -/
def step (s : State) : Host.Outcome State Fault Refusal := stepOf s

/-- `s` with the command word of a table row written to `CMD` by the very next step. The block fetches nothing: its
program is what the HOST writes to `CMD` (10_state.md R21). -/
def State.withFetchWord (s : State) (nbits w : Nat) : State := placeCommand s nbits w

end Sys2Proof.Machine
end

