-- ==== Sys2Proof/Machine/Env.lean ====
section
/-! DEFINITION. ENV's reference contract for a HandlerCall (43_framer.md R172). It is not block behaviour: no step calls
it (log entry 17). Only the SetPin row is the source's. -/

namespace Sys2Proof.Machine

/-- The level of a pin. -/
inductive PinLevel where
  | reset | set
  deriving DecidableEq, Repr

/-- The other level. -/
def PinLevel.opposite : PinLevel → PinLevel
  | .reset => .set
  | .set => .reset

/-- A call of the GPIO collaborator. -/
inductive GpioCall where
  | setValue (port pin : Word) (v : PinLevel)
  | getValue (port pin : Word)
  deriving DecidableEq, Repr

/-- The GPIO calls ENV makes for a HandlerCall with message `m`, when a `get_value` it makes answers `v`
(43_framer.md R172). A message of identifier 4 is never handed over (R166). -/
def handlerContract (m : Message) (v : PinLevel) : List GpioCall :=
  match m with
  | .resetPin port pin => [.setValue port pin .reset]
  | .readPin port pin => [.getValue port pin]
  | .setPin port pin => [.setValue port pin .set]
  | .togglePin port pin => [.getValue port pin, .setValue port pin v.opposite]
  | .pinValue _ _ _ => []

/-- The response the HOST sends back for a ReadPin, a PinValue with the value read (43_framer.md R172). -/
def readPinResponse (m : Message) (v : Word) : Option Message :=
  match m with
  | .readPin port pin => some (.pinValue port pin v)
  | _ => none

end Sys2Proof.Machine
end

