-- ==== Sys2Proof/Safety.lean ====
section
/-! DEFINITION. What counts as a safe run, in the terms claims use: a fault-free state (60_exceptions.md R192), the
invariants of 10_state.md R28 to R33, executions of the agents under every interleaving (20_memory.md R71), and the
fairness a claim of progress may assume (60_exceptions.md R197). -/

namespace Sys2Proof.Machine

/-- A valid state of a run: no fault was recorded (60_exceptions.md R192). -/
def FaultFree (s : State) : Prop := s.faults = []

/-- The blocking command in progress holds the transmit direction of channel `i` (10_state.md R32). -/
def CmdState.holdsTx (c : CmdState) (i : Engine) : Bool :=
  match c with
  | .sendByte j _ _ => decide (j = i)
  | .sendFrame j _ _ _ _ _ => decide (j = i)
  | .getByte _ _ => false
  | .idle => false

/-- The blocking command in progress holds the receive direction of channel `i` (10_state.md R32). -/
def CmdState.holdsRx (c : CmdState) (i : Engine) : Bool :=
  match c with
  | .getByte j _ => decide (j = i)
  | .sendByte _ _ _ => false
  | .sendFrame _ _ _ _ _ _ => false
  | .idle => false

/-- A blocking command in progress is on a channel that exists, has made fewer than `SPIN_BOUND` polls for its byte, and
SEND_FRAME has a byte of its frame left (41_transfer_engine.md R131, R132; 43_framer.md R168). -/
def CmdState.inProgress (p : Params) : CmdState → Prop
  | .idle => True
  | .sendByte i _ k => i.val < p.numChannels ∧ k < p.spinBound
  | .getByte i k => i.val < p.numChannels ∧ k < p.spinBound
  | .sendFrame i _ _ len pos k => i.val < p.numChannels ∧ k < p.spinBound ∧ pos < p.hdrLen + len.toNat

/-- What holds of a channel's storage in every reachable state, fault or not. -/
structure ChannelBounds (p : Params) (c : Channel) : Prop where
  /-- "lists of bytes of length at most `TX_FIFO_DEPTH`" (10_state.md R32). -/
  txFits : c.txf.length ≤ p.txDepth
  /-- And at most `RX_FIFO_DEPTH` (10_state.md R32). -/
  rxFits : c.rxf.length ≤ p.rxDepth
  /-- `BRR` bits [31:16] are zero (10_state.md R26). -/
  brrHigh : c.brr.extractLsb' 16 16 = 0#16
  /-- An initialised channel has a mantissa of 1 to `MANT_MAX` (10_state.md R26). -/
  brrMant : c.cr.ue = true → 1 ≤ (c.brr.extractLsb' 4 12).toNat ∧ (c.brr.extractLsb' 4 12).toNat ≤ p.mantMax
  /-- Under 8x oversampling `BRR` bit 3 is 0 (10_state.md R26). -/
  brrFrac : c.cr.over8 = true → c.brr.getLsbD 3 = false
  /-- "CB = 2 is only ever set on a receive descriptor" (41_transfer_engine.md R128). -/
  txCallback : c.txd.cb ≠ .framer

/-- What holds in every reachable state, fault or not. -/
structure Bounded (s : State) : Prop where
  params : s.par.wf
  memory : s.mem.wf
  channels : ∀ i, ChannelBounds s.par (s.chan i)
  /-- Bits of absent channels and bits 18 to 31 are zero (10_state.md R29). -/
  irqStatus : s.irqStatus &&& ~~~irqMask s.par = 0#32
  irqEnable : s.irqEnable &&& ~~~irqMask s.par = 0#32
  /-- `RDATA` bits [31:8] are zero (10_state.md R20). -/
  rdata : s.rdata.toNat < 256
  /-- `RESULT` never holds a code of the parser (60_exceptions.md R190, R191). -/
  result : s.result ≠ .decodeFailure ∧ s.result ≠ .unmappedId
  /-- "The frame parser writes only OK, DecodeFailure and UnmappedId" (60_exceptions.md R191). -/
  lastResult : s.fr.lastResult = .ok ∨ s.fr.lastResult = .decodeFailure ∨ s.fr.lastResult = .unmappedId
  /-- The parser receives on a channel that exists (10_state.md R30). -/
  parserChannel : s.fr.ch.val < s.par.numChannels
  command : s.cmdState.inProgress s.par
  /-- The fault set holds no fault twice (60_exceptions.md R192). -/
  faultSet : s.faults.Nodup

/-- What the invariants of 10_state.md R33 say of channel `i` of a fault-free state. -/
structure ChannelLinked (s : State) (i : Engine) : Prop where
  /-- (I1) -/
  txSource : (s.chan i).cr.txeie = true ↔ (s.chan i).txd.state = .busy ∧ (s.chan i).txd.mode = .async
  /-- (I2) -/
  rxSource : (s.chan i).cr.rxneie = true ↔ (s.chan i).rxd.state = .busy ∧ (s.chan i).rxd.mode = .async
  /-- (I3), transmit: `LEN >= 1` and `CUR <= LEN`. -/
  txCursor : (s.chan i).txd.state = .busy → (s.chan i).txd.mode = .async →
    1#32 ≤ (s.chan i).txd.len ∧ (s.chan i).txd.cur ≤ (s.chan i).txd.len
  /-- (I3), receive: `CUR < LEN`, so `LEN >= 1`. -/
  rxCursor : (s.chan i).rxd.state = .busy → (s.chan i).rxd.mode = .async → (s.chan i).rxd.cur < (s.chan i).rxd.len
  /-- (I4), transmit; and a blocking command leaves the cursor it found, 0. -/
  txReady : (s.chan i).txd.state = .ready → (s.chan i).txd.mode = .async
  txRest : (s.chan i).cr.txeie = false → (s.chan i).txd.cur = 0#32
  /-- (I4), receive. -/
  rxReady : (s.chan i).rxd.state = .ready → (s.chan i).rxd.mode = .async
  rxRest : (s.chan i).cr.rxneie = false → (s.chan i).rxd.cur = 0#32
  /-- (I6), transmit: Blocking exactly while `CMDSTATE` names the channel and direction. -/
  txHeld : (s.chan i).txd.mode = .blocking ↔ s.cmdState.holdsTx i = true
  /-- (I6), receive. -/
  rxHeld : (s.chan i).rxd.mode = .blocking ↔ s.cmdState.holdsRx i = true
  /-- An armed buffer does not leave the address space (20_memory.md R64). -/
  txRange : (s.chan i).cr.txeie = true → (s.chan i).txd.addr.toNat + (s.chan i).txd.len.toNat ≤ 2 ^ 32
  rxRange : (s.chan i).cr.rxneie = true → (s.chan i).rxd.addr.toNat + (s.chan i).rxd.len.toNat ≤ 2 ^ 32
  /-- "Arm is the only place CB = 2 is set" (43_framer.md R162), so only the started parser's channel has it. -/
  parserOnly : (s.chan i).rxd.cb = .framer → s.fr.active = true ∧ i = s.fr.ch

/-- (I5) of 10_state.md R33: the started parser's receive is armed. -/
def ParserArmed (s : State) : Prop :=
  s.fr.active = true →
    (s.chan s.fr.ch).rxd.state = .busy ∧ (s.chan s.fr.ch).rxd.mode = .async ∧ (s.chan s.fr.ch).rxd.cb = .framer

/-- The buffer the started parser's receive is armed for: the header's in HeaderWait, and in PayloadWait as much of the
payload buffer as the header declared (43_framer.md R161, R164, R165). Both lie in the address space. -/
structure ParserBuffers (s : State) : Prop where
  header : s.fr.hdrAddr.toNat + s.par.hdrLen ≤ 2 ^ 32
  payload : s.fr.payAddr.toNat + s.fr.payCap.toNat ≤ 2 ^ 32
  inHeaderWait : s.fr.state = .headerWait →
    (s.chan s.fr.ch).rxd.addr = s.fr.hdrAddr ∧ (s.chan s.fr.ch).rxd.len.toNat = s.par.hdrLen
  inPayloadWait : s.fr.state = .payloadWait →
    (s.chan s.fr.ch).rxd.addr = s.fr.payAddr ∧ (s.chan s.fr.ch).rxd.len = s.fr.lastLen ∧ s.fr.lastLen ≤ s.fr.payCap

/-- The invariants of 10_state.md R33 in a fault-free state. -/
structure Linked (s : State) : Prop where
  channels : ∀ i, ChannelLinked s i
  parser : ParserArmed s
  buffers : s.fr.active = true → ParserBuffers s

/-- The machine's invariant: the bounds in every state, the invariants of 10_state.md R33 in every fault-free one. A
fault leaves a step half done (60_exceptions.md R192), so R33 is no claim about the states after one. -/
structure Inv (s : State) : Prop where
  bounded : Bounded s
  linked : FaultFree s → Linked s

/-! ### Steps and what they leave -/

/-- From `s` the pending step `a` is taken, and leaves `t`. -/
def Takes (s : State) (a : Action) (t : State) : Prop := ∃ rest, s.agenda = a :: rest ∧ step s = .next t

/-- What no command writes: parameters, system memory byte by byte, operands, `RDATA`, the interrupt registers, the fault
set, and what the HOST and the agents hold. -/
structure CommandFrame (s t : State) : Prop where
  par : t.par = s.par
  memory : ∀ a, t.mem.read a = s.mem.read a
  arg0 : t.arg0 = s.arg0
  arg1 : t.arg1 = s.arg1
  arg2 : t.arg2 = s.arg2
  rdata : t.rdata = s.rdata
  irqStatus : t.irqStatus = s.irqStatus
  irqEnable : t.irqEnable = s.irqEnable
  faults : t.faults = s.faults
  hostData : t.hostData = s.hostData
  agenda : t.agenda = s.agenda

/-- Every channel but `i` is as it was. -/
def OtherChannels (i : Engine) (s t : State) : Prop := ∀ j, j ≠ i → t.chan j = s.chan j

/-- `t` is `s` after a command that ended with `code` and had no effect but `RESULT` and its `CmdDone` event
(41_transfer_engine.md R123). -/
def OnlyReports (op : CmdOp) (code : ResultCode) (s t : State) : Prop :=
  t = { s with result := code, events := s.events ++ [.cmdDone op code] }

/-- The fault set of `t` is that of `s` with `f` in it (60_exceptions.md R192). -/
def Records (f : ModelFault) (s t : State) : Prop := ∀ g, g ∈ t.faults ↔ g ∈ s.faults ∨ g = f

/-- `t` is `s` with the fault `f` recorded, and nothing else done. -/
def OnlyFaults (f : ModelFault) (s t : State) : Prop := t = { s with faults := t.faults } ∧ Records f s t

/-- The command of an instruction, as a `CmdDone` event names it. -/
def opOf : Instr → CmdOp
  | .init _ _ => .init
  | .submitSend _ _ => .submitSend
  | .submitRecv _ _ => .submitRecv
  | .sendByte _ _ => .sendByte
  | .getByte _ => .getByte
  | .framerStart _ => .framerStart
  | .sendFrame _ => .sendFrame

/-- In `s` the instruction ends at once with `code` and no other effect. -/
def EndsAtOnce (i : Instr) (code : ResultCode) (s : State) : Prop :=
  ∃ t, exec i s = .next t ∧ OnlyReports (opOf i) code s t

/-- `t` is reached from `s` by a command that ended with OK: the result and its event, `FR` and `CMDSTATE` as they were,
and of the channels only `i` touched. What became of channel `i` a claim says itself. -/
structure EndsOk (i : Engine) (op : CmdOp) (s t : State) : Prop where
  frame : CommandFrame s t
  others : OtherChannels i s t
  result : t.result = .ok
  events : t.events = s.events ++ [.cmdDone op .ok]
  fr : t.fr = s.fr
  cmdState : t.cmdState = s.cmdState

/-- `t` is reached from `s` by the start step of a blocking command on channel `i`: the command is in progress, and no
result or event is written yet. -/
structure Starts (i : Engine) (c : CmdState) (s t : State) : Prop where
  frame : CommandFrame s t
  others : OtherChannels i s t
  result : t.result = s.result
  events : t.events = s.events
  fr : t.fr = s.fr
  cmdState : t.cmdState = c

/-- `n` steps of the machine. -/
def runFor (n : Nat) (s : State) : Host.Outcome State Fault Refusal := Sys2Proof.core.run n s

/-- What a service invocation never writes: parameters, operands, `RESULT`, `RDATA`, `IRQ_ENABLE`, `CMDSTATE`, and what
the HOST and the agents hold. -/
structure ServiceFrame (s t : State) : Prop where
  par : t.par = s.par
  arg0 : t.arg0 = s.arg0
  arg1 : t.arg1 = s.arg1
  arg2 : t.arg2 = s.arg2
  result : t.result = s.result
  rdata : t.rdata = s.rdata
  irqEnable : t.irqEnable = s.irqEnable
  cmdState : t.cmdState = s.cmdState
  hostData : t.hostData = s.hostData
  agenda : t.agenda = s.agenda

/-- What the transmit branch of an invocation of channel `i` leaves of the channel and of `IRQ_STATUS`, where its read, if
it makes one, is admitted: nothing done, one byte moved, or the completion (41_transfer_engine.md R126, R128). -/
inductive TransmitLeaves (i : Engine) (s : State) : Channel → Word → Prop
  | nothing (h : s.par.txDepth ≤ (s.chan i).txf.length ∨ (s.chan i).cr.txeie = false) :
    TransmitLeaves i s (s.chan i) s.irqStatus
  | moved (room : (s.chan i).txf.length < s.par.txDepth) (source : (s.chan i).cr.txeie = true)
      (left : (s.chan i).txd.cur < (s.chan i).txd.len)
      (admitted : readAdmitted s.par (s.chan i).txd.cursorAddr = true) :
    TransmitLeaves i s
      { s.chan i with
        txd := { (s.chan i).txd with cur := (s.chan i).txd.cur + 1#32 }
        txf := (s.chan i).txf ++ [s.mem.read ((s.chan i).txd.addr.toNat + (s.chan i).txd.cur.toNat)] }
      s.irqStatus
  | completed (room : (s.chan i).txf.length < s.par.txDepth) (source : (s.chan i).cr.txeie = true)
      (done : (s.chan i).txd.len ≤ (s.chan i).txd.cur) (callback : (s.chan i).txd.cb ≠ .framer) :
    TransmitLeaves i s
      { s.chan i with
        cr := { (s.chan i).cr with txeie := false }
        txd := { (s.chan i).txd with state := .ready, cur := 0#32 } }
      (if (s.chan i).txd.cb = .host then s.irqStatus ||| (1#32 <<< (2 * i.val)) else s.irqStatus)

/-- The bytes channel `i` has put on its wire, oldest first (40_serial_fifo.md R103). -/
def wireBytes (i : Engine) (events : List Event) : List Byte :=
  events.filterMap fun e =>
    match e with
    | .wireOut j b => if j = i then some b else none
    | .wireIn _ _ _ => none
    | .handlerCall _ _ => none
    | .cmdDone _ _ => none

/-- The bytes of a buffer of `n` bytes at address `a`. -/
def bufferBytes (m : Memory) (a n : Nat) : List Byte := (List.range n).map fun k => m.read (a + k)

/-- The schedule that gives each byte of a frame one poll and one line transmit step. -/
def pollAndSend (i : Engine) (n : Nat) : List Action := (List.replicate n [.poll, .lineTx i]).flatten

/-- The schedule that gives each byte of a transmit one line transmit step and one service invocation. -/
def sendAndServe (i : Engine) (n : Nat) : List Action := (List.replicate n [.lineTx i, .svc i]).flatten

/-- The schedule in which each byte arrives and is then served. -/
def arriveAndServe (i : Engine) (bytes : List Byte) : List Action := (bytes.map fun b => [.lineRx i b, .svc i]).flatten

/-! ### Executions and fairness -/

/-- An execution: at each point one agent takes one step (20_memory.md R71). What `agenda` lists is what the run does, so
it is left out of account here. -/
def IsRun (run : Nat → State) (acts : Nat → Action) : Prop := ∀ n, act (acts n) (run n) = .next (run (n + 1))

/-- Weak fairness on the SEQ: "a channel whose `ServiceRequest` stays true is eventually granted"
(60_exceptions.md R197). -/
def FairSeq (run : Nat → State) (acts : Nat → Action) (i : Engine) : Prop :=
  ∀ n, (∀ m, n ≤ m → serviceRequest (run m) i = true) → ∃ m, n ≤ m ∧ acts m = .svc i

/-- LINE[i]'s transmit step is enabled (40_serial_fifo.md R103). -/
def lineTxEnabled (s : State) (i : Engine) : Bool := lineTxActive s i && !tc s i

/-- Weak fairness on LINE[i]'s transmit step: "an enabled transmit step is eventually taken" (60_exceptions.md R197). -/
def FairLineTx (run : Nat → State) (acts : Nat → Action) (i : Engine) : Prop :=
  ∀ n, (∀ m, n ≤ m → lineTxEnabled (run m) i = true) → ∃ m, n ≤ m ∧ acts m = .lineTx i

end Sys2Proof.Machine
end

