-- ==== Sys2Proof/Certificates/Slice0/Obligations.lean ====
section
/-! DEFINITION. The statements for the provers. Each docstring names the rules of spec/ the statement formalises. -/

open Sys2Proof Sys2Proof.Machine

/-! ### Command words -/

/-- O1 (30_encoding.md R80, R81, R89): decoding the word of a well-formed command gives the command back, as a word and as
an opcode-table word. -/
def Obligations.DecodeOfEncodeIsTheInstruction : Prop :=
  ∀ i : Instr, i.wellFormed = true → decode (encode i) = .ok i ∧ decodeTableWord 32 (encode i).toNat = some i

/-- O2 (30_encoding.md R81, R84): a word that decodes is the encoding of a well-formed command, so no bit of it is
ignored. -/
def Obligations.EncodeOfDecodeIsTheWord : Prop :=
  ∀ (w : Word) (i : Instr), decode w = .ok i → i.wellFormed = true ∧ encode i = w

/-- O3 (30_encoding.md R82): a word selects the row of the opcode map whose match it has under its mask, and the reserved
`OP` values select none. -/
def Obligations.WordSelectsItsTableRow : Prop :=
  (∀ (op : CmdOp) (m k : Word),
    (op, m, k) ∈
      [(CmdOp.init, 0x00000001#32, 0xFFFFFE0F#32), (.submitSend, 0x00000002#32, 0xFFFFFE0F#32),
        (.submitRecv, 0x00000003#32, 0xFFFFFE0F#32), (.sendByte, 0x00000004#32, 0xFF00FF0F#32),
        (.getByte, 0x00000005#32, 0xFFFFFF0F#32), (.framerStart, 0x00000006#32, 0xFFFFFF0F#32),
        (.sendFrame, 0x00000007#32, 0xFFFFFF0F#32)] →
    ∀ w : Word, w &&& k = m ↔ ∃ i, decode w = .ok i ∧ opOf i = op) ∧
  ∀ w : Word, (w &&& 0xF#32 = 0#32 ∨ 8#32 ≤ w &&& 0xF#32) → ∃ op, decode w = .error (.reservedOpcode op)

/-- O4 (30_encoding.md R89, 95_test_vectors.md 2.1): words written out from the formats of R81 decode to the commands they
stand for. -/
def Obligations.VectorWordsDecode : Prop :=
  decode 0x00000101#32 = .ok (.init 0 true) ∧ decode 0x00000112#32 = .ok (.submitSend 1 true) ∧
  decode 0x00000003#32 = .ok (.submitRecv 0 false) ∧ decode 0x00410004#32 = .ok (.sendByte 0 0x41#8) ∧
  decode 0x00000025#32 = .ok (.getByte 2) ∧ decode 0x00000016#32 = .ok (.framerStart 1) ∧
  decode 0x000000F7#32 = .ok (.sendFrame 15)

/-- O5 (30_encoding.md R84, R85): an illegal word written to `CMD` does nothing but report InvalidArgument. -/
def Obligations.IllegalWordOnlyReportsInvalidArgument : Prop :=
  ∀ (s : State) (w : Word) (rest : List Action),
    s.agenda = cmdWrite w :: rest → s.cmdState = .idle →
    ((w &&& 0xF#32 = 0#32 ∨ 8#32 ≤ w &&& 0xF#32) ∨
      ((w &&& 0xF#32 = 1#32 ∨ w &&& 0xF#32 = 2#32 ∨ w &&& 0xF#32 = 3#32) ∧ w &&& 0xFFFFFE00#32 ≠ 0#32) ∨
      (w &&& 0xF#32 = 4#32 ∧ w &&& 0xFF00FF00#32 ≠ 0#32) ∨
      ((w &&& 0xF#32 = 5#32 ∨ w &&& 0xF#32 = 6#32 ∨ w &&& 0xF#32 = 7#32) ∧ w &&& 0xFFFFFF00#32 ≠ 0#32)) →
    ∃ t, step s = .next t ∧ OnlyReports .illegal .invalidArgument { s with agenda := rest } t

/-- O6 (30_encoding.md R88): where the pending step is the HOST's write of a command word to `CMD` and no blocking command
is in progress, the step runs the command the word decodes to. The word `withFetchWord` places is run by the very next
step. That a step is taken from `agenda` is the model's own (log entry 1). -/
def Obligations.StepRunsTheDecodedCommand : Prop :=
  (∀ (s : State) (w : Word) (rest : List Action) (i : Instr),
    s.agenda = cmdWrite w :: rest → s.cmdState = .idle → decode w = .ok i →
    step s = exec i { s with agenda := rest }) ∧
  ∀ (s : State) (i : Instr), i.wellFormed = true →
    step (s.withFetchWord 32 (encode i).toNat) = exec i { s with cmdState := .idle }

/-- O7 (41_transfer_engine.md, 42_channel_registry.md, 43_framer.md; 30_encoding.md R86): every command takes a step in
every state, whatever its operands. -/
def Obligations.EveryCommandTakesAStep : Prop := ∀ (i : Instr) (s : State), ∃ t, exec i s = .next t

/-- O8 (41_transfer_engine.md R123): a command's step that ends it with a result other than OK changes nothing but
`RESULT` and the event history. -/
def Obligations.FailedCommandChangesOnlyItsResult : Prop :=
  ∀ (i : Instr) (s t : State) (op : CmdOp) (code : ResultCode),
    exec i s = .next t → t.events = s.events ++ [.cmdDone op code] → code ≠ .ok → OnlyReports op code s t

/-- O9 (30_encoding.md R83; 10_state.md R22, R29; 20_memory.md R60): a command's step leaves the operands, `RDATA`, the
interrupt registers and every byte of memory as they were, and every channel that its channel id does not map to. Only
FRAMER_START writes `FR`, and only the blocking commands set `CMDSTATE`. -/
def Obligations.CommandFrameHolds : Prop :=
  ∀ (i : Instr) (s t : State), exec i s = .next t →
    (∀ a, t.mem.read a = s.mem.read a) ∧ t.par = s.par ∧ t.arg0 = s.arg0 ∧ t.arg1 = s.arg1 ∧ t.arg2 = s.arg2 ∧
    t.rdata = s.rdata ∧ t.irqStatus = s.irqStatus ∧ t.irqEnable = s.irqEnable ∧ t.hostData = s.hostData ∧
    t.agenda = s.agenda ∧ (∀ j, chanMap s.par i.ch ≠ some j → t.chan j = s.chan j) ∧
    (opOf i ≠ .framerStart → t.fr = s.fr) ∧
    (opOf i ≠ .sendByte → opOf i ≠ .getByte → opOf i ≠ .sendFrame → t.cmdState = s.cmdState)

/-! ### INIT -/

/-- O10 (42_channel_registry.md R152): the divisor is the ceiling of clock over baud, split into a mantissa and a fraction
in units of 1/16 (or 1/8), and an error where the baud is 0 or the mantissa is not in 1 to MANT_MAX. -/
def Obligations.BaudDivisorIsCeilingOfClockOverBaud : Prop :=
  ∀ (mantMax clk baud : Nat) (over8 : Bool),
    (baud = 0 → baudDivisor mantMax clk baud over8 = none) ∧
    (0 < baud →
      let S := if over8 then 8 else 16
      let q := (clk + baud - 1) / baud
      baudDivisor mantMax clk baud over8 =
        if 1 ≤ q / S ∧ q / S ≤ mantMax then some (q / S, q % S) else none)

/-- O11 (42_channel_registry.md R151, R153): INIT of a mapped channel, with a divisor and no running transfer, programs
`BRR`, `OVER8` and `UE`, and nothing else of the channel. The first INIT (`UE = 0`) is never Busy. -/
def Obligations.InitProgramsTheChannel : Prop :=
  ∀ (s : State) (ch : Nat) (over8 : Bool) (i : Engine) (mant frac : Nat),
    s.par.mantMax ≤ 4095 → chanMap s.par ch = some i →
    baudDivisor s.par.mantMax s.par.coreClock s.arg0.toNat over8 = some (mant, frac) →
    ((s.chan i).cr.ue = true → (s.chan i).txd.state = .ready ∧ (s.chan i).rxd.state = .ready) →
    ∃ t, exec (.init ch over8) s = .next t ∧ EndsOk i .init s t ∧
      ((t.chan i).brr.extractLsb' 4 12).toNat = mant ∧ ((t.chan i).brr.extractLsb' 0 4).toNat = frac ∧
      (t.chan i).brr.extractLsb' 16 16 = 0#16 ∧
      t.chan i =
        { s.chan i with
          brr := (t.chan i).brr
          cr := { (s.chan i).cr with ue := true, over8 := over8 } }

/-- O12 (42_channel_registry.md R151, 60_exceptions.md R193): INIT's failures, in their order: an unmapped channel, a
divisor out of range, a re-INIT of a channel with a descriptor Busy. -/
def Obligations.InitRejectsInOrder : Prop :=
  ∀ (s : State) (ch : Nat) (over8 : Bool),
    (chanMap s.par ch = none → EndsAtOnce (.init ch over8) .invalidChannel s) ∧
    ∀ i, chanMap s.par ch = some i →
      (baudDivisor s.par.mantMax s.par.coreClock s.arg0.toNat over8 = none →
        EndsAtOnce (.init ch over8) .invalidArgument s) ∧
      (baudDivisor s.par.mantMax s.par.coreClock s.arg0.toNat over8 ≠ none → (s.chan i).cr.ue = true →
        ((s.chan i).txd.state = .busy ∨ (s.chan i).rxd.state = .busy) → EndsAtOnce (.init ch over8) .busy s)

/-! ### Submits -/

/-- O13 (41_transfer_engine.md R120): SUBMIT_SEND and SUBMIT_RECV check their operands in one order, and the first failing
check gives the result; Busy comes after validation. -/
def Obligations.SubmitsValidateInOrder : Prop :=
  ∀ (s : State) (ch : Nat) (hostcb : Bool),
    (s.arg0 = 0#32 →
      EndsAtOnce (.submitSend ch hostcb) .nullReference s ∧ EndsAtOnce (.submitRecv ch hostcb) .nullReference s) ∧
    (s.arg0 ≠ 0#32 → chanMap s.par ch = none →
      EndsAtOnce (.submitSend ch hostcb) .invalidChannel s ∧ EndsAtOnce (.submitRecv ch hostcb) .invalidChannel s) ∧
    ∀ i, s.arg0 ≠ 0#32 → chanMap s.par ch = some i →
      ((s.arg1 = 0#32 ∨ 2 ^ 32 < s.arg0.toNat + s.arg1.toNat) →
        EndsAtOnce (.submitSend ch hostcb) .invalidArgument s ∧
          EndsAtOnce (.submitRecv ch hostcb) .invalidArgument s) ∧
      (s.arg1 ≠ 0#32 → s.arg0.toNat + s.arg1.toNat ≤ 2 ^ 32 →
        ((s.chan i).txd.state = .busy → EndsAtOnce (.submitSend ch hostcb) .busy s) ∧
          ((s.chan i).rxd.state = .busy → EndsAtOnce (.submitRecv ch hostcb) .busy s))

/-- O14 (41_transfer_engine.md R121): SUBMIT_SEND from Ready with valid operands populates the descriptor, enables the
transmitter and its interrupt source, and pushes the first byte, advancing the cursor to 1, exactly where the FIFO has
room. The byte must then be readable. -/
def Obligations.SubmitSendStartsTheTransfer : Prop :=
  ∀ (s : State) (ch : Nat) (hostcb : Bool) (i : Engine),
    chanMap s.par ch = some i → s.arg0 ≠ 0#32 → s.arg1 ≠ 0#32 → s.arg0.toNat + s.arg1.toNat ≤ 2 ^ 32 →
    (s.chan i).txd.state = .ready →
    ((s.chan i).txf.length < s.par.txDepth → readAdmitted s.par s.arg0.toNat = true) →
    ∃ t, exec (.submitSend ch hostcb) s = .next t ∧ EndsOk i .submitSend s t ∧
      t.chan i =
        { s.chan i with
          cr := { (s.chan i).cr with te := true, txeie := true }
          txd :=
            { addr := s.arg0, len := s.arg1
              cur := if (s.chan i).txf.length < s.par.txDepth then 1#32 else 0#32
              state := .busy, mode := .async, cb := if hostcb then .host else .none }
          txf :=
            (s.chan i).txf ++
              (if (s.chan i).txf.length < s.par.txDepth then [s.mem.read s.arg0.toNat] else []) }

/-- O15 (20_memory.md R66, 60_exceptions.md R192): where SUBMIT_SEND's read of the first byte is refused, the bus error is
recorded at its address and the rest of the command is not executed: nothing pushed, the interrupt source as it was, no
result. What was done before the read stays (log entry 6, DEDUCED). -/
def Obligations.SubmitSendOfARefusedByteFaults : Prop :=
  ∀ (s : State) (ch : Nat) (hostcb : Bool) (i : Engine),
    chanMap s.par ch = some i → s.arg0 ≠ 0#32 → s.arg1 ≠ 0#32 → s.arg0.toNat + s.arg1.toNat ≤ 2 ^ 32 →
    (s.chan i).txd.state = .ready → (s.chan i).txf.length < s.par.txDepth →
    readAdmitted s.par s.arg0.toNat = false →
    ∃ t, exec (.submitSend ch hostcb) s = .next t ∧ Records (.busError s.arg0.toNat) s t ∧
      t = { s with chans := t.chans, faults := t.faults } ∧ OtherChannels i s t ∧
      t.chan i =
        { s.chan i with
          cr := { (s.chan i).cr with te := true }
          txd :=
            { addr := s.arg0, len := s.arg1, cur := 0#32, state := .busy, mode := .async
              cb := if hostcb then .host else .none } }

/-- O16 (41_transfer_engine.md R122): SUBMIT_RECV from Ready with valid operands populates the descriptor and enables the
receiver and its interrupt source; the buffer is not written and the FIFO keeps its bytes. -/
def Obligations.SubmitRecvArmsTheReceive : Prop :=
  ∀ (s : State) (ch : Nat) (hostcb : Bool) (i : Engine),
    chanMap s.par ch = some i → s.arg0 ≠ 0#32 → s.arg1 ≠ 0#32 → s.arg0.toNat + s.arg1.toNat ≤ 2 ^ 32 →
    (s.chan i).rxd.state = .ready →
    ∃ t, exec (.submitRecv ch hostcb) s = .next t ∧ EndsOk i .submitRecv s t ∧
      t.chan i =
        { s.chan i with
          cr := { (s.chan i).cr with re := true, rxneie := true }
          rxd :=
            { addr := s.arg0, len := s.arg1, cur := 0#32, state := .busy, mode := .async
              cb := if hostcb then .host else .none } }

/-! ### Blocking single-byte commands -/

/-- O17 (41_transfer_engine.md R131): SEND_BYTE on a mapped channel whose transmit descriptor is Ready holds it Busy and
Blocking. A poll that finds room, whatever the number of polls made before it, pushes the byte, gives the descriptor back
and ends with OK. -/
def Obligations.SendByteDeliversItsByte : Prop :=
  (∀ (s : State) (ch : Nat) (data : Byte) (i : Engine),
    chanMap s.par ch = some i → (s.chan i).txd.state = .ready →
    ∃ t, exec (.sendByte ch data) s = .next t ∧ Starts i (.sendByte i data 0) s t ∧
      t.chan i =
        { s.chan i with
          cr := { (s.chan i).cr with te := true }
          txd := { (s.chan i).txd with state := .busy, mode := .blocking } }) ∧
  ∀ (s : State) (i : Engine) (data : Byte) (k : Nat),
    s.cmdState = .sendByte i data k → (s.chan i).txf.length < s.par.txDepth →
    ∃ t, act .poll s = .next t ∧ EndsOk i .sendByte { s with cmdState := .idle } t ∧
      t.chan i =
        { s.chan i with
          txd := { (s.chan i).txd with state := .ready, mode := .async }
          txf := (s.chan i).txf ++ [data] }

/-- O18 (41_transfer_engine.md R132): GET_BYTE on a mapped channel whose receive descriptor is Ready holds it Busy and
Blocking. A poll that finds a byte, whatever the number of polls made before it, returns the oldest one in `RDATA`,
zero-extended, gives the descriptor back and ends with OK. -/
def Obligations.GetByteReturnsTheOldestByte : Prop :=
  (∀ (s : State) (ch : Nat) (i : Engine),
    chanMap s.par ch = some i → (s.chan i).rxd.state = .ready →
    ∃ t, exec (.getByte ch) s = .next t ∧ Starts i (.getByte i 0) s t ∧
      t.chan i =
        { s.chan i with
          cr := { (s.chan i).cr with re := true }
          rxd := { (s.chan i).rxd with state := .busy, mode := .blocking } }) ∧
  ∀ (s : State) (i : Engine) (k : Nat) (b : Byte) (later : List Byte),
    s.cmdState = .getByte i k → (s.chan i).rxf = b :: later →
    ∃ t, act .poll s = .next t ∧ EndsOk i .getByte { s with cmdState := .idle, rdata := b.setWidth 32 } t ∧
      t.chan i =
        { s.chan i with
          rxd := { (s.chan i).rxd with state := .ready, mode := .async }
          rxf := later }

/-- O19 (41_transfer_engine.md R131, R132): the failures of the start steps, in their order: an unmapped channel, then
Busy. -/
def Obligations.ByteCommandsRejectInOrder : Prop :=
  ∀ (s : State) (ch : Nat) (data : Byte),
    (chanMap s.par ch = none →
      EndsAtOnce (.sendByte ch data) .invalidChannel s ∧ EndsAtOnce (.getByte ch) .invalidChannel s) ∧
    ∀ i, chanMap s.par ch = some i →
      ((s.chan i).txd.state = .busy → EndsAtOnce (.sendByte ch data) .busy s) ∧
        ((s.chan i).rxd.state = .busy → EndsAtOnce (.getByte ch) .busy s)

/-- O20 (41_transfer_engine.md R130, R131): a SEND_BYTE poll that finds the FIFO full counts one more poll, or, as poll
number `SPIN_BOUND`, ends with Timeout: the byte is not sent, `TE` stays, and the descriptor is Ready. So a SEND_BYTE
whose polls stand back to back in the agenda (log entry 1) and find the FIFO full is still in progress after every smaller
number of them, and ends with Timeout after exactly `SPIN_BOUND`. -/
def Obligations.SendByteTimesOutAfterSpinBound : Prop :=
  (∀ (s : State) (i : Engine) (data : Byte) (k : Nat),
    s.cmdState = .sendByte i data k → s.par.txDepth ≤ (s.chan i).txf.length →
    (k + 1 ≠ s.par.spinBound → act .poll s = .next { s with cmdState := .sendByte i data (k + 1) }) ∧
    (k + 1 = s.par.spinBound →
      ∃ t, act .poll s = .next t ∧ OtherChannels i s t ∧
        t =
          { s with
            result := .timeout, events := s.events ++ [.cmdDone .sendByte .timeout], cmdState := .idle
            chans := t.chans } ∧
        t.chan i = { s.chan i with txd := { (s.chan i).txd with state := .ready, mode := .async } })) ∧
  ∀ (s : State) (i : Engine) (data : Byte) (rest : List Action),
    1 ≤ s.par.spinBound → s.cmdState = .sendByte i data 0 → s.par.txDepth ≤ (s.chan i).txf.length →
    s.agenda = List.replicate s.par.spinBound .poll ++ rest →
    (∀ k, k < s.par.spinBound →
      ∃ t, runFor k s = .next t ∧ t.cmdState = .sendByte i data k ∧ t.events = s.events ∧ t.chan i = s.chan i) ∧
    ∃ t, runFor s.par.spinBound s = .next t ∧ OtherChannels i s t ∧
      t =
        { s with
          result := .timeout, events := s.events ++ [.cmdDone .sendByte .timeout], cmdState := .idle
          chans := t.chans, agenda := rest } ∧
      t.chan i = { s.chan i with txd := { (s.chan i).txd with state := .ready, mode := .async } }

/-- O21 (41_transfer_engine.md R130, R132): a GET_BYTE poll that finds no byte counts one more poll, or, as poll number
`SPIN_BOUND`, ends with Timeout: `RDATA` keeps its value, `RE` stays, and the descriptor is Ready. So a GET_BYTE whose
polls stand back to back in the agenda (log entry 1) and find no byte is still in progress after every smaller number of
them, and ends with Timeout after exactly `SPIN_BOUND`. -/
def Obligations.GetByteTimesOutAfterSpinBound : Prop :=
  (∀ (s : State) (i : Engine) (k : Nat),
    s.cmdState = .getByte i k → (s.chan i).rxf = [] →
    (k + 1 ≠ s.par.spinBound → act .poll s = .next { s with cmdState := .getByte i (k + 1) }) ∧
    (k + 1 = s.par.spinBound →
      ∃ t, act .poll s = .next t ∧ OtherChannels i s t ∧
        t =
          { s with
            result := .timeout, events := s.events ++ [.cmdDone .getByte .timeout], cmdState := .idle
            chans := t.chans } ∧
        t.chan i = { s.chan i with rxd := { (s.chan i).rxd with state := .ready, mode := .async } })) ∧
  ∀ (s : State) (i : Engine) (rest : List Action),
    1 ≤ s.par.spinBound → s.cmdState = .getByte i 0 → (s.chan i).rxf = [] →
    s.agenda = List.replicate s.par.spinBound .poll ++ rest →
    (∀ k, k < s.par.spinBound →
      ∃ t, runFor k s = .next t ∧ t.cmdState = .getByte i k ∧ t.events = s.events ∧ t.chan i = s.chan i) ∧
    ∃ t, runFor s.par.spinBound s = .next t ∧ OtherChannels i s t ∧
      t =
        { s with
          result := .timeout, events := s.events ++ [.cmdDone .getByte .timeout], cmdState := .idle
          chans := t.chans, agenda := rest } ∧
      t.chan i = { s.chan i with rxd := { (s.chan i).rxd with state := .ready, mode := .async } }

/-! ### The frame parser's commands -/

/-- O22 (43_framer.md R161, R162): FRAMER_START with valid buffers, the parser not started and the receive descriptor
Ready, records the buffers in `FR`, starts in HeaderWait and arms a receive of `HDR_LEN` bytes with CB = 2. `LAST_ID`,
`LAST_LEN` and `LAST_RESULT` are not changed. -/
def Obligations.FramerStartArmsTheHeader : Prop :=
  ∀ (s : State) (ch : Nat) (i : Engine),
    s.arg0 ≠ 0#32 → s.arg1 ≠ 0#32 → chanMap s.par ch = some i → s.arg2 ≠ 0#32 →
    s.arg0.toNat + s.par.hdrLen ≤ 2 ^ 32 → s.arg1.toNat + s.arg2.toNat ≤ 2 ^ 32 →
    (s.arg0.toNat + s.par.hdrLen ≤ s.arg1.toNat ∨ s.arg1.toNat + s.arg2.toNat ≤ s.arg0.toNat) →
    s.fr.active = false → (s.chan i).rxd.state = .ready →
    ∃ t, exec (.framerStart ch) s = .next t ∧ CommandFrame s t ∧ OtherChannels i s t ∧ t.result = .ok ∧
      t.events = s.events ++ [.cmdDone .framerStart .ok] ∧ t.cmdState = s.cmdState ∧
      t.fr =
        { s.fr with
          active := true, state := .headerWait, ch := i, hdrAddr := s.arg0, payAddr := s.arg1, payCap := s.arg2 } ∧
      t.chan i =
        { s.chan i with
          cr := { (s.chan i).cr with re := true, rxneie := true }
          rxd :=
            { addr := s.arg0, len := BitVec.ofNat 32 s.par.hdrLen, cur := 0#32, state := .busy, mode := .async
              cb := .framer } }

/-- O23 (43_framer.md R161, 60_exceptions.md R193): FRAMER_START's failures, in their order: an absent buffer, an unmapped
channel, a bad capacity, range or overlap, then a started parser or a Busy receive descriptor. -/
def Obligations.FramerStartRejectsInOrder : Prop :=
  ∀ (s : State) (ch : Nat), 1 ≤ s.par.hdrLen →
    ((s.arg0 = 0#32 ∨ s.arg1 = 0#32) → EndsAtOnce (.framerStart ch) .nullReference s) ∧
    (s.arg0 ≠ 0#32 → s.arg1 ≠ 0#32 → chanMap s.par ch = none → EndsAtOnce (.framerStart ch) .invalidChannel s) ∧
    ∀ i, s.arg0 ≠ 0#32 → s.arg1 ≠ 0#32 → chanMap s.par ch = some i →
      ((s.arg2 = 0#32 ∨ 2 ^ 32 < s.arg0.toNat + s.par.hdrLen ∨ 2 ^ 32 < s.arg1.toNat + s.arg2.toNat ∨
          ∃ a, (s.arg0.toNat ≤ a ∧ a < s.arg0.toNat + s.par.hdrLen) ∧ s.arg1.toNat ≤ a ∧
            a < s.arg1.toNat + s.arg2.toNat) →
        EndsAtOnce (.framerStart ch) .invalidArgument s) ∧
      (s.arg2 ≠ 0#32 → s.arg0.toNat + s.par.hdrLen ≤ 2 ^ 32 → s.arg1.toNat + s.arg2.toNat ≤ 2 ^ 32 →
        (s.arg0.toNat + s.par.hdrLen ≤ s.arg1.toNat ∨ s.arg1.toNat + s.arg2.toNat ≤ s.arg0.toNat) →
        (s.fr.active = true ∨ (s.chan i).rxd.state = .busy) → EndsAtOnce (.framerStart ch) .busy s)

/-- O24 (43_framer.md R168): SEND_FRAME with valid operands and the transmit descriptor Ready encodes the header from the
identifier in `ARG2` and the length in `ARG1`, and holds the descriptor Busy and Blocking; with length 0 the payload
address may be 0. -/
def Obligations.SendFrameStarts : Prop :=
  ∀ (s : State) (ch : Nat) (i : Engine),
    (s.arg0 ≠ 0#32 ∨ s.arg1 = 0#32) → chanMap s.par ch = some i → s.arg0.toNat + s.arg1.toNat ≤ 2 ^ 32 →
    (s.chan i).txd.state = .ready →
    ∃ t, exec (.sendFrame ch) s = .next t ∧
      Starts i (.sendFrame i (headerEncode s.par s.arg2 s.arg1) s.arg0 s.arg1 0 0) s t ∧
      t.chan i =
        { s.chan i with
          cr := { (s.chan i).cr with te := true }
          txd := { (s.chan i).txd with state := .busy, mode := .blocking } }

/-- O25 (43_framer.md R168, 60_exceptions.md R193): SEND_FRAME's failures, in their order. -/
def Obligations.SendFrameRejectsInOrder : Prop :=
  ∀ (s : State) (ch : Nat),
    (s.arg0 = 0#32 → s.arg1 ≠ 0#32 → EndsAtOnce (.sendFrame ch) .nullReference s) ∧
    ((s.arg0 ≠ 0#32 ∨ s.arg1 = 0#32) → chanMap s.par ch = none → EndsAtOnce (.sendFrame ch) .invalidChannel s) ∧
    ∀ i, (s.arg0 ≠ 0#32 ∨ s.arg1 = 0#32) → chanMap s.par ch = some i →
      (2 ^ 32 < s.arg0.toNat + s.arg1.toNat → EndsAtOnce (.sendFrame ch) .invalidArgument s) ∧
      (s.arg0.toNat + s.arg1.toNat ≤ 2 ^ 32 → (s.chan i).txd.state = .busy → EndsAtOnce (.sendFrame ch) .busy s)

/-- O26 (43_framer.md R168, 20_memory.md R66): a poll of SEND_FRAME at any position and any poll count. With room it pushes
the header or payload byte of its position, and either ends with OK, where that byte is the last, or goes on to the next
position with a fresh poll count. With no room it counts one more poll for the byte, or ends with Timeout at the bound,
leaving the rest of the frame unsent. A payload byte that memory refuses records a bus error at its address and does
nothing else. -/
def Obligations.SendFramePollMovesOneByteOrWaits : Prop :=
  ∀ (s : State) (i : Engine) (hb : List Byte) (pay len : Word) (pos k : Nat),
    s.cmdState = .sendFrame i hb pay len pos k →
    (∀ b, (s.chan i).txf.length < s.par.txDepth →
      ((pos < s.par.hdrLen ∧ hb[pos]? = some b) ∨
        (s.par.hdrLen ≤ pos ∧ readAdmitted s.par (pay.toNat + pos - s.par.hdrLen) = true ∧
          b = s.mem.read (pay.toNat + pos - s.par.hdrLen))) →
      (pos + 1 ≠ s.par.hdrLen + len.toNat →
        ∃ t, act .poll s = .next t ∧ OtherChannels i s t ∧
          t = { s with cmdState := .sendFrame i hb pay len (pos + 1) 0, chans := t.chans } ∧
          t.chan i = { s.chan i with txf := (s.chan i).txf ++ [b] }) ∧
      (pos + 1 = s.par.hdrLen + len.toNat →
        ∃ t, act .poll s = .next t ∧ EndsOk i .sendFrame { s with cmdState := .idle } t ∧
          t.chan i =
            { s.chan i with
              txd := { (s.chan i).txd with state := .ready, mode := .async }
              txf := (s.chan i).txf ++ [b] })) ∧
    (s.par.txDepth ≤ (s.chan i).txf.length → k + 1 ≠ s.par.spinBound →
      act .poll s = .next { s with cmdState := .sendFrame i hb pay len pos (k + 1) }) ∧
    (s.par.txDepth ≤ (s.chan i).txf.length → k + 1 = s.par.spinBound →
      ∃ t, act .poll s = .next t ∧ CommandFrame s t ∧ OtherChannels i s t ∧ t.fr = s.fr ∧ t.cmdState = .idle ∧
        t.result = .timeout ∧ t.events = s.events ++ [.cmdDone .sendFrame .timeout] ∧
        t.chan i = { s.chan i with txd := { (s.chan i).txd with state := .ready, mode := .async } }) ∧
    ((s.chan i).txf.length < s.par.txDepth → s.par.hdrLen ≤ pos →
      readAdmitted s.par (pay.toNat + pos - s.par.hdrLen) = false →
      ∃ t, act .poll s = .next t ∧ OnlyFaults (.busError (pay.toNat + pos - s.par.hdrLen)) s t)

/-- O27 (43_framer.md R168, 40_serial_fifo.md R108): SEND_FRAME puts the header bytes and then the payload's on the wire,
each once and in order, under the one agenda in which each poll is followed by a line step (log entry 1) and from an empty
FIFO; then it ends with OK. The poll under every other interleaving is O26's. -/
def Obligations.SendFrameWiresHeaderThenPayload : Prop :=
  ∀ (s : State) (i : Engine) (hb : List Byte) (pay len : Word) (rest : List Action),
    s.par.wf → i.val < s.par.numChannels → s.cmdState = .sendFrame i hb pay len 0 0 → hb.length = s.par.hdrLen →
    (s.chan i).txf = [] → (s.chan i).cr.ue = true → (s.chan i).cr.te = true →
    (∀ k, k < len.toNat → readAdmitted s.par (pay.toNat + k) = true) →
    s.agenda = pollAndSend i (s.par.hdrLen + len.toNat) ++ rest →
    ∃ t, runFor (2 * (s.par.hdrLen + len.toNat)) s = .next t ∧
      t =
        { s with
          result := .ok, events := t.events, cmdState := .idle, chans := t.chans, agenda := rest } ∧
      wireBytes i t.events = wireBytes i s.events ++ hb ++ bufferBytes s.mem pay.toNat len.toNat ∧
      OtherChannels i s t ∧
      t.chan i = { s.chan i with txd := { (s.chan i).txd with state := .ready, mode := .async } }

/-! ### The service invocation -/

/-- O28 (60_exceptions.md R195): a service invocation of channel `i` can be taken exactly when the channel exists, is
initialised, and has room with the transmit source enabled or a byte with the receive source enabled. Among several such
channels any may be granted (R196). -/
def Obligations.ServiceRunsExactlyOnRequest : Prop :=
  ∀ (s : State) (i : Engine) (rest : List Action), s.agenda = .svc i :: rest →
    ((∃ t, step s = .next t) ↔
      i.val < s.par.numChannels ∧ (s.chan i).cr.ue = true ∧
        (((s.chan i).txf.length < s.par.txDepth ∧ (s.chan i).cr.txeie = true) ∨
          ((s.chan i).rxf ≠ [] ∧ (s.chan i).cr.rxneie = true)))

/-- O29 (41_transfer_engine.md R126; 20_memory.md R66): with room, the transmit source enabled and bytes left, an invocation
with nothing for the receive branch pushes the byte at the cursor and advances the cursor. A refused read records a bus
error and does nothing else, even where a receive byte waits: the receive branch is then not run (log entry 6, DEDUCED). -/
def Obligations.TransmitBranchMovesOneByte : Prop :=
  ∀ (s : State) (i : Engine),
    i.val < s.par.numChannels → (s.chan i).cr.ue = true → (s.chan i).txf.length < s.par.txDepth →
    (s.chan i).cr.txeie = true → (s.chan i).txd.cur < (s.chan i).txd.len →
    (((s.chan i).rxf = [] ∨ (s.chan i).cr.rxneie = false) → readAdmitted s.par (s.chan i).txd.cursorAddr = true →
      ∃ t, act (.svc i) s = .next t ∧ ServiceFrame s t ∧ OtherChannels i s t ∧
        (∀ a, t.mem.read a = s.mem.read a) ∧ t.events = s.events ∧ t.fr = s.fr ∧ t.irqStatus = s.irqStatus ∧
        t.faults = s.faults ∧
        t.chan i =
          { s.chan i with
            txd := { (s.chan i).txd with cur := (s.chan i).txd.cur + 1#32 }
            txf := (s.chan i).txf ++ [s.mem.read ((s.chan i).txd.addr.toNat + (s.chan i).txd.cur.toNat)] }) ∧
    (readAdmitted s.par (s.chan i).txd.cursorAddr = false →
      ∃ t, act (.svc i) s = .next t ∧
        OnlyFaults (.busError ((s.chan i).txd.addr.toNat + (s.chan i).txd.cur.toNat)) s t)

/-- O30 (41_transfer_engine.md R126, R128; 10_state.md R29; 90_conflicts.md C2): with room, the transmit source enabled and
no byte left, and nothing for the receive branch, an invocation completes the transmit: source disabled, Ready, cursor 0,
and `TXC[i]` set exactly for a host callback; `ADDR`, `LEN` and `CB` keep their values. With the source disabled no
invocation touches the transmit descriptor or FIFO or sets `TXC[i]`, so the completion is not repeated. That a transmit
descriptor's CB is not the parser's is a clause of the invariant (O51). -/
def Obligations.TransmitCompletionIsOnce : Prop :=
  (∀ (s : State) (i : Engine),
    i.val < s.par.numChannels → (s.chan i).cr.ue = true → (s.chan i).txf.length < s.par.txDepth →
    (s.chan i).cr.txeie = true → (s.chan i).txd.len ≤ (s.chan i).txd.cur → (s.chan i).txd.cb ≠ .framer →
    ((s.chan i).rxf = [] ∨ (s.chan i).cr.rxneie = false) →
    ∃ t, act (.svc i) s = .next t ∧ ServiceFrame s t ∧ OtherChannels i s t ∧
      (∀ a, t.mem.read a = s.mem.read a) ∧ t.events = s.events ∧ t.fr = s.fr ∧ t.faults = s.faults ∧
      (∀ b, b < 32 →
        t.irqStatus.getLsbD b = (s.irqStatus.getLsbD b || ((s.chan i).txd.cb == .host && b == 2 * i.val))) ∧
      t.chan i =
        { s.chan i with
          cr := { (s.chan i).cr with txeie := false }
          txd := { (s.chan i).txd with state := .ready, cur := 0#32 } }) ∧
  ∀ (s t : State) (i : Engine), (s.chan i).cr.txeie = false → act (.svc i) s = .next t →
    (t.chan i).cr.txeie = false ∧ (t.chan i).txd = (s.chan i).txd ∧ (t.chan i).txf = (s.chan i).txf ∧
      t.irqStatus.getLsbD (2 * i.val) = s.irqStatus.getLsbD (2 * i.val)

/-- O31 (41_transfer_engine.md R124, R125, R127; 60_exceptions.md R202; 20_memory.md R64, R66): with a byte, the receive
source enabled and more than one byte to go, an invocation stores the oldest byte at the cursor's address and advances the
cursor, after whatever the transmit branch did in the same invocation (`TransmitLeaves`: nothing, a byte moved, or a
completion); every other byte of memory is unchanged. A refused write, of the last byte too, records a bus error, and the
byte popped before it is lost (log entry 6, DEDUCED). With the cursor at or above the length the invocation records
InvariantBroken and takes no byte. -/
def Obligations.ReceiveBranchStoresOneByte : Prop :=
  ∀ (s : State) (i : Engine) (b : Byte) (later : List Byte) (c : Channel) (irq : Word),
    s.mem.wf → i.val < s.par.numChannels → (s.chan i).cr.ue = true → (s.chan i).rxf = b :: later →
    (s.chan i).cr.rxneie = true → TransmitLeaves i s c irq →
    ((s.chan i).rxd.cur.toNat + 1 < (s.chan i).rxd.len.toNat → writeAdmitted s.par (s.chan i).rxd.cursorAddr = true →
      ∃ t, act (.svc i) s = .next t ∧ ServiceFrame s t ∧ OtherChannels i s t ∧ t.events = s.events ∧ t.fr = s.fr ∧
        t.irqStatus = irq ∧ t.faults = s.faults ∧
        (∀ a, t.mem.read a =
          if a = (s.chan i).rxd.addr.toNat + (s.chan i).rxd.cur.toNat then b else s.mem.read a) ∧
        t.chan i = { c with rxd := { (s.chan i).rxd with cur := (s.chan i).rxd.cur + 1#32 }, rxf := later }) ∧
    ((s.chan i).rxd.cur < (s.chan i).rxd.len → writeAdmitted s.par (s.chan i).rxd.cursorAddr = false →
      ∃ t, act (.svc i) s = .next t ∧
        Records (.busError ((s.chan i).rxd.addr.toNat + (s.chan i).rxd.cur.toNat)) s t ∧ OtherChannels i s t ∧
        t = { s with chans := t.chans, faults := t.faults, irqStatus := irq } ∧ t.chan i = { c with rxf := later }) ∧
    ((s.chan i).rxd.len ≤ (s.chan i).rxd.cur →
      ∃ t, act (.svc i) s = .next t ∧ Records (.invariantBroken i) s t ∧ OtherChannels i s t ∧
        t = { s with chans := t.chans, faults := t.faults, irqStatus := irq } ∧ t.chan i = c)

/-- O32 (41_transfer_engine.md R124, R125, R127, R128; 60_exceptions.md R202): with a byte that is the last of the receive,
an invocation stores it, makes the descriptor Ready with cursor 0, disables the source, and runs the callback in the same
step: none, `RXC[i]`, or the frame parser. All this is after whatever the transmit branch did in the same invocation
(`TransmitLeaves`), so both directions may complete in one step. -/
def Obligations.ReceiveCompletionRunsItsCallback : Prop :=
  ∀ (s : State) (i : Engine) (b : Byte) (later : List Byte) (c : Channel) (irq : Word),
    s.mem.wf → i.val < s.par.numChannels → (s.chan i).cr.ue = true → (s.chan i).rxf = b :: later →
    (s.chan i).cr.rxneie = true → (s.chan i).rxd.cur.toNat + 1 = (s.chan i).rxd.len.toNat →
    TransmitLeaves i s c irq → writeAdmitted s.par (s.chan i).rxd.cursorAddr = true →
    ∃ u, ServiceFrame s u ∧ OtherChannels i s u ∧ u.events = s.events ∧ u.fr = s.fr ∧ u.irqStatus = irq ∧
      u.faults = s.faults ∧
      (∀ a, u.mem.read a =
        if a = (s.chan i).rxd.addr.toNat + (s.chan i).rxd.cur.toNat then b else s.mem.read a) ∧
      u.chan i =
        { c with
          cr := { c.cr with rxneie := false }
          rxd := { (s.chan i).rxd with state := .ready, cur := 0#32 }
          rxf := later } ∧
      ((s.chan i).rxd.cb = .none → act (.svc i) s = .next u) ∧
      ((s.chan i).rxd.cb = .host →
        act (.svc i) s = .next { u with irqStatus := u.irqStatus ||| (1#32 <<< (2 * i.val + 1)) }) ∧
      ((s.chan i).rxd.cb = .framer → act (.svc i) s = (framerOnRx i u).toStep)

/-! ### The frame parser's action -/

/-- O33 (43_framer.md R164): in HeaderWait, a header that decodes to a length of 1 to `PAY_CAP` is recorded, the payload
is armed for exactly that length, and the state becomes PayloadWait. No handler is called and no bit is set. -/
def Obligations.AcceptedHeaderArmsThePayload : Prop :=
  ∀ (s : State) (i : Engine) (id len : Word),
    s.fr.state = .headerWait →
    (∀ k, k < s.par.hdrLen → readAdmitted s.par (s.fr.hdrAddr.toNat + k) = true) →
    headerDecode s.par (bufferBytes s.mem s.fr.hdrAddr.toNat s.par.hdrLen) = some (id, len) →
    len ≠ 0#32 → len ≤ s.fr.payCap →
    ∃ t, framerOnRx i s = .go t ∧ ServiceFrame s t ∧ OtherChannels i s t ∧ (∀ a, t.mem.read a = s.mem.read a) ∧
      t.events = s.events ∧ t.irqStatus = s.irqStatus ∧ t.faults = s.faults ∧
      t.fr = { s.fr with lastId := id, lastLen := len, state := .payloadWait } ∧
      t.chan i =
        { s.chan i with
          cr := { (s.chan i).cr with re := true, rxneie := true }
          rxd :=
            { addr := s.fr.payAddr, len := len, cur := 0#32, state := .busy, mode := .async, cb := .framer } }

/-- O34 (43_framer.md R164; 60_exceptions.md R194; 20_memory.md R66): in HeaderWait, a header that the codec rejects, or that declares more
than `PAY_CAP`, sets DecodeFailure and `FRAME_ERR`, leaves the state and the recorded identifier and length, calls no
handler, and re-arms a receive for another header. A header byte that memory refuses to read only records a bus error at
its address (20_memory.md R66): nothing is decoded or re-armed (log entry 6, DEDUCED). -/
def Obligations.RejectedHeaderRearmsTheHeader : Prop :=
  (∀ (s : State) (i : Engine),
    s.fr.state = .headerWait →
    (∀ k, k < s.par.hdrLen → readAdmitted s.par (s.fr.hdrAddr.toNat + k) = true) →
    (headerDecode s.par (bufferBytes s.mem s.fr.hdrAddr.toNat s.par.hdrLen) = none ∨
      ∃ id len, headerDecode s.par (bufferBytes s.mem s.fr.hdrAddr.toNat s.par.hdrLen) = some (id, len) ∧
        s.fr.payCap < len) →
    ∃ t, framerOnRx i s = .go t ∧ ServiceFrame s t ∧ OtherChannels i s t ∧ (∀ a, t.mem.read a = s.mem.read a) ∧
      t.events = s.events ∧ t.faults = s.faults ∧ t.fr = { s.fr with lastResult := .decodeFailure } ∧
      (∀ b, b < 32 → t.irqStatus.getLsbD b = (s.irqStatus.getLsbD b || b == 17)) ∧
      t.chan i =
        { s.chan i with
          cr := { (s.chan i).cr with re := true, rxneie := true }
          rxd :=
            { addr := s.fr.hdrAddr, len := BitVec.ofNat 32 s.par.hdrLen, cur := 0#32, state := .busy
              mode := .async, cb := .framer } }) ∧
  ∀ (s : State) (i : Engine) (k : Nat),
    s.fr.state = .headerWait → k < s.par.hdrLen →
    (∀ j, j < k → readAdmitted s.par (s.fr.hdrAddr.toNat + j) = true) →
    readAdmitted s.par (s.fr.hdrAddr.toNat + k) = false →
    ∃ t, framerOnRx i s = .stop t ∧ OnlyFaults (.busError (s.fr.hdrAddr.toNat + k)) s t

/-- O35 (43_framer.md R166): Dispatch. An identifier without a handler gives UnmappedId before any decoding; a payload the
codec rejects gives DecodeFailure; both set `FRAME_ERR`. Otherwise one HandlerCall is emitted and `FRAME_DONE` set. -/
def Obligations.DispatchChecksTheIdentifierFirst : Prop :=
  ∀ (s : State) (id : Word) (p : List Byte),
    (id ∉ s.par.dispatchIds →
      dispatch id p s =
        { s with fr := { s.fr with lastResult := .unmappedId }, irqStatus := s.irqStatus ||| 0x20000#32 }) ∧
    (id ∈ s.par.dispatchIds → payloadDecode s.par id p = none →
      dispatch id p s =
        { s with fr := { s.fr with lastResult := .decodeFailure }, irqStatus := s.irqStatus ||| 0x20000#32 }) ∧
    ∀ m, id ∈ s.par.dispatchIds → payloadDecode s.par id p = some m →
      dispatch id p s =
        { s with
          fr := { s.fr with lastResult := .ok }
          irqStatus := s.irqStatus ||| 0x10000#32
          events := s.events ++ [.handlerCall id m] }

/-- O36 (43_framer.md R164, R165; 20_memory.md R66): an empty payload is dispatched at once in HeaderWait, and a complete payload in
PayloadWait; either way the parser ends in HeaderWait with a header receive armed, whatever Dispatch found. A payload byte that memory
refuses to read only records a bus error at its address (20_memory.md R66): nothing is dispatched or re-armed (log entry 6,
DEDUCED). -/
def Obligations.DispatchIsFollowedByAHeaderRearm : Prop :=
  (∀ (s : State) (i : Engine) (id : Word) (p : List Byte) (before : FrameContext),
    ((s.fr.state = .headerWait ∧ p = [] ∧ before = { s.fr with lastId := id, lastLen := 0#32 } ∧
        (∀ k, k < s.par.hdrLen → readAdmitted s.par (s.fr.hdrAddr.toNat + k) = true) ∧
        headerDecode s.par (bufferBytes s.mem s.fr.hdrAddr.toNat s.par.hdrLen) = some (id, 0#32)) ∨
      (s.fr.state = .payloadWait ∧ id = s.fr.lastId ∧ before = s.fr ∧
        (∀ k, k < s.fr.lastLen.toNat → readAdmitted s.par (s.fr.payAddr.toNat + k) = true) ∧
        p = bufferBytes s.mem s.fr.payAddr.toNat s.fr.lastLen.toNat)) →
    ∃ t, framerOnRx i s = .go t ∧ ServiceFrame s t ∧ OtherChannels i s t ∧ (∀ a, t.mem.read a = s.mem.read a) ∧
      t.faults = s.faults ∧
      t.events = (dispatch id p { s with fr := before }).events ∧
      t.irqStatus = (dispatch id p { s with fr := before }).irqStatus ∧
      t.fr = { (dispatch id p { s with fr := before }).fr with state := .headerWait } ∧
      t.chan i =
        { s.chan i with
          cr := { (s.chan i).cr with re := true, rxneie := true }
          rxd :=
            { addr := s.fr.hdrAddr, len := BitVec.ofNat 32 s.par.hdrLen, cur := 0#32, state := .busy
              mode := .async, cb := .framer } }) ∧
  ∀ (s : State) (i : Engine) (k : Nat),
    s.fr.state = .payloadWait → k < s.fr.lastLen.toNat →
    (∀ j, j < k → readAdmitted s.par (s.fr.payAddr.toNat + j) = true) →
    readAdmitted s.par (s.fr.payAddr.toNat + k) = false →
    ∃ t, framerOnRx i s = .stop t ∧ OnlyFaults (.busError (s.fr.payAddr.toNat + k)) s t

/-- O37 (00_scope.md R15 (a) and (b); 43_framer.md R170): the reference header codec gives back what it encoded, in 10
bytes. -/
def Obligations.ReferenceHeaderCodecObeysItsLaws : Prop :=
  ∀ id len : Word, refHeaderDecode (refHeaderEncode id len) = some (id, len) ∧ (refHeaderEncode id len).length = 10

/-- O38 (00_scope.md R15 (c); 43_framer.md R171): the reference payload codec gives back every message it encoded. -/
def Obligations.ReferencePayloadCodecRoundTrips : Prop :=
  ∀ m : Message, refPayloadDecode m.id (refPayloadEncode m) = some m

/-! ### The line -/

/-- O39 (40_serial_fifo.md R103): a line transmit step is enabled exactly when the transmit side is active and the FIFO
holds a byte; it pops the oldest byte, emits it, and changes no other state. -/
def Obligations.LineTransmitSendsTheOldestByte : Prop :=
  ∀ (s : State) (i : Engine), i.val < s.par.numChannels →
    ((∃ t, act (.lineTx i) s = .next t) ↔
      (s.chan i).cr.ue = true ∧ (s.chan i).cr.te = true ∧ (s.chan i).txf ≠ []) ∧
    ∀ b later, (s.chan i).txf = b :: later → (s.chan i).cr.ue = true → (s.chan i).cr.te = true →
      ∃ t, act (.lineTx i) s = .next t ∧ t.chan i = { s.chan i with txf := later } ∧
        t = { s with chans := t.chans, events := s.events ++ [.wireOut i b] } ∧ OtherChannels i s t

/-- O40 (40_serial_fifo.md R104): a line receive step is enabled on every channel. With the receiver on, the byte joins the
FIFO where it has room, and is discarded with `OVR` set where it has none; with the receiver off it is lost. -/
def Obligations.LineReceiveKeepsOrDiscardsTheByte : Prop :=
  ∀ (s : State) (i : Engine) (b : Byte), i.val < s.par.numChannels →
    ((s.chan i).cr.ue = true → (s.chan i).cr.re = true → (s.chan i).rxf.length < s.par.rxDepth →
      ∃ t, act (.lineRx i b) s = .next t ∧ t.chan i = { s.chan i with rxf := (s.chan i).rxf ++ [b] } ∧
        OtherChannels i s t ∧ t = { s with chans := t.chans, events := s.events ++ [.wireIn i b true] }) ∧
    ((s.chan i).cr.ue = true → (s.chan i).cr.re = true → s.par.rxDepth ≤ (s.chan i).rxf.length →
      ∃ t, act (.lineRx i b) s = .next t ∧ t.chan i = { s.chan i with ovr := true } ∧ OtherChannels i s t ∧
        t = { s with chans := t.chans, events := s.events ++ [.wireIn i b false] }) ∧
    (((s.chan i).cr.ue = false ∨ (s.chan i).cr.re = false) →
      act (.lineRx i b) s = .next { s with events := s.events ++ [.wireIn i b false] })

/-! ### The HOST -/

/-- O41 (10_state.md R22, R23): the register at each offset of the window; offsets 0x038 to 0x0FF, window offsets 0x2C to
0x3F and the windows of absent channels are reserved. -/
def Obligations.WindowHoldsTheRegisterMap : Prop :=
  ∀ p : Params, p.numChannels ≤ 8 →
    (regAt p 0x000 = .cmd ∧ regAt p 0x004 = .arg0 ∧ regAt p 0x008 = .arg1 ∧ regAt p 0x00C = .arg2 ∧
      regAt p 0x010 = .result ∧ regAt p 0x014 = .rdata ∧ regAt p 0x018 = .irqStatus ∧ regAt p 0x01C = .irqEnable ∧
      regAt p 0x020 = .frStatus ∧ regAt p 0x024 = .frLastId ∧ regAt p 0x028 = .frLastLen ∧
      regAt p 0x02C = .frHdrAddr ∧ regAt p 0x030 = .frPayAddr ∧ regAt p 0x034 = .frPayCap) ∧
    (∀ off, 0x038 ≤ off → off ≤ 0x0FF → regAt p off = .reserved) ∧
    (∀ i : Engine, i.val < p.numChannels →
      regAt p (0x100 + 0x40 * i.val) = .cr i ∧ regAt p (0x104 + 0x40 * i.val) = .sr i ∧
      regAt p (0x108 + 0x40 * i.val) = .brr i ∧ regAt p (0x10C + 0x40 * i.val) = .txdAddr i ∧
      regAt p (0x110 + 0x40 * i.val) = .txdLen i ∧ regAt p (0x114 + 0x40 * i.val) = .txdCur i ∧
      regAt p (0x118 + 0x40 * i.val) = .txdCtl i ∧ regAt p (0x11C + 0x40 * i.val) = .rxdAddr i ∧
      regAt p (0x120 + 0x40 * i.val) = .rxdLen i ∧ regAt p (0x124 + 0x40 * i.val) = .rxdCur i ∧
      regAt p (0x128 + 0x40 * i.val) = .rxdCtl i ∧
      ∀ r, 0x2C ≤ r → r ≤ 0x3F → regAt p (0x100 + 0x40 * i.val + r) = .reserved) ∧
    ∀ off, 0x100 + 0x40 * p.numChannels ≤ off → off ≤ 0x3FF → regAt p off = .reserved

/-- O42 (10_state.md R22, R23, R24, R25, R27, R29, R30; 60_exceptions.md R190): what each register reads as: the whole-word
registers their field, `RESULT` its code by R190's numbers, `CMD` and a reserved offset 0; and bit by bit `IRQ_STATUS`,
`IRQ_ENABLE`, `CR`, `SR`, the descriptor control words and `FR_STATUS`, the bits a layout does not name reading as
zero. -/
def Obligations.RegistersReadAsLaidOut : Prop :=
  (∀ (s : State) (i : Engine),
    readReg .cmd s = 0#32 ∧ readReg .arg0 s = s.arg0 ∧ readReg .arg1 s = s.arg1 ∧ readReg .arg2 s = s.arg2 ∧
    readReg .rdata s = s.rdata ∧ readReg .frLastId s = s.fr.lastId ∧ readReg .frLastLen s = s.fr.lastLen ∧
    readReg .frHdrAddr s = s.fr.hdrAddr ∧ readReg .frPayAddr s = s.fr.payAddr ∧ readReg .frPayCap s = s.fr.payCap ∧
    readReg (.brr i) s = (s.chan i).brr ∧
    readReg (.txdAddr i) s = (s.chan i).txd.addr ∧ readReg (.txdLen i) s = (s.chan i).txd.len ∧
    readReg (.txdCur i) s = (s.chan i).txd.cur ∧
    readReg (.rxdAddr i) s = (s.chan i).rxd.addr ∧ readReg (.rxdLen i) s = (s.chan i).rxd.len ∧
    readReg (.rxdCur i) s = (s.chan i).rxd.cur ∧ readReg .reserved s = 0#32) ∧
  (∀ (s : State) (code : ResultCode) (n : Word),
    (code, n) ∈
      [(ResultCode.ok, 0#32), (.invalidArgument, 1#32), (.nullReference, 2#32), (.busy, 3#32), (.timeout, 4#32),
        (.invalidChannel, 5#32), (.decodeFailure, 6#32), (.unmappedId, 7#32)] →
    (s.result = code → readReg .result s = n) ∧
      (s.fr.lastResult = code → (readReg .frStatus s).extractLsb' 8 4 = n.setWidth 4)) ∧
  ∀ (s : State) (i : Engine) (b : Nat), b < 32 →
    ((readReg (.cr i) s).getLsbD b =
      match b with
      | 0 => (s.chan i).cr.ue
      | 1 => (s.chan i).cr.te
      | 2 => (s.chan i).cr.re
      | 3 => (s.chan i).cr.txeie
      | 4 => (s.chan i).cr.rxneie
      | 5 => (s.chan i).cr.over8
      | _ => false) ∧
    ((readReg (.sr i) s).getLsbD b =
      match b with
      | 0 => decide ((s.chan i).txf.length < s.par.txDepth)
      | 1 => decide ((s.chan i).rxf ≠ [])
      | 2 => (s.chan i).ovr
      | 3 => decide ((s.chan i).txf = [])
      | _ => false) ∧
    (∀ d r, ((d, r) = ((s.chan i).txd, Reg.txdCtl i) ∨ (d, r) = ((s.chan i).rxd, Reg.rxdCtl i)) →
      (readReg r s).getLsbD b =
        match b with
        | 0 => decide (d.state = .busy)
        | 1 => decide (d.mode = .blocking)
        | 2 => decide (d.cb = .host)
        | 3 => decide (d.cb = .framer)
        | _ => false) ∧
    (readReg .irqStatus s).getLsbD b =
      (s.irqStatus.getLsbD b && (decide (b < 2 * s.par.numChannels) || b == 16 || b == 17)) ∧
    (readReg .irqEnable s).getLsbD b =
      (s.irqEnable.getLsbD b && (decide (b < 2 * s.par.numChannels) || b == 16 || b == 17)) ∧
    (readReg .frStatus s).getLsbD b =
      match b with
      | 0 => s.fr.active
      | 1 => decide (s.fr.state = .payloadWait)
      | 4 => s.fr.ch.val.testBit 0
      | 5 => s.fr.ch.val.testBit 1
      | 6 => s.fr.ch.val.testBit 2
      | 8 => s.fr.lastResult.code.getLsbD 0
      | 9 => s.fr.lastResult.code.getLsbD 1
      | 10 => s.fr.lastResult.code.getLsbD 2
      | _ => false

/-- O43 (20_memory.md R63, R70): an aligned 32-bit register read returns the register's value and has no side effect, so
that the same read again returns the same value; any other register access records a bus error at its address and changes
no register. What a load returns is held in the model's own `hostData` (log entry 9). -/
def Obligations.RegisterReadsAreIdempotent : Prop :=
  ∀ (s : State) (off : BitVec 10), s.cmdState = .idle →
    (off.toNat % 4 = 0 →
      ∃ t, act (.host (.regRead .w32 off)) s = .next t ∧ t = { s with hostData := readReg (regAt s.par off.toNat) s } ∧
        act (.host (.regRead .w32 off)) t = .next t) ∧
    ∀ (w : Width) (v : Word), (w ≠ .w32 ∨ off.toNat % 4 ≠ 0) →
      (∃ t, act (.host (.regRead w off)) s = .next t ∧ OnlyFaults (.busError (s.par.base.toNat + off.toNat)) s t) ∧
      ∃ t, act (.host (.regWrite w off v)) s = .next t ∧ OnlyFaults (.busError (s.par.base.toNat + off.toNat)) s t

/-- O44 (20_memory.md R69): register writes other than `CMD`: the operands and `IRQ_ENABLE` store the value (bits that do
not exist stay zero), `IRQ_STATUS` and `OVR` are cleared by writing 1, and a write to any other register is ignored. -/
def Obligations.RegisterWritesTakeTheirEffect : Prop :=
  ∀ (s : State) (v : Word), s.cmdState = .idle →
    act (.host (.regWrite .w32 0x004#10 v)) s = .next { s with arg0 := v } ∧
    act (.host (.regWrite .w32 0x008#10 v)) s = .next { s with arg1 := v } ∧
    act (.host (.regWrite .w32 0x00C#10 v)) s = .next { s with arg2 := v } ∧
    (∃ t, act (.host (.regWrite .w32 0x01C#10 v)) s = .next t ∧ t = { s with irqEnable := t.irqEnable } ∧
      ∀ b, b < 32 →
        t.irqEnable.getLsbD b =
          (v.getLsbD b && (decide (b < 2 * s.par.numChannels) || b == 16 || b == 17))) ∧
    (∃ t, act (.host (.regWrite .w32 0x018#10 v)) s = .next t ∧ t = { s with irqStatus := t.irqStatus } ∧
      ∀ b, b < 32 → t.irqStatus.getLsbD b = (s.irqStatus.getLsbD b && !v.getLsbD b)) ∧
    ∀ off : BitVec 10, off.toNat % 4 = 0 →
      (∀ i, regAt s.par off.toNat = .sr i →
        ∃ t, act (.host (.regWrite .w32 off v)) s = .next t ∧ OtherChannels i s t ∧
          t = { s with chans := t.chans } ∧
          t.chan i = { s.chan i with ovr := (s.chan i).ovr && !v.getLsbD 2 }) ∧
      ((∀ i, regAt s.par off.toNat ≠ .sr i) → regAt s.par off.toNat ≠ .cmd → regAt s.par off.toNat ≠ .arg0 →
        regAt s.par off.toNat ≠ .arg1 → regAt s.par off.toNat ≠ .arg2 → regAt s.par off.toNat ≠ .irqStatus →
        regAt s.par off.toNat ≠ .irqEnable → act (.host (.regWrite .w32 off v)) s = .next s)

/-- O45 (20_memory.md R67, R68): a HOST store to a byte of a Busy descriptor's buffer or of the started parser's buffers,
and a HOST load of a byte of a Busy receive buffer or of those, records an OwnershipViolation and does nothing else. A
load of any other byte outside the window, a Busy transmit buffer's among them, and a store to any other, happens where
memory admits it. What a load returns is held in the model's own `hostData` (log entry 9). -/
def Obligations.OwnershipBreachesAreRecorded : Prop :=
  ∀ (s : State) (i : Engine) (a : Word) (b : Byte),
    s.cmdState = .idle → i.val < s.par.numChannels → inWindow s.par a.toNat = false →
    let inTx := (s.chan i).txd.state = .busy ∧ (s.chan i).txd.addr.toNat ≤ a.toNat ∧
      a.toNat < (s.chan i).txd.addr.toNat + (s.chan i).txd.len.toNat
    let inRx := (s.chan i).rxd.state = .busy ∧ (s.chan i).rxd.addr.toNat ≤ a.toNat ∧
      a.toNat < (s.chan i).rxd.addr.toNat + (s.chan i).rxd.len.toNat
    let inFr := s.fr.active = true ∧
      ((s.fr.hdrAddr.toNat ≤ a.toNat ∧ a.toNat < s.fr.hdrAddr.toNat + s.par.hdrLen) ∨
        (s.fr.payAddr.toNat ≤ a.toNat ∧ a.toNat < s.fr.payAddr.toNat + s.fr.payCap.toNat))
    ((inTx ∨ inRx ∨ inFr) →
      ∃ t, act (.host (.memWrite a b)) s = .next t ∧ OnlyFaults (.ownershipViolation a.toNat) s t) ∧
    ((inRx ∨ inFr) →
      ∃ t, act (.host (.memRead a)) s = .next t ∧ OnlyFaults (.ownershipViolation a.toNat) s t) ∧
    ((∀ j : Engine, j.val < s.par.numChannels → (s.chan j).rxd.owns a.toNat = false) → framerOwns s a.toNat = false →
      refusesRead s.par a.toNat = false →
      act (.host (.memRead a)) s = .next { s with hostData := (s.mem.read a.toNat).setWidth 32 }) ∧
    (s.mem.wf →
      (∀ j : Engine, j.val < s.par.numChannels →
        (s.chan j).txd.owns a.toNat = false ∧ (s.chan j).rxd.owns a.toNat = false) →
      framerOwns s a.toNat = false → refusesWrite s.par a.toNat = false →
      ∃ t, act (.host (.memWrite a b)) s = .next t ∧ t = { s with mem := t.mem } ∧
        ∀ x, t.mem.read x = if x = a.toNat then b else s.mem.read x)

/-- O46 (41_transfer_engine.md R130): while a blocking command is in progress no HOST statement can be taken, and a poll
step can (for SEND_FRAME, with a header of `HDR_LEN` bytes); with none in progress no poll step can. Whether a step of
another agent can be taken does not depend on it, and no such step but reset changes the command in progress or its poll
count. -/
def Obligations.HostIsHeldWhileACommandBlocks : Prop :=
  ∀ (s : State), s.par.wf →
    (s.cmdState ≠ .idle → ∀ st, act (.host st) s = .fault .hostHeld) ∧
    (s.cmdState = .idle → act .poll s = .fault .noPollPending) ∧
    (s.cmdState ≠ .idle → (∀ i hb pay len pos k, s.cmdState = .sendFrame i hb pay len pos k → hb.length = s.par.hdrLen) →
      ∃ t, act .poll s = .next t) ∧
    (s.cmdState ≠ .idle → ∀ a t, act a s = .next t → a ≠ .poll → a ≠ .reset → t.cmdState = s.cmdState) ∧
    ∀ (c : CmdState) (i : Engine) (b : Byte),
      ((∃ t, act (.svc i) { s with cmdState := c } = .next t) ↔ ∃ t, act (.svc i) s = .next t) ∧
        ((∃ t, act (.lineTx i) { s with cmdState := c } = .next t) ↔ ∃ t, act (.lineTx i) s = .next t) ∧
        ((∃ t, act (.lineRx i b) { s with cmdState := c } = .next t) ↔ ∃ t, act (.lineRx i b) s = .next t)

/-- O47 (60_exceptions.md R198, R199; 20_memory.md R69): `irq_out` is high exactly when some existing bit is set in both
`IRQ_STATUS` and `IRQ_ENABLE`, and writing to `IRQ_STATUS` the value it reads as lowers it. -/
def Obligations.AcknowledgingLowersIrqOut : Prop :=
  ∀ s : State,
    (irqOut s = true ↔
      ∃ b, (b < 2 * s.par.numChannels ∨ b = 16 ∨ b = 17) ∧ b < 32 ∧ s.irqStatus.getLsbD b = true ∧
        s.irqEnable.getLsbD b = true) ∧
    (s.cmdState = .idle →
      ∃ t, act (.host (.regWrite .w32 0x018#10 (readReg .irqStatus s))) s = .next t ∧ irqOut t = false)

/-! ### Reset and the whole machine -/

/-- O48 (70_reset_and_hazards.md R220, 10_state.md R34): reset can be taken in every state and sets every register,
descriptor, FIFO, the frame context, `CMDSTATE`, the event history and the fault set to its reset value; system memory and
the parameters stay. -/
def Obligations.ResetRestoresEveryRegister : Prop :=
  ∀ s : State,
    ∃ t, act .reset s = .next t ∧ t.par = s.par ∧ t.mem = s.mem ∧ t.arg0 = 0#32 ∧ t.arg1 = 0#32 ∧ t.arg2 = 0#32 ∧
      t.result = .ok ∧ t.rdata = 0#32 ∧ t.irqStatus = 0#32 ∧ t.irqEnable = 0#32 ∧ t.cmdState = .idle ∧ t.events = [] ∧
      t.faults = [] ∧
      t.fr =
        { active := false, state := .headerWait, ch := 0, lastId := 0#32, lastLen := 0#32, lastResult := .ok
          hdrAddr := 0#32, payAddr := 0#32, payCap := 0#32 } ∧
      ∀ i, t.chan i =
        { cr := { ue := false, te := false, re := false, txeie := false, rxneie := false, over8 := false }
          ovr := false, brr := 0#32
          txd := { addr := 0#32, len := 0#32, cur := 0#32, state := .ready, mode := .async, cb := .none }
          rxd := { addr := 0#32, len := 0#32, cur := 0#32, state := .ready, mode := .async, cb := .none }
          txf := [], rxf := [] }

/-- O49 (70_reset_and_hazards.md R221): after reset no service invocation and no line transmit step is enabled, `irq_out`
is 0, `SR[i]` reads 0x9, and a byte that arrives is discarded, for every parameter value and memory. -/
def Obligations.AfterResetTheBlockIsIdle : Prop :=
  ∀ (p : Params) (m : Memory), p.wf →
    irqOut (State.resetOf p m) = false ∧
    ∀ (i : Engine) (b : Byte), i.val < p.numChannels →
      (¬ ∃ t, act (.svc i) (State.resetOf p m) = .next t) ∧ (¬ ∃ t, act (.lineTx i) (State.resetOf p m) = .next t) ∧
      readReg (.sr i) (State.resetOf p m) = 0x9#32 ∧
      act (.lineRx i b) (State.resetOf p m) =
        .next { State.resetOf p m with events := [.wireIn i b false] }

/-- O50 (10_state.md R28, R33, R34): the reset state satisfies the machine's invariant, for every parameter value R6
allows and every memory in canonical form, and so does `State.reset`. -/
def Obligations.ResetSatisfiesTheInvariant : Prop :=
  (∀ (p : Params) (m : Memory), p.wf → m.wf → Inv (State.resetOf p m)) ∧ Inv State.reset

/-- O51 (10_state.md R28, R32, R33; 43_framer.md R174): every step of every agent keeps the machine's invariant: FIFO
depths, register layouts, memory's canonical form, and in fault-free states (I1) to (I6), so that a started parser's
receive is always armed. The clauses on faulted states are the model's reading (log entry 6). -/
def Obligations.EveryStepKeepsTheInvariant : Prop :=
  ∀ s t : State, Inv s → step s = .next t → Inv t

/-- O52 (40_serial_fifo.md R102; 10_state.md R24): only reset clears `UE`, `TE` or `RE` of any channel, and only reset
clears `FR.ACTIVE`. -/
def Obligations.OnlyResetDisablesALine : Prop :=
  ∀ (s t : State) (a : Action) (i : Engine), Takes s a t → a ≠ .reset →
    ((s.chan i).cr.ue = true → (t.chan i).cr.ue = true) ∧ ((s.chan i).cr.te = true → (t.chan i).cr.te = true) ∧
    ((s.chan i).cr.re = true → (t.chan i).cr.re = true) ∧ (s.fr.active = true → t.fr.active = true)

/-- O53 (60_exceptions.md R192; 10_state.md R32; 42_channel_registry.md R150; 41_transfer_engine.md R127): no step but reset
drops a fault or an event already recorded, a step records at most one fault and at most two events, and no step changes
a parameter. Where the invariant holds a step records at most one event; without it a transmit descriptor may have CB = 2
(log entry 16). From a fault-free state with the invariant no step records InvariantBroken. -/
def Obligations.FaultsAndHistoryOnlyGrow : Prop :=
  ∀ (s t : State) (a : Action), Takes s a t →
    t.par = s.par ∧
    (a ≠ .reset →
      (∃ f, t.faults = s.faults ++ f ∧ f.length ≤ 1) ∧
        ∃ e, t.events = s.events ++ e ∧ e.length ≤ 2 ∧ (Inv s → e.length ≤ 1)) ∧
    (Inv s → FaultFree s → ∀ i, .invariantBroken i ∉ t.faults)

/-- O54 (10_state.md R29; 20_memory.md R69): but for reset, an `IRQ_STATUS` bit is set only by a service invocation, and
cleared only by a HOST write of 1 to it. -/
def Obligations.StatusBitsAreSetBySeqAndClearedByHost : Prop :=
  ∀ (s t : State) (a : Action) (b : Nat), Takes s a t → a ≠ .reset →
    (s.irqStatus.getLsbD b = false → t.irqStatus.getLsbD b = true → ∃ i, a = .svc i) ∧
    (s.irqStatus.getLsbD b = true → t.irqStatus.getLsbD b = false →
      ∃ v, a = .host (.regWrite .w32 0x018#10 v) ∧ v.getLsbD b = true)

/-- O55 (20_memory.md R60, R64): a byte of system memory is changed only by a HOST store to it, or by a service invocation
of a channel whose receive descriptor's cursor is at it. -/
def Obligations.OnlyStoresAndReceivesChangeMemory : Prop :=
  ∀ (s t : State) (a : Action) (x : Nat), Inv s → Takes s a t → t.mem.read x ≠ s.mem.read x →
    (∃ y b, a = .host (.memWrite y b) ∧ x = y.toNat) ∨
      ∃ i, a = .svc i ∧ (s.chan i).cr.rxneie = true ∧ x = (s.chan i).rxd.addr.toNat + (s.chan i).rxd.cur.toNat

/-- O56 (41_transfer_engine.md R124, R125; 60_exceptions.md R202; 40_serial_fifo.md R103, R104): a service invocation or a line step of one channel
changes no other channel's registers, descriptors or FIFOs, and never `RESULT`, the operands or `CMDSTATE`. -/
def Obligations.ServiceAndLineStepsWriteOneChannel : Prop :=
  ∀ (s t : State) (a : Action) (i : Engine), Takes s a t →
    (a = .svc i ∨ a = .lineTx i ∨ ∃ b, a = .lineRx i b) →
    OtherChannels i s t ∧ t.result = s.result ∧ t.arg0 = s.arg0 ∧ t.arg1 = s.arg1 ∧ t.arg2 = s.arg2 ∧
      t.rdata = s.rdata ∧ t.irqEnable = s.irqEnable ∧ t.cmdState = s.cmdState

/-- O57 (70_reset_and_hazards.md R231; 10_state.md R33 (I5)): in a fault-free state with the parser started, SUBMIT_RECV
and GET_BYTE on its channel return Busy, and so does INIT once the channel is initialised. -/
def Obligations.ParserChannelIsExclusive : Prop :=
  ∀ (s : State) (ch : Nat) (hostcb over8 : Bool),
    Inv s → FaultFree s → s.fr.active = true → chanMap s.par ch = some s.fr.ch →
    (s.arg0 ≠ 0#32 → s.arg1 ≠ 0#32 → s.arg0.toNat + s.arg1.toNat ≤ 2 ^ 32 →
      EndsAtOnce (.submitRecv ch hostcb) .busy s) ∧
    EndsAtOnce (.getByte ch) .busy s ∧
    ((s.chan s.fr.ch).cr.ue = true →
      baudDivisor s.par.mantMax s.par.coreClock s.arg0.toNat over8 ≠ none → EndsAtOnce (.init ch over8) .busy s)

/-- O58 (41_transfer_engine.md R129): a receive, without the parser's callback, whose bytes arrive and are served one by
one, each before the next and with no other step between (one agenda, log entry 1): after `n` of them, fewer than
the length, the cursor is `n` and the descriptor Busy; after all of them the buffer holds them in order, every other byte
of memory is unchanged, the descriptor is Ready with cursor 0, and the callback's bit is set exactly for a host
callback. -/
def Obligations.ReceiveFillsItsBufferInOrder : Prop :=
  ∀ (s : State) (i : Engine) (bytes : List Byte) (rest : List Action),
    s.par.wf → s.mem.wf → i.val < s.par.numChannels →
    (s.chan i).cr.ue = true → (s.chan i).cr.re = true → (s.chan i).cr.rxneie = true → (s.chan i).cr.txeie = false →
    (s.chan i).rxf = [] → (s.chan i).rxd.cur = 0#32 → (s.chan i).rxd.state = .busy → (s.chan i).rxd.cb ≠ .framer →
    bytes.length = (s.chan i).rxd.len.toNat → bytes ≠ [] →
    (∀ k, k < bytes.length → writeAdmitted s.par ((s.chan i).rxd.addr.toNat + k) = true) →
    s.agenda = arriveAndServe i bytes ++ rest →
    (∀ n, n < bytes.length →
      ∃ t, runFor (2 * n) s = .next t ∧ (t.chan i).rxd.cur.toNat = n ∧ (t.chan i).rxd.state = .busy ∧
        bufferBytes t.mem (s.chan i).rxd.addr.toNat n = bytes.take n ∧ t.irqStatus = s.irqStatus) ∧
    ∃ t, runFor (2 * bytes.length) s = .next t ∧
      t =
        { s with
          mem := t.mem, irqStatus := t.irqStatus, chans := t.chans
          events := s.events ++ bytes.map fun b => .wireIn i b true
          agenda := rest } ∧
      bufferBytes t.mem (s.chan i).rxd.addr.toNat bytes.length = bytes ∧
      (∀ a, (a < (s.chan i).rxd.addr.toNat ∨ (s.chan i).rxd.addr.toNat + bytes.length ≤ a) →
        t.mem.read a = s.mem.read a) ∧
      (∀ b, b < 32 →
        t.irqStatus.getLsbD b = (s.irqStatus.getLsbD b || ((s.chan i).rxd.cb == .host && b == 2 * i.val + 1))) ∧
      OtherChannels i s t ∧
      t.chan i =
        { s.chan i with
          cr := { (s.chan i).cr with rxneie := false }
          rxd := { (s.chan i).rxd with state := .ready, cur := 0#32 } }

/-- O59 (41_transfer_engine.md R121, R126; 40_serial_fifo.md R108; 90_conflicts.md C5): a SUBMIT_SEND on an initialised
channel with an empty FIFO, followed by one line step and one service invocation for each byte and no other step (one agenda, log entry 1), puts each byte of the
buffer on the wire exactly once and in order, and completes. -/
def Obligations.SubmittedBytesAreSentOnceInOrder : Prop :=
  ∀ (s : State) (ch : Nat) (hostcb : Bool) (i : Engine) (rest : List Action),
    s.par.wf → ch < 16 → chanMap s.par ch = some i → s.cmdState = .idle → s.arg0 ≠ 0#32 → s.arg1 ≠ 0#32 →
    s.arg0.toNat + s.arg1.toNat ≤ 2 ^ 32 → (s.chan i).txd.state = .ready → (s.chan i).txf = [] →
    (s.chan i).cr.ue = true → (s.chan i).cr.rxneie = false →
    (∀ k, k < s.arg1.toNat → readAdmitted s.par (s.arg0.toNat + k) = true) →
    s.agenda = cmdWrite (encode (.submitSend ch hostcb)) :: (sendAndServe i s.arg1.toNat ++ rest) →
    ∃ t, runFor (1 + 2 * s.arg1.toNat) s = .next t ∧
      t =
        { s with
          result := .ok, irqStatus := t.irqStatus, chans := t.chans, events := t.events, agenda := rest } ∧
      wireBytes i t.events = wireBytes i s.events ++ bufferBytes s.mem s.arg0.toNat s.arg1.toNat ∧
      OtherChannels i s t ∧
      (∀ b, b < 32 → t.irqStatus.getLsbD b = (s.irqStatus.getLsbD b || (hostcb && b == 2 * i.val))) ∧
      t.chan i =
        { s.chan i with
          cr := { (s.chan i).cr with te := true, txeie := false }
          txd :=
            { addr := s.arg0, len := s.arg1, cur := 0#32, state := .ready, mode := .async
              cb := if hostcb then .host else .none } }

/-- O60 (60_exceptions.md R195, R197; 40_serial_fifo.md R103; 41_transfer_engine.md R124, R126): in every fault-free execution
without reset that is fair to the SEQ and to the channel's line, an asynchronous transmit on an initialised channel with
its transmitter enabled completes: its descriptor becomes Ready. -/
def Obligations.FairRunsCompleteEveryTransmit : Prop :=
  ∀ (run : Nat → State) (acts : Nat → Action) (i : Engine),
    IsRun run acts → Inv (run 0) → (∀ n, FaultFree (run n)) → (∀ n, acts n ≠ .reset) → FairSeq run acts i →
    FairLineTx run acts i → i.val < (run 0).par.numChannels → ((run 0).chan i).cr.ue = true →
    ((run 0).chan i).cr.te = true → ((run 0).chan i).txd.state = .busy → ((run 0).chan i).txd.mode = .async →
    ∃ n, ((run n).chan i).txd.state = .ready
end

