-- ==== Sys2Proof/Laws/State.lean ====
section
/-! SUPPORT. One lemma per field and operation of Machine/Ops.lean, so that no proof unfolds a record update. -/

namespace Sys2Proof.Machine

/-! ### Channels -/

/-- The channel changed, and the others as they were. -/
theorem chan_updChan (s : State) (i j : Engine) (f : Channel → Channel) :
    (s.updChan i f).chan j = if j = i then f (s.chan i) else s.chan j := by
  unfold State.updChan State.chan
  by_cases h : j = i
  · subst h; simp
  · have : i.val ≠ j.val := fun e => h (Fin.ext e.symm)
    simp [h, this]

@[simp] theorem chan_updChan_self (s : State) (i : Engine) (f : Channel → Channel) :
    (s.updChan i f).chan i = f (s.chan i) := by simp [chan_updChan]

theorem chan_updChan_ne (s : State) {i j : Engine} (f : Channel → Channel) (h : j ≠ i) :
    (s.updChan i f).chan j = s.chan j := by simp [chan_updChan, h]

@[simp] theorem updChan_updChan (s : State) (i : Engine) (f g : Channel → Channel) :
    (s.updChan i f).updChan i g = s.updChan i (fun c => g (f c)) := by
  have h := chan_updChan_self s i f
  unfold State.updChan at h ⊢
  simp [h]

/-- A state whose channels did not change shows the same channels. -/
theorem chan_congr {s t : State} (h : t.chans = s.chans) (i : Engine) : t.chan i = s.chan i := by
  simp [State.chan, h]

theorem updCr_eq (s : State) (i : Engine) (f : Control → Control) :
    s.updCr i f = s.updChan i fun c => { c with cr := f c.cr } := rfl

theorem updTxd_eq (s : State) (i : Engine) (f : Descriptor → Descriptor) :
    s.updTxd i f = s.updChan i fun c => { c with txd := f c.txd } := rfl

theorem updRxd_eq (s : State) (i : Engine) (f : Descriptor → Descriptor) :
    s.updRxd i f = s.updChan i fun c => { c with rxd := f c.rxd } := rfl

theorem chan_updCr (s : State) (i j : Engine) (f : Control → Control) :
    (s.updCr i f).chan j = if j = i then { s.chan i with cr := f (s.chan i).cr } else s.chan j := chan_updChan ..

theorem chan_updTxd (s : State) (i j : Engine) (f : Descriptor → Descriptor) :
    (s.updTxd i f).chan j = if j = i then { s.chan i with txd := f (s.chan i).txd } else s.chan j := chan_updChan ..

theorem chan_updRxd (s : State) (i j : Engine) (f : Descriptor → Descriptor) :
    (s.updRxd i f).chan j = if j = i then { s.chan i with rxd := f (s.chan i).rxd } else s.chan j := chan_updChan ..

theorem chan_txPush (i j : Engine) (b : Byte) (s : State) :
    (txPush i b s).chan j = if j = i then { s.chan i with txf := (s.chan i).txf ++ [b] } else s.chan j := chan_updChan ..

theorem chan_txDrop (i j : Engine) (s : State) :
    (txDrop i s).chan j = if j = i then { s.chan i with txf := (s.chan i).txf.tail } else s.chan j := chan_updChan ..

theorem chan_rxPush (i j : Engine) (b : Byte) (s : State) :
    (rxPush i b s).chan j = if j = i then { s.chan i with rxf := (s.chan i).rxf ++ [b] } else s.chan j := chan_updChan ..

theorem chan_rxDrop (i j : Engine) (s : State) :
    (rxDrop i s).chan j = if j = i then { s.chan i with rxf := (s.chan i).rxf.tail } else s.chan j := chan_updChan ..

/-! ### `updChan` -/

@[simp] theorem updChan_par (s : State) (i : Engine) (f : Channel → Channel) : (s.updChan i f).par = s.par := rfl
@[simp] theorem updChan_mem (s : State) (i : Engine) (f : Channel → Channel) : (s.updChan i f).mem = s.mem := rfl
@[simp] theorem updChan_arg0 (s : State) (i : Engine) (f : Channel → Channel) : (s.updChan i f).arg0 = s.arg0 := rfl
@[simp] theorem updChan_arg1 (s : State) (i : Engine) (f : Channel → Channel) : (s.updChan i f).arg1 = s.arg1 := rfl
@[simp] theorem updChan_arg2 (s : State) (i : Engine) (f : Channel → Channel) : (s.updChan i f).arg2 = s.arg2 := rfl
@[simp] theorem updChan_result (s : State) (i : Engine) (f : Channel → Channel) : (s.updChan i f).result = s.result := rfl
@[simp] theorem updChan_rdata (s : State) (i : Engine) (f : Channel → Channel) : (s.updChan i f).rdata = s.rdata := rfl
@[simp] theorem updChan_irqStatus (s : State) (i : Engine) (f : Channel → Channel) : (s.updChan i f).irqStatus = s.irqStatus := rfl
@[simp] theorem updChan_irqEnable (s : State) (i : Engine) (f : Channel → Channel) : (s.updChan i f).irqEnable = s.irqEnable := rfl
@[simp] theorem updChan_fr (s : State) (i : Engine) (f : Channel → Channel) : (s.updChan i f).fr = s.fr := rfl
@[simp] theorem updChan_cmdState (s : State) (i : Engine) (f : Channel → Channel) : (s.updChan i f).cmdState = s.cmdState := rfl
@[simp] theorem updChan_events (s : State) (i : Engine) (f : Channel → Channel) : (s.updChan i f).events = s.events := rfl
@[simp] theorem updChan_faults (s : State) (i : Engine) (f : Channel → Channel) : (s.updChan i f).faults = s.faults := rfl
@[simp] theorem updChan_hostData (s : State) (i : Engine) (f : Channel → Channel) : (s.updChan i f).hostData = s.hostData := rfl
@[simp] theorem updChan_agenda (s : State) (i : Engine) (f : Channel → Channel) : (s.updChan i f).agenda = s.agenda := rfl

/-! ### `updCr` -/

@[simp] theorem updCr_par (s : State) (i : Engine) (f : Control → Control) : (s.updCr i f).par = s.par := rfl
@[simp] theorem updCr_mem (s : State) (i : Engine) (f : Control → Control) : (s.updCr i f).mem = s.mem := rfl
@[simp] theorem updCr_arg0 (s : State) (i : Engine) (f : Control → Control) : (s.updCr i f).arg0 = s.arg0 := rfl
@[simp] theorem updCr_arg1 (s : State) (i : Engine) (f : Control → Control) : (s.updCr i f).arg1 = s.arg1 := rfl
@[simp] theorem updCr_arg2 (s : State) (i : Engine) (f : Control → Control) : (s.updCr i f).arg2 = s.arg2 := rfl
@[simp] theorem updCr_result (s : State) (i : Engine) (f : Control → Control) : (s.updCr i f).result = s.result := rfl
@[simp] theorem updCr_rdata (s : State) (i : Engine) (f : Control → Control) : (s.updCr i f).rdata = s.rdata := rfl
@[simp] theorem updCr_irqStatus (s : State) (i : Engine) (f : Control → Control) : (s.updCr i f).irqStatus = s.irqStatus := rfl
@[simp] theorem updCr_irqEnable (s : State) (i : Engine) (f : Control → Control) : (s.updCr i f).irqEnable = s.irqEnable := rfl
@[simp] theorem updCr_fr (s : State) (i : Engine) (f : Control → Control) : (s.updCr i f).fr = s.fr := rfl
@[simp] theorem updCr_cmdState (s : State) (i : Engine) (f : Control → Control) : (s.updCr i f).cmdState = s.cmdState := rfl
@[simp] theorem updCr_events (s : State) (i : Engine) (f : Control → Control) : (s.updCr i f).events = s.events := rfl
@[simp] theorem updCr_faults (s : State) (i : Engine) (f : Control → Control) : (s.updCr i f).faults = s.faults := rfl
@[simp] theorem updCr_hostData (s : State) (i : Engine) (f : Control → Control) : (s.updCr i f).hostData = s.hostData := rfl
@[simp] theorem updCr_agenda (s : State) (i : Engine) (f : Control → Control) : (s.updCr i f).agenda = s.agenda := rfl

/-! ### `updTxd` -/

@[simp] theorem updTxd_par (s : State) (i : Engine) (f : Descriptor → Descriptor) : (s.updTxd i f).par = s.par := rfl
@[simp] theorem updTxd_mem (s : State) (i : Engine) (f : Descriptor → Descriptor) : (s.updTxd i f).mem = s.mem := rfl
@[simp] theorem updTxd_arg0 (s : State) (i : Engine) (f : Descriptor → Descriptor) : (s.updTxd i f).arg0 = s.arg0 := rfl
@[simp] theorem updTxd_arg1 (s : State) (i : Engine) (f : Descriptor → Descriptor) : (s.updTxd i f).arg1 = s.arg1 := rfl
@[simp] theorem updTxd_arg2 (s : State) (i : Engine) (f : Descriptor → Descriptor) : (s.updTxd i f).arg2 = s.arg2 := rfl
@[simp] theorem updTxd_result (s : State) (i : Engine) (f : Descriptor → Descriptor) : (s.updTxd i f).result = s.result := rfl
@[simp] theorem updTxd_rdata (s : State) (i : Engine) (f : Descriptor → Descriptor) : (s.updTxd i f).rdata = s.rdata := rfl
@[simp] theorem updTxd_irqStatus (s : State) (i : Engine) (f : Descriptor → Descriptor) : (s.updTxd i f).irqStatus = s.irqStatus := rfl
@[simp] theorem updTxd_irqEnable (s : State) (i : Engine) (f : Descriptor → Descriptor) : (s.updTxd i f).irqEnable = s.irqEnable := rfl
@[simp] theorem updTxd_fr (s : State) (i : Engine) (f : Descriptor → Descriptor) : (s.updTxd i f).fr = s.fr := rfl
@[simp] theorem updTxd_cmdState (s : State) (i : Engine) (f : Descriptor → Descriptor) : (s.updTxd i f).cmdState = s.cmdState := rfl
@[simp] theorem updTxd_events (s : State) (i : Engine) (f : Descriptor → Descriptor) : (s.updTxd i f).events = s.events := rfl
@[simp] theorem updTxd_faults (s : State) (i : Engine) (f : Descriptor → Descriptor) : (s.updTxd i f).faults = s.faults := rfl
@[simp] theorem updTxd_hostData (s : State) (i : Engine) (f : Descriptor → Descriptor) : (s.updTxd i f).hostData = s.hostData := rfl
@[simp] theorem updTxd_agenda (s : State) (i : Engine) (f : Descriptor → Descriptor) : (s.updTxd i f).agenda = s.agenda := rfl

/-! ### `updRxd` -/

@[simp] theorem updRxd_par (s : State) (i : Engine) (f : Descriptor → Descriptor) : (s.updRxd i f).par = s.par := rfl
@[simp] theorem updRxd_mem (s : State) (i : Engine) (f : Descriptor → Descriptor) : (s.updRxd i f).mem = s.mem := rfl
@[simp] theorem updRxd_arg0 (s : State) (i : Engine) (f : Descriptor → Descriptor) : (s.updRxd i f).arg0 = s.arg0 := rfl
@[simp] theorem updRxd_arg1 (s : State) (i : Engine) (f : Descriptor → Descriptor) : (s.updRxd i f).arg1 = s.arg1 := rfl
@[simp] theorem updRxd_arg2 (s : State) (i : Engine) (f : Descriptor → Descriptor) : (s.updRxd i f).arg2 = s.arg2 := rfl
@[simp] theorem updRxd_result (s : State) (i : Engine) (f : Descriptor → Descriptor) : (s.updRxd i f).result = s.result := rfl
@[simp] theorem updRxd_rdata (s : State) (i : Engine) (f : Descriptor → Descriptor) : (s.updRxd i f).rdata = s.rdata := rfl
@[simp] theorem updRxd_irqStatus (s : State) (i : Engine) (f : Descriptor → Descriptor) : (s.updRxd i f).irqStatus = s.irqStatus := rfl
@[simp] theorem updRxd_irqEnable (s : State) (i : Engine) (f : Descriptor → Descriptor) : (s.updRxd i f).irqEnable = s.irqEnable := rfl
@[simp] theorem updRxd_fr (s : State) (i : Engine) (f : Descriptor → Descriptor) : (s.updRxd i f).fr = s.fr := rfl
@[simp] theorem updRxd_cmdState (s : State) (i : Engine) (f : Descriptor → Descriptor) : (s.updRxd i f).cmdState = s.cmdState := rfl
@[simp] theorem updRxd_events (s : State) (i : Engine) (f : Descriptor → Descriptor) : (s.updRxd i f).events = s.events := rfl
@[simp] theorem updRxd_faults (s : State) (i : Engine) (f : Descriptor → Descriptor) : (s.updRxd i f).faults = s.faults := rfl
@[simp] theorem updRxd_hostData (s : State) (i : Engine) (f : Descriptor → Descriptor) : (s.updRxd i f).hostData = s.hostData := rfl
@[simp] theorem updRxd_agenda (s : State) (i : Engine) (f : Descriptor → Descriptor) : (s.updRxd i f).agenda = s.agenda := rfl

/-! ### `updFr` -/

@[simp] theorem updFr_par (s : State) (f : FrameContext → FrameContext) : (s.updFr f).par = s.par := rfl
@[simp] theorem updFr_mem (s : State) (f : FrameContext → FrameContext) : (s.updFr f).mem = s.mem := rfl
@[simp] theorem updFr_arg0 (s : State) (f : FrameContext → FrameContext) : (s.updFr f).arg0 = s.arg0 := rfl
@[simp] theorem updFr_arg1 (s : State) (f : FrameContext → FrameContext) : (s.updFr f).arg1 = s.arg1 := rfl
@[simp] theorem updFr_arg2 (s : State) (f : FrameContext → FrameContext) : (s.updFr f).arg2 = s.arg2 := rfl
@[simp] theorem updFr_result (s : State) (f : FrameContext → FrameContext) : (s.updFr f).result = s.result := rfl
@[simp] theorem updFr_rdata (s : State) (f : FrameContext → FrameContext) : (s.updFr f).rdata = s.rdata := rfl
@[simp] theorem updFr_irqStatus (s : State) (f : FrameContext → FrameContext) : (s.updFr f).irqStatus = s.irqStatus := rfl
@[simp] theorem updFr_irqEnable (s : State) (f : FrameContext → FrameContext) : (s.updFr f).irqEnable = s.irqEnable := rfl
@[simp] theorem updFr_chans (s : State) (f : FrameContext → FrameContext) : (s.updFr f).chans = s.chans := rfl
@[simp] theorem updFr_fr (s : State) (f : FrameContext → FrameContext) : (s.updFr f).fr = f s.fr := rfl
@[simp] theorem updFr_cmdState (s : State) (f : FrameContext → FrameContext) : (s.updFr f).cmdState = s.cmdState := rfl
@[simp] theorem updFr_events (s : State) (f : FrameContext → FrameContext) : (s.updFr f).events = s.events := rfl
@[simp] theorem updFr_faults (s : State) (f : FrameContext → FrameContext) : (s.updFr f).faults = s.faults := rfl
@[simp] theorem updFr_hostData (s : State) (f : FrameContext → FrameContext) : (s.updFr f).hostData = s.hostData := rfl
@[simp] theorem updFr_agenda (s : State) (f : FrameContext → FrameContext) : (s.updFr f).agenda = s.agenda := rfl
@[simp] theorem updFr_chan (s : State) (f : FrameContext → FrameContext) (j : Engine) : (s.updFr f).chan j = s.chan j := rfl

/-! ### `setCmdState` -/

@[simp] theorem setCmdState_par (s : State) (c : CmdState) : (s.setCmdState c).par = s.par := rfl
@[simp] theorem setCmdState_mem (s : State) (c : CmdState) : (s.setCmdState c).mem = s.mem := rfl
@[simp] theorem setCmdState_arg0 (s : State) (c : CmdState) : (s.setCmdState c).arg0 = s.arg0 := rfl
@[simp] theorem setCmdState_arg1 (s : State) (c : CmdState) : (s.setCmdState c).arg1 = s.arg1 := rfl
@[simp] theorem setCmdState_arg2 (s : State) (c : CmdState) : (s.setCmdState c).arg2 = s.arg2 := rfl
@[simp] theorem setCmdState_result (s : State) (c : CmdState) : (s.setCmdState c).result = s.result := rfl
@[simp] theorem setCmdState_rdata (s : State) (c : CmdState) : (s.setCmdState c).rdata = s.rdata := rfl
@[simp] theorem setCmdState_irqStatus (s : State) (c : CmdState) : (s.setCmdState c).irqStatus = s.irqStatus := rfl
@[simp] theorem setCmdState_irqEnable (s : State) (c : CmdState) : (s.setCmdState c).irqEnable = s.irqEnable := rfl
@[simp] theorem setCmdState_chans (s : State) (c : CmdState) : (s.setCmdState c).chans = s.chans := rfl
@[simp] theorem setCmdState_fr (s : State) (c : CmdState) : (s.setCmdState c).fr = s.fr := rfl
@[simp] theorem setCmdState_cmdState (s : State) (c : CmdState) : (s.setCmdState c).cmdState = c := rfl
@[simp] theorem setCmdState_events (s : State) (c : CmdState) : (s.setCmdState c).events = s.events := rfl
@[simp] theorem setCmdState_faults (s : State) (c : CmdState) : (s.setCmdState c).faults = s.faults := rfl
@[simp] theorem setCmdState_hostData (s : State) (c : CmdState) : (s.setCmdState c).hostData = s.hostData := rfl
@[simp] theorem setCmdState_agenda (s : State) (c : CmdState) : (s.setCmdState c).agenda = s.agenda := rfl
@[simp] theorem setCmdState_chan (s : State) (c : CmdState) (j : Engine) : (s.setCmdState c).chan j = s.chan j := rfl

/-! ### `txPush` -/

@[simp] theorem txPush_par (i : Engine) (b : Byte) (s : State) : (txPush i b s).par = s.par := rfl
@[simp] theorem txPush_mem (i : Engine) (b : Byte) (s : State) : (txPush i b s).mem = s.mem := rfl
@[simp] theorem txPush_arg0 (i : Engine) (b : Byte) (s : State) : (txPush i b s).arg0 = s.arg0 := rfl
@[simp] theorem txPush_arg1 (i : Engine) (b : Byte) (s : State) : (txPush i b s).arg1 = s.arg1 := rfl
@[simp] theorem txPush_arg2 (i : Engine) (b : Byte) (s : State) : (txPush i b s).arg2 = s.arg2 := rfl
@[simp] theorem txPush_result (i : Engine) (b : Byte) (s : State) : (txPush i b s).result = s.result := rfl
@[simp] theorem txPush_rdata (i : Engine) (b : Byte) (s : State) : (txPush i b s).rdata = s.rdata := rfl
@[simp] theorem txPush_irqStatus (i : Engine) (b : Byte) (s : State) : (txPush i b s).irqStatus = s.irqStatus := rfl
@[simp] theorem txPush_irqEnable (i : Engine) (b : Byte) (s : State) : (txPush i b s).irqEnable = s.irqEnable := rfl
@[simp] theorem txPush_fr (i : Engine) (b : Byte) (s : State) : (txPush i b s).fr = s.fr := rfl
@[simp] theorem txPush_cmdState (i : Engine) (b : Byte) (s : State) : (txPush i b s).cmdState = s.cmdState := rfl
@[simp] theorem txPush_events (i : Engine) (b : Byte) (s : State) : (txPush i b s).events = s.events := rfl
@[simp] theorem txPush_faults (i : Engine) (b : Byte) (s : State) : (txPush i b s).faults = s.faults := rfl
@[simp] theorem txPush_hostData (i : Engine) (b : Byte) (s : State) : (txPush i b s).hostData = s.hostData := rfl
@[simp] theorem txPush_agenda (i : Engine) (b : Byte) (s : State) : (txPush i b s).agenda = s.agenda := rfl

/-! ### `txDrop` -/

@[simp] theorem txDrop_par (i : Engine) (s : State) : (txDrop i s).par = s.par := rfl
@[simp] theorem txDrop_mem (i : Engine) (s : State) : (txDrop i s).mem = s.mem := rfl
@[simp] theorem txDrop_arg0 (i : Engine) (s : State) : (txDrop i s).arg0 = s.arg0 := rfl
@[simp] theorem txDrop_arg1 (i : Engine) (s : State) : (txDrop i s).arg1 = s.arg1 := rfl
@[simp] theorem txDrop_arg2 (i : Engine) (s : State) : (txDrop i s).arg2 = s.arg2 := rfl
@[simp] theorem txDrop_result (i : Engine) (s : State) : (txDrop i s).result = s.result := rfl
@[simp] theorem txDrop_rdata (i : Engine) (s : State) : (txDrop i s).rdata = s.rdata := rfl
@[simp] theorem txDrop_irqStatus (i : Engine) (s : State) : (txDrop i s).irqStatus = s.irqStatus := rfl
@[simp] theorem txDrop_irqEnable (i : Engine) (s : State) : (txDrop i s).irqEnable = s.irqEnable := rfl
@[simp] theorem txDrop_fr (i : Engine) (s : State) : (txDrop i s).fr = s.fr := rfl
@[simp] theorem txDrop_cmdState (i : Engine) (s : State) : (txDrop i s).cmdState = s.cmdState := rfl
@[simp] theorem txDrop_events (i : Engine) (s : State) : (txDrop i s).events = s.events := rfl
@[simp] theorem txDrop_faults (i : Engine) (s : State) : (txDrop i s).faults = s.faults := rfl
@[simp] theorem txDrop_hostData (i : Engine) (s : State) : (txDrop i s).hostData = s.hostData := rfl
@[simp] theorem txDrop_agenda (i : Engine) (s : State) : (txDrop i s).agenda = s.agenda := rfl

/-! ### `rxPush` -/

@[simp] theorem rxPush_par (i : Engine) (b : Byte) (s : State) : (rxPush i b s).par = s.par := rfl
@[simp] theorem rxPush_mem (i : Engine) (b : Byte) (s : State) : (rxPush i b s).mem = s.mem := rfl
@[simp] theorem rxPush_arg0 (i : Engine) (b : Byte) (s : State) : (rxPush i b s).arg0 = s.arg0 := rfl
@[simp] theorem rxPush_arg1 (i : Engine) (b : Byte) (s : State) : (rxPush i b s).arg1 = s.arg1 := rfl
@[simp] theorem rxPush_arg2 (i : Engine) (b : Byte) (s : State) : (rxPush i b s).arg2 = s.arg2 := rfl
@[simp] theorem rxPush_result (i : Engine) (b : Byte) (s : State) : (rxPush i b s).result = s.result := rfl
@[simp] theorem rxPush_rdata (i : Engine) (b : Byte) (s : State) : (rxPush i b s).rdata = s.rdata := rfl
@[simp] theorem rxPush_irqStatus (i : Engine) (b : Byte) (s : State) : (rxPush i b s).irqStatus = s.irqStatus := rfl
@[simp] theorem rxPush_irqEnable (i : Engine) (b : Byte) (s : State) : (rxPush i b s).irqEnable = s.irqEnable := rfl
@[simp] theorem rxPush_fr (i : Engine) (b : Byte) (s : State) : (rxPush i b s).fr = s.fr := rfl
@[simp] theorem rxPush_cmdState (i : Engine) (b : Byte) (s : State) : (rxPush i b s).cmdState = s.cmdState := rfl
@[simp] theorem rxPush_events (i : Engine) (b : Byte) (s : State) : (rxPush i b s).events = s.events := rfl
@[simp] theorem rxPush_faults (i : Engine) (b : Byte) (s : State) : (rxPush i b s).faults = s.faults := rfl
@[simp] theorem rxPush_hostData (i : Engine) (b : Byte) (s : State) : (rxPush i b s).hostData = s.hostData := rfl
@[simp] theorem rxPush_agenda (i : Engine) (b : Byte) (s : State) : (rxPush i b s).agenda = s.agenda := rfl

/-! ### `rxDrop` -/

@[simp] theorem rxDrop_par (i : Engine) (s : State) : (rxDrop i s).par = s.par := rfl
@[simp] theorem rxDrop_mem (i : Engine) (s : State) : (rxDrop i s).mem = s.mem := rfl
@[simp] theorem rxDrop_arg0 (i : Engine) (s : State) : (rxDrop i s).arg0 = s.arg0 := rfl
@[simp] theorem rxDrop_arg1 (i : Engine) (s : State) : (rxDrop i s).arg1 = s.arg1 := rfl
@[simp] theorem rxDrop_arg2 (i : Engine) (s : State) : (rxDrop i s).arg2 = s.arg2 := rfl
@[simp] theorem rxDrop_result (i : Engine) (s : State) : (rxDrop i s).result = s.result := rfl
@[simp] theorem rxDrop_rdata (i : Engine) (s : State) : (rxDrop i s).rdata = s.rdata := rfl
@[simp] theorem rxDrop_irqStatus (i : Engine) (s : State) : (rxDrop i s).irqStatus = s.irqStatus := rfl
@[simp] theorem rxDrop_irqEnable (i : Engine) (s : State) : (rxDrop i s).irqEnable = s.irqEnable := rfl
@[simp] theorem rxDrop_fr (i : Engine) (s : State) : (rxDrop i s).fr = s.fr := rfl
@[simp] theorem rxDrop_cmdState (i : Engine) (s : State) : (rxDrop i s).cmdState = s.cmdState := rfl
@[simp] theorem rxDrop_events (i : Engine) (s : State) : (rxDrop i s).events = s.events := rfl
@[simp] theorem rxDrop_faults (i : Engine) (s : State) : (rxDrop i s).faults = s.faults := rfl
@[simp] theorem rxDrop_hostData (i : Engine) (s : State) : (rxDrop i s).hostData = s.hostData := rfl
@[simp] theorem rxDrop_agenda (i : Engine) (s : State) : (rxDrop i s).agenda = s.agenda := rfl

/-! ### `emit` -/

@[simp] theorem emit_par (e : Event) (s : State) : (emit e s).par = s.par := rfl
@[simp] theorem emit_mem (e : Event) (s : State) : (emit e s).mem = s.mem := rfl
@[simp] theorem emit_arg0 (e : Event) (s : State) : (emit e s).arg0 = s.arg0 := rfl
@[simp] theorem emit_arg1 (e : Event) (s : State) : (emit e s).arg1 = s.arg1 := rfl
@[simp] theorem emit_arg2 (e : Event) (s : State) : (emit e s).arg2 = s.arg2 := rfl
@[simp] theorem emit_result (e : Event) (s : State) : (emit e s).result = s.result := rfl
@[simp] theorem emit_rdata (e : Event) (s : State) : (emit e s).rdata = s.rdata := rfl
@[simp] theorem emit_irqStatus (e : Event) (s : State) : (emit e s).irqStatus = s.irqStatus := rfl
@[simp] theorem emit_irqEnable (e : Event) (s : State) : (emit e s).irqEnable = s.irqEnable := rfl
@[simp] theorem emit_chans (e : Event) (s : State) : (emit e s).chans = s.chans := rfl
@[simp] theorem emit_fr (e : Event) (s : State) : (emit e s).fr = s.fr := rfl
@[simp] theorem emit_cmdState (e : Event) (s : State) : (emit e s).cmdState = s.cmdState := rfl
@[simp] theorem emit_events (e : Event) (s : State) : (emit e s).events = s.events ++ [e] := rfl
@[simp] theorem emit_faults (e : Event) (s : State) : (emit e s).faults = s.faults := rfl
@[simp] theorem emit_hostData (e : Event) (s : State) : (emit e s).hostData = s.hostData := rfl
@[simp] theorem emit_agenda (e : Event) (s : State) : (emit e s).agenda = s.agenda := rfl
@[simp] theorem emit_chan (e : Event) (s : State) (j : Engine) : (emit e s).chan j = s.chan j := rfl

/-! ### `finish` -/

@[simp] theorem finish_par (op : CmdOp) (code : ResultCode) (s : State) : (finish op code s).par = s.par := rfl
@[simp] theorem finish_mem (op : CmdOp) (code : ResultCode) (s : State) : (finish op code s).mem = s.mem := rfl
@[simp] theorem finish_arg0 (op : CmdOp) (code : ResultCode) (s : State) : (finish op code s).arg0 = s.arg0 := rfl
@[simp] theorem finish_arg1 (op : CmdOp) (code : ResultCode) (s : State) : (finish op code s).arg1 = s.arg1 := rfl
@[simp] theorem finish_arg2 (op : CmdOp) (code : ResultCode) (s : State) : (finish op code s).arg2 = s.arg2 := rfl
@[simp] theorem finish_result (op : CmdOp) (code : ResultCode) (s : State) : (finish op code s).result = code := rfl
@[simp] theorem finish_rdata (op : CmdOp) (code : ResultCode) (s : State) : (finish op code s).rdata = s.rdata := rfl
@[simp] theorem finish_irqStatus (op : CmdOp) (code : ResultCode) (s : State) : (finish op code s).irqStatus = s.irqStatus := rfl
@[simp] theorem finish_irqEnable (op : CmdOp) (code : ResultCode) (s : State) : (finish op code s).irqEnable = s.irqEnable := rfl
@[simp] theorem finish_chans (op : CmdOp) (code : ResultCode) (s : State) : (finish op code s).chans = s.chans := rfl
@[simp] theorem finish_fr (op : CmdOp) (code : ResultCode) (s : State) : (finish op code s).fr = s.fr := rfl
@[simp] theorem finish_cmdState (op : CmdOp) (code : ResultCode) (s : State) : (finish op code s).cmdState = s.cmdState := rfl
@[simp] theorem finish_events (op : CmdOp) (code : ResultCode) (s : State) : (finish op code s).events = s.events ++ [.cmdDone op code] := rfl
@[simp] theorem finish_faults (op : CmdOp) (code : ResultCode) (s : State) : (finish op code s).faults = s.faults := rfl
@[simp] theorem finish_hostData (op : CmdOp) (code : ResultCode) (s : State) : (finish op code s).hostData = s.hostData := rfl
@[simp] theorem finish_agenda (op : CmdOp) (code : ResultCode) (s : State) : (finish op code s).agenda = s.agenda := rfl
@[simp] theorem finish_chan (op : CmdOp) (code : ResultCode) (s : State) (j : Engine) : (finish op code s).chan j = s.chan j := rfl

/-! ### `setIrq` -/

@[simp] theorem setIrq_par (b : Nat) (s : State) : (setIrq b s).par = s.par := rfl
@[simp] theorem setIrq_mem (b : Nat) (s : State) : (setIrq b s).mem = s.mem := rfl
@[simp] theorem setIrq_arg0 (b : Nat) (s : State) : (setIrq b s).arg0 = s.arg0 := rfl
@[simp] theorem setIrq_arg1 (b : Nat) (s : State) : (setIrq b s).arg1 = s.arg1 := rfl
@[simp] theorem setIrq_arg2 (b : Nat) (s : State) : (setIrq b s).arg2 = s.arg2 := rfl
@[simp] theorem setIrq_result (b : Nat) (s : State) : (setIrq b s).result = s.result := rfl
@[simp] theorem setIrq_rdata (b : Nat) (s : State) : (setIrq b s).rdata = s.rdata := rfl
@[simp] theorem setIrq_irqStatus (b : Nat) (s : State) : (setIrq b s).irqStatus = s.irqStatus ||| (1#32 <<< b) := rfl
@[simp] theorem setIrq_irqEnable (b : Nat) (s : State) : (setIrq b s).irqEnable = s.irqEnable := rfl
@[simp] theorem setIrq_chans (b : Nat) (s : State) : (setIrq b s).chans = s.chans := rfl
@[simp] theorem setIrq_fr (b : Nat) (s : State) : (setIrq b s).fr = s.fr := rfl
@[simp] theorem setIrq_cmdState (b : Nat) (s : State) : (setIrq b s).cmdState = s.cmdState := rfl
@[simp] theorem setIrq_events (b : Nat) (s : State) : (setIrq b s).events = s.events := rfl
@[simp] theorem setIrq_faults (b : Nat) (s : State) : (setIrq b s).faults = s.faults := rfl
@[simp] theorem setIrq_hostData (b : Nat) (s : State) : (setIrq b s).hostData = s.hostData := rfl
@[simp] theorem setIrq_agenda (b : Nat) (s : State) : (setIrq b s).agenda = s.agenda := rfl
@[simp] theorem setIrq_chan (b : Nat) (s : State) (j : Engine) : (setIrq b s).chan j = s.chan j := rfl

/-! ### `raise` -/

@[simp] theorem raise_par (f : ModelFault) (s : State) : (raise f s).par = s.par := rfl
@[simp] theorem raise_mem (f : ModelFault) (s : State) : (raise f s).mem = s.mem := rfl
@[simp] theorem raise_arg0 (f : ModelFault) (s : State) : (raise f s).arg0 = s.arg0 := rfl
@[simp] theorem raise_arg1 (f : ModelFault) (s : State) : (raise f s).arg1 = s.arg1 := rfl
@[simp] theorem raise_arg2 (f : ModelFault) (s : State) : (raise f s).arg2 = s.arg2 := rfl
@[simp] theorem raise_result (f : ModelFault) (s : State) : (raise f s).result = s.result := rfl
@[simp] theorem raise_rdata (f : ModelFault) (s : State) : (raise f s).rdata = s.rdata := rfl
@[simp] theorem raise_irqStatus (f : ModelFault) (s : State) : (raise f s).irqStatus = s.irqStatus := rfl
@[simp] theorem raise_irqEnable (f : ModelFault) (s : State) : (raise f s).irqEnable = s.irqEnable := rfl
@[simp] theorem raise_chans (f : ModelFault) (s : State) : (raise f s).chans = s.chans := rfl
@[simp] theorem raise_fr (f : ModelFault) (s : State) : (raise f s).fr = s.fr := rfl
@[simp] theorem raise_cmdState (f : ModelFault) (s : State) : (raise f s).cmdState = s.cmdState := rfl
@[simp] theorem raise_events (f : ModelFault) (s : State) : (raise f s).events = s.events := rfl
@[simp] theorem raise_faults (f : ModelFault) (s : State) : (raise f s).faults = if f ∈ s.faults then s.faults else s.faults ++ [f] := rfl
@[simp] theorem raise_hostData (f : ModelFault) (s : State) : (raise f s).hostData = s.hostData := rfl
@[simp] theorem raise_agenda (f : ModelFault) (s : State) : (raise f s).agenda = s.agenda := rfl
@[simp] theorem raise_chan (f : ModelFault) (s : State) (j : Engine) : (raise f s).chan j = s.chan j := rfl

/-! ### `setMem` -/

@[simp] theorem setMem_par (s : State) (m : Memory) : (s.setMem m).par = s.par := rfl
@[simp] theorem setMem_mem (s : State) (m : Memory) : (s.setMem m).mem = m := rfl
@[simp] theorem setMem_arg0 (s : State) (m : Memory) : (s.setMem m).arg0 = s.arg0 := rfl
@[simp] theorem setMem_arg1 (s : State) (m : Memory) : (s.setMem m).arg1 = s.arg1 := rfl
@[simp] theorem setMem_arg2 (s : State) (m : Memory) : (s.setMem m).arg2 = s.arg2 := rfl
@[simp] theorem setMem_result (s : State) (m : Memory) : (s.setMem m).result = s.result := rfl
@[simp] theorem setMem_rdata (s : State) (m : Memory) : (s.setMem m).rdata = s.rdata := rfl
@[simp] theorem setMem_irqStatus (s : State) (m : Memory) : (s.setMem m).irqStatus = s.irqStatus := rfl
@[simp] theorem setMem_irqEnable (s : State) (m : Memory) : (s.setMem m).irqEnable = s.irqEnable := rfl
@[simp] theorem setMem_chans (s : State) (m : Memory) : (s.setMem m).chans = s.chans := rfl
@[simp] theorem setMem_fr (s : State) (m : Memory) : (s.setMem m).fr = s.fr := rfl
@[simp] theorem setMem_cmdState (s : State) (m : Memory) : (s.setMem m).cmdState = s.cmdState := rfl
@[simp] theorem setMem_events (s : State) (m : Memory) : (s.setMem m).events = s.events := rfl
@[simp] theorem setMem_faults (s : State) (m : Memory) : (s.setMem m).faults = s.faults := rfl
@[simp] theorem setMem_hostData (s : State) (m : Memory) : (s.setMem m).hostData = s.hostData := rfl
@[simp] theorem setMem_agenda (s : State) (m : Memory) : (s.setMem m).agenda = s.agenda := rfl
@[simp] theorem setMem_chan (s : State) (m : Memory) (j : Engine) : (s.setMem m).chan j = s.chan j := rfl

/-! ### `setRdata` -/

@[simp] theorem setRdata_par (s : State) (v : Word) : (s.setRdata v).par = s.par := rfl
@[simp] theorem setRdata_mem (s : State) (v : Word) : (s.setRdata v).mem = s.mem := rfl
@[simp] theorem setRdata_arg0 (s : State) (v : Word) : (s.setRdata v).arg0 = s.arg0 := rfl
@[simp] theorem setRdata_arg1 (s : State) (v : Word) : (s.setRdata v).arg1 = s.arg1 := rfl
@[simp] theorem setRdata_arg2 (s : State) (v : Word) : (s.setRdata v).arg2 = s.arg2 := rfl
@[simp] theorem setRdata_result (s : State) (v : Word) : (s.setRdata v).result = s.result := rfl
@[simp] theorem setRdata_rdata (s : State) (v : Word) : (s.setRdata v).rdata = v := rfl
@[simp] theorem setRdata_irqStatus (s : State) (v : Word) : (s.setRdata v).irqStatus = s.irqStatus := rfl
@[simp] theorem setRdata_irqEnable (s : State) (v : Word) : (s.setRdata v).irqEnable = s.irqEnable := rfl
@[simp] theorem setRdata_chans (s : State) (v : Word) : (s.setRdata v).chans = s.chans := rfl
@[simp] theorem setRdata_fr (s : State) (v : Word) : (s.setRdata v).fr = s.fr := rfl
@[simp] theorem setRdata_cmdState (s : State) (v : Word) : (s.setRdata v).cmdState = s.cmdState := rfl
@[simp] theorem setRdata_events (s : State) (v : Word) : (s.setRdata v).events = s.events := rfl
@[simp] theorem setRdata_faults (s : State) (v : Word) : (s.setRdata v).faults = s.faults := rfl
@[simp] theorem setRdata_hostData (s : State) (v : Word) : (s.setRdata v).hostData = s.hostData := rfl
@[simp] theorem setRdata_agenda (s : State) (v : Word) : (s.setRdata v).agenda = s.agenda := rfl
@[simp] theorem setRdata_chan (s : State) (v : Word) (j : Engine) : (s.setRdata v).chan j = s.chan j := rfl

/-! ### `setHostData` -/

@[simp] theorem setHostData_par (s : State) (v : Word) : (s.setHostData v).par = s.par := rfl
@[simp] theorem setHostData_mem (s : State) (v : Word) : (s.setHostData v).mem = s.mem := rfl
@[simp] theorem setHostData_arg0 (s : State) (v : Word) : (s.setHostData v).arg0 = s.arg0 := rfl
@[simp] theorem setHostData_arg1 (s : State) (v : Word) : (s.setHostData v).arg1 = s.arg1 := rfl
@[simp] theorem setHostData_arg2 (s : State) (v : Word) : (s.setHostData v).arg2 = s.arg2 := rfl
@[simp] theorem setHostData_result (s : State) (v : Word) : (s.setHostData v).result = s.result := rfl
@[simp] theorem setHostData_rdata (s : State) (v : Word) : (s.setHostData v).rdata = s.rdata := rfl
@[simp] theorem setHostData_irqStatus (s : State) (v : Word) : (s.setHostData v).irqStatus = s.irqStatus := rfl
@[simp] theorem setHostData_irqEnable (s : State) (v : Word) : (s.setHostData v).irqEnable = s.irqEnable := rfl
@[simp] theorem setHostData_chans (s : State) (v : Word) : (s.setHostData v).chans = s.chans := rfl
@[simp] theorem setHostData_fr (s : State) (v : Word) : (s.setHostData v).fr = s.fr := rfl
@[simp] theorem setHostData_cmdState (s : State) (v : Word) : (s.setHostData v).cmdState = s.cmdState := rfl
@[simp] theorem setHostData_events (s : State) (v : Word) : (s.setHostData v).events = s.events := rfl
@[simp] theorem setHostData_faults (s : State) (v : Word) : (s.setHostData v).faults = s.faults := rfl
@[simp] theorem setHostData_hostData (s : State) (v : Word) : (s.setHostData v).hostData = v := rfl
@[simp] theorem setHostData_agenda (s : State) (v : Word) : (s.setHostData v).agenda = s.agenda := rfl
@[simp] theorem setHostData_chan (s : State) (v : Word) (j : Engine) : (s.setHostData v).chan j = s.chan j := rfl

/-! ### `setAgenda` -/

@[simp] theorem setAgenda_par (s : State) (l : List Action) : (s.setAgenda l).par = s.par := rfl
@[simp] theorem setAgenda_mem (s : State) (l : List Action) : (s.setAgenda l).mem = s.mem := rfl
@[simp] theorem setAgenda_arg0 (s : State) (l : List Action) : (s.setAgenda l).arg0 = s.arg0 := rfl
@[simp] theorem setAgenda_arg1 (s : State) (l : List Action) : (s.setAgenda l).arg1 = s.arg1 := rfl
@[simp] theorem setAgenda_arg2 (s : State) (l : List Action) : (s.setAgenda l).arg2 = s.arg2 := rfl
@[simp] theorem setAgenda_result (s : State) (l : List Action) : (s.setAgenda l).result = s.result := rfl
@[simp] theorem setAgenda_rdata (s : State) (l : List Action) : (s.setAgenda l).rdata = s.rdata := rfl
@[simp] theorem setAgenda_irqStatus (s : State) (l : List Action) : (s.setAgenda l).irqStatus = s.irqStatus := rfl
@[simp] theorem setAgenda_irqEnable (s : State) (l : List Action) : (s.setAgenda l).irqEnable = s.irqEnable := rfl
@[simp] theorem setAgenda_chans (s : State) (l : List Action) : (s.setAgenda l).chans = s.chans := rfl
@[simp] theorem setAgenda_fr (s : State) (l : List Action) : (s.setAgenda l).fr = s.fr := rfl
@[simp] theorem setAgenda_cmdState (s : State) (l : List Action) : (s.setAgenda l).cmdState = s.cmdState := rfl
@[simp] theorem setAgenda_events (s : State) (l : List Action) : (s.setAgenda l).events = s.events := rfl
@[simp] theorem setAgenda_faults (s : State) (l : List Action) : (s.setAgenda l).faults = s.faults := rfl
@[simp] theorem setAgenda_hostData (s : State) (l : List Action) : (s.setAgenda l).hostData = s.hostData := rfl
@[simp] theorem setAgenda_agenda (s : State) (l : List Action) : (s.setAgenda l).agenda = l := rfl
@[simp] theorem setAgenda_chan (s : State) (l : List Action) (j : Engine) : (s.setAgenda l).chan j = s.chan j := rfl

/-! ### Equal states -/

/-- States with equal channels and equal other fields are equal. -/
theorem State.ext_chan {s t : State} (par : s.par = t.par) (mem : s.mem = t.mem) (arg0 : s.arg0 = t.arg0)
    (arg1 : s.arg1 = t.arg1) (arg2 : s.arg2 = t.arg2) (result : s.result = t.result) (rdata : s.rdata = t.rdata)
    (irqStatus : s.irqStatus = t.irqStatus) (irqEnable : s.irqEnable = t.irqEnable)
    (chan : ∀ i, s.chan i = t.chan i) (fr : s.fr = t.fr) (cmdState : s.cmdState = t.cmdState)
    (events : s.events = t.events) (faults : s.faults = t.faults) (hostData : s.hostData = t.hostData)
    (agenda : s.agenda = t.agenda) : s = t := by
  have hc : s.chans = t.chans := Vector.ext fun k hk => chan ⟨k, hk⟩
  cases s
  cases t
  simp_all

/-! ### Reads that are admitted or refused -/

theorem memRead_ok {a : Nat} {s : State} {b : Byte} :
    memRead a s = .ok b ↔ readAdmitted s.par a = true ∧ s.mem.read a = b := by
  unfold memRead; split <;> rename_i h <;> simp [h]

theorem memRead_error {a : Nat} {s : State} {f : ModelFault} :
    memRead a s = .error f ↔ readAdmitted s.par a = false ∧ f = .busError a := by
  unfold memRead; split <;> rename_i h <;> simp [h, eq_comm]

end Sys2Proof.Machine
end

