-- ==== Sys2Proof/Laws/Memory.lean ====
section
/-! SUPPORT. The laws of system memory: reading after a write, and that every operation keeps the canonical form. -/

namespace Sys2Proof.Machine

@[simp] theorem Memory.read_nil (a : Nat) : Memory.read [] a = unlistedByte := rfl

theorem Memory.read_cons (k : Nat) (c : Byte) (m : Memory) (a : Nat) :
    Memory.read ((k, c) :: m) a = if k = a then c else Memory.read m a := rfl

/-- Below the first listed address nothing is listed. -/
theorem Memory.read_below {m : Memory} {a : Nat} (h : ∀ x ∈ m, a < x.1) : m.read a = unlistedByte := by
  induction m with
  | nil => rfl
  | cons x m ih =>
    have hx := h x (by simp)
    obtain ⟨k, c⟩ := x
    rw [Memory.read_cons, if_neg (by simp at hx; omega)]
    exact ih fun y hy => h y (by simp [hy])

theorem read_consCell (a : Nat) (b : Byte) (m : Memory) (x : Nat) (h : ∀ y ∈ m, a < y.1) :
    (consCell a b m).read x = if x = a then b else m.read x := by
  unfold consCell
  split
  · rename_i hb
    by_cases hx : x = a
    · subst hx; rw [if_pos rfl, hb]; exact Memory.read_below h
    · rw [if_neg hx]
  · rw [Memory.read_cons]
    by_cases hx : x = a
    · simp [hx]
    · rw [if_neg (Ne.symm hx), if_neg hx]

/-- The one law of a byte write. -/
theorem Memory.read_write {m : Memory} (hm : m.Pairwise (fun x y => x.1 < y.1)) (a : Nat) (b : Byte) (x : Nat) :
    (m.write a b).read x = if x = a then b else m.read x := by
  induction m with
  | nil => simpa [Memory.write] using read_consCell a b [] x (by simp)
  | cons y m ih =>
    obtain ⟨k, c⟩ := y
    rw [List.pairwise_cons] at hm
    obtain ⟨hk, hm⟩ := hm
    unfold Memory.write
    split
    · rename_i hlt
      exact read_consCell a b _ x (by
        intro y hy
        rcases List.mem_cons.mp hy with rfl | hy
        · exact hlt
        · exact hlt.trans (hk y hy))
    · split
      · rename_i _ hak
        subst hak
        rw [read_consCell a b m x hk, Memory.read_cons]
        by_cases hx : x = a
        · simp [hx]
        · simp [hx, Ne.symm hx]
      · rename_i _ hak
        rw [Memory.read_cons, Memory.read_cons, ih hm]
        by_cases hx : k = x
        · subst hx; simp [Ne.symm hak]
        · simp [hx]

theorem Memory.read_write_self {m : Memory} (hm : m.wf) (a : Nat) (b : Byte) : (m.write a b).read a = b := by
  simp [Memory.read_write hm.1]

theorem Memory.read_write_other {m : Memory} (hm : m.wf) {a x : Nat} (b : Byte) (h : x ≠ a) :
    (m.write a b).read x = m.read x := by simp [Memory.read_write hm.1, h]

theorem mem_consCell {a : Nat} {b : Byte} {m : Memory} {x : Host.Cell} (h : x ∈ consCell a b m) :
    (x = (a, b) ∧ b ≠ unlistedByte) ∨ x ∈ m := by
  unfold consCell at h
  split at h
  · exact .inr h
  · rename_i hb
    rcases List.mem_cons.mp h with h | h
    · exact .inl ⟨h, hb⟩
    · exact .inr h

/-- A write lists no address but those listed and its own. -/
theorem Memory.mem_write {m : Memory} {a : Nat} {b : Byte} {x : Host.Cell} (h : x ∈ m.write a b) :
    (x = (a, b) ∧ b ≠ unlistedByte) ∨ x ∈ m := by
  induction m with
  | nil => exact mem_consCell h
  | cons y m ih =>
    obtain ⟨k, c⟩ := y
    unfold Memory.write at h
    split at h
    · exact mem_consCell h
    · split at h
      · rcases mem_consCell h with h | h
        · exact .inl h
        · exact .inr (by simp [h])
      · rcases List.mem_cons.mp h with h | h
        · exact .inr (by simp [h])
        · rcases ih h with h | h
          · exact .inl h
          · exact .inr (by simp [h])

theorem pairwise_consCell {a : Nat} {b : Byte} {m : Memory} (hm : m.Pairwise (fun x y => x.1 < y.1))
    (h : ∀ y ∈ m, a < y.1) : (consCell a b m).Pairwise (fun x y => x.1 < y.1) := by
  unfold consCell
  split
  · exact hm
  · exact List.pairwise_cons.mpr ⟨fun y hy => h y hy, hm⟩

theorem Memory.pairwise_write {m : Memory} (hm : m.Pairwise (fun x y => x.1 < y.1)) (a : Nat) (b : Byte) :
    (m.write a b).Pairwise (fun x y => x.1 < y.1) := by
  induction m with
  | nil => exact pairwise_consCell List.Pairwise.nil (by simp)
  | cons y m ih =>
    obtain ⟨k, c⟩ := y
    have hm' := hm
    rw [List.pairwise_cons] at hm
    obtain ⟨hk, hm⟩ := hm
    unfold Memory.write
    split
    · rename_i hlt
      exact pairwise_consCell hm' (by
        intro y hy
        rcases List.mem_cons.mp hy with rfl | hy
        · exact hlt
        · exact hlt.trans (hk y hy))
    · split
      · rename_i _ hak
        subst hak
        exact pairwise_consCell hm hk
      · rename_i h1 h2
        refine List.pairwise_cons.mpr ⟨fun y hy => ?_, ih hm⟩
        rcases Memory.mem_write hy with ⟨rfl, _⟩ | hy
        · show k < a; omega
        · exact hk y hy

/-- Every memory operation keeps the canonical form. -/
theorem Memory.wf_write {m : Memory} (hm : m.wf) {a : Nat} (ha : a < 2 ^ 32) (b : Byte) : (m.write a b).wf := by
  refine ⟨Memory.pairwise_write hm.1 a b, fun c hc => ?_⟩
  rcases Memory.mem_write hc with ⟨rfl, hb⟩ | hc
  · exact ⟨hb, ha⟩
  · exact hm.2 c hc

/-- Equal reads of canonical memories are equal memories. -/
theorem Memory.ext_of_read {m n : Memory} (hm : m.wf) (hn : n.wf) (h : ∀ a, m.read a = n.read a) : m = n := by
  have head : ∀ {k : Nat} {c : Byte} {l : Memory}, Memory.wf ((k, c) :: l) →
      Memory.read ((k, c) :: l) k = c ∧ c ≠ unlistedByte ∧ (∀ x ∈ l, k < x.1) ∧ Memory.wf l := by
    intro k c l hl
    obtain ⟨hp, hv⟩ := hl
    rw [List.pairwise_cons] at hp
    exact ⟨by simp [Memory.read_cons], (hv (k, c) (by simp)).1, hp.1, hp.2, fun x hx => hv x (by simp [hx])⟩
  induction m generalizing n with
  | nil =>
    cases n with
    | nil => rfl
    | cons y n =>
      obtain ⟨k, c⟩ := y
      obtain ⟨h1, h2, _⟩ := head hn
      exact absurd ((h k).trans h1).symm h2
  | cons x m ih =>
    obtain ⟨k, c⟩ := x
    obtain ⟨h1, h2, h3, h4⟩ := head hm
    cases n with
    | nil => exact absurd ((h k).symm.trans h1).symm h2
    | cons y n =>
      obtain ⟨k', c'⟩ := y
      obtain ⟨g1, g2, g3, g4⟩ := head hn
      have hk : k = k' := by
        rcases Nat.lt_trichotomy k k' with hlt | heq | hlt
        · have : Memory.read ((k', c') :: n) k = unlistedByte :=
            Memory.read_below (by
              intro y hy
              rcases List.mem_cons.mp hy with rfl | hy
              · exact hlt
              · exact hlt.trans (g3 y hy))
          exact absurd ((h1.symm.trans (h k)).trans this) h2
        · exact heq
        · have : Memory.read ((k, c) :: m) k' = unlistedByte :=
            Memory.read_below (by
              intro y hy
              rcases List.mem_cons.mp hy with rfl | hy
              · exact hlt
              · exact hlt.trans (h3 y hy))
          exact absurd ((g1.symm.trans (h k').symm).trans this) g2
      subst hk
      have hc : c = c' := (h1.symm.trans (h k)).trans g1
      subst hc
      congr 1
      refine ih h4 g4 fun a => ?_
      by_cases ha : k = a
      · subst ha; rw [Memory.read_below h3, Memory.read_below g3]
      · have := h a
        rwa [Memory.read_cons, Memory.read_cons, if_neg ha, if_neg ha] at this

/-! ### `memWrite` and `memReadList` -/

/-- All a `MemWrite` can do. -/
theorem memWrite_cases (a : Nat) (b : Byte) (s : State) :
    (writeAdmitted s.par a = true ∧ memWrite a b s = .go (s.setMem (s.mem.write a b))) ∨
      (writeAdmitted s.par a = false ∧ memWrite a b s = .stop (raise (.busError a) s)) := by
  unfold memWrite; split <;> simp_all

theorem writeAdmitted_lt {p : Params} {a : Nat} (h : writeAdmitted p a = true) : a < 2 ^ 32 := by
  simp only [writeAdmitted, Bool.and_eq_true, decide_eq_true_eq] at h; exact h.1.1

theorem readAdmitted_lt {p : Params} {a : Nat} (h : readAdmitted p a = true) : a < 2 ^ 32 := by
  simp only [readAdmitted, Bool.and_eq_true, decide_eq_true_eq] at h; exact h.1.1

/-- Where every byte of a buffer is admitted, reading it gives its bytes. -/
theorem memReadList_ok {a n : Nat} {s : State} (h : ∀ k, k < n → readAdmitted s.par (a + k) = true) :
    memReadList a n s = .ok ((List.range n).map fun k => s.mem.read (a + k)) := by
  induction n generalizing a with
  | zero => rfl
  | succ n ih =>
    have h0 : memRead a s = .ok (s.mem.read a) := memRead_ok.mpr ⟨by simpa using h 0 (by omega), rfl⟩
    have ht := ih (a := a + 1) fun k hk => by have := h (k + 1) (by omega); rwa [show a + (k + 1) = a + 1 + k by omega] at this
    simp only [memReadList, h0, ht]
    rw [List.range_succ_eq_map]
    simp [List.map_map, Function.comp_def, Nat.add_assoc, Nat.add_comm 1]

/-- What a buffer read answers: its bytes, or a bus error at an address of the buffer. -/
theorem memReadList_cases (a n : Nat) (s : State) :
    (memReadList a n s = .ok ((List.range n).map fun k => s.mem.read (a + k)) ∧
        ∀ k, k < n → readAdmitted s.par (a + k) = true) ∨
      ∃ k, k < n ∧ readAdmitted s.par (a + k) = false ∧ (∀ l, l < k → readAdmitted s.par (a + l) = true) ∧
        memReadList a n s = .error (.busError (a + k)) := by
  by_cases h : ∀ k, k < n → readAdmitted s.par (a + k) = true
  · exact .inl ⟨memReadList_ok h, h⟩
  · right
    revert h
    induction n generalizing a with
    | zero => intro h; simp at h
    | succ n ih =>
      intro h
      by_cases h0 : readAdmitted s.par a = true
      · have hr : memRead a s = .ok (s.mem.read a) := memRead_ok.mpr ⟨h0, rfl⟩
        have hn : ¬ ∀ k, k < n → readAdmitted s.par (a + 1 + k) = true := by
          intro hall
          apply h
          intro k hk
          cases k with
          | zero => simpa using h0
          | succ k => rw [show a + (k + 1) = a + 1 + k by omega]; exact hall k (by omega)
        obtain ⟨k, hk, hf, hl, he⟩ := ih (a + 1) hn
        refine ⟨k + 1, by omega, by rwa [show a + (k + 1) = a + 1 + k by omega], ?_, ?_⟩
        · intro l hlt
          cases l with
          | zero => simpa using h0
          | succ l => rw [show a + (l + 1) = a + 1 + l by omega]; exact hl l (by omega)
        · simp only [memReadList, hr, he]
          rw [show a + (k + 1) = a + 1 + k by omega]
      · have h0 : readAdmitted s.par a = false := by simpa using h0
        refine ⟨0, by omega, by simpa using h0, by simp, ?_⟩
        have hr : memRead a s = .error (.busError a) := memRead_error.mpr ⟨h0, rfl⟩
        simp [memReadList, hr]

end Sys2Proof.Machine
end

