-- ==== Sys2Proof/Laws/Operands.lean ====
section
/-! SUPPORT. What the operand checks say when they pass (42_channel_registry.md R150, R152; 41_transfer_engine.md R120). -/

namespace Sys2Proof.Machine

variable {s : State}

theorem chanMap_lt (hp : s.par.wf) {ch i} (h : chanMap s.par ch = some i) : i.val < s.par.numChannels := by
  obtain ⟨-, -, -, -, hm, -⟩ := hp
  unfold chanMap at h
  have : (ch, i) ∈ s.par.chanMap := by
    rw [List.lookup_eq_some_iff] at h
    obtain ⟨l1, l2, e, -⟩ := h
    simp [e]
  exact (hm _ this).2

theorem validate_ok {p ch a l i} (h : validate p ch a l = .ok i) :
    a ≠ 0#32 ∧ chanMap p ch = some i ∧ l ≠ 0#32 ∧ a.toNat + l.toNat ≤ 2^32 := by
  unfold validate at h
  split at h
  · simp at h
  · split at h
    · simp at h
    · split at h
      · simp at h
      · rename_i h1 _ _ h2 h3
        simp [leavesMemory] at h3
        simp at h
        subst h
        exact ⟨h1, h2, h3.1, by omega⟩

theorem validate_error {p ch a l c} (h : validate p ch a l = .error c) : c ≠ .decodeFailure ∧ c ≠ .unmappedId := by
  unfold validate at h
  split at h
  · cases h; decide
  · split at h
    · cases h; decide
    · split at h
      · cases h; decide
      · cases h

theorem ceilDiv_rem_le {clk D S : Nat} (hD : 0 < D) : ceilDiv (clk % D * S) D ≤ S := by
  unfold ceilDiv
  have := Nat.mod_lt clk hD
  rw [Nat.div_le_iff_le_mul_add_pred hD]
  have : clk % D * S ≤ D * S := Nat.mul_le_mul_right _ (by omega)
  have := Nat.mul_comm D S
  omega

theorem baudDivisor_some {mm clk b o d} (h : baudDivisor mm clk b o = some d) :
   1 ≤ d.1 ∧ d.1 ≤ mm ∧ d.2 < oversampling o := by
  unfold baudDivisor at h
  split at h
  · simp at h
  · rename_i hb
    have hS : 0 < oversampling o := by cases o <;> decide
    have hD : 0 < oversampling o * b := Nat.mul_pos hS (by omega)
    have := ceilDiv_rem_le (clk := clk) (S := oversampling o) hD
    simp only at h
    generalize ceilDiv (clk % (oversampling o * b) * oversampling o) (oversampling o * b) = fr at *
    generalize clk / (oversampling o * b) = q at *
    by_cases hf : fr = oversampling o
    · simp [hf] at h
      obtain ⟨h, rfl⟩ := h
      exact ⟨by simp, by simpa using h, hS⟩
    · simp [hf] at h
      obtain ⟨h, rfl⟩ := h
      exact ⟨by simp; omega, by simp; omega, by simp; omega⟩

theorem brrWord_toNat (m f : Nat) : (brrWord m f).toNat = (m % 4096) * 16 + f % 16 := by
  unfold brrWord
  rw [BitVec.toNat_append, BitVec.toNat_append, ← Nat.shiftLeft_add_eq_or_of_lt (BitVec.isLt _), ← Nat.shiftLeft_add_eq_or_of_lt (BitVec.isLt _)]
  simp [Nat.shiftLeft_eq]

theorem brrWord_fields (m f : Nat) (hm : m ≤ 4095) :
  (brrWord m f).extractLsb' 16 16 = 0#16 ∧ ((brrWord m f).extractLsb' 4 12).toNat = m ∧ (f < 8 → (brrWord m f).getLsbD 3 = false) := by
  have h := brrWord_toNat m f
  refine ⟨?_, ?_, ?_⟩
  · apply BitVec.eq_of_toNat_eq
    simp only [BitVec.extractLsb'_toNat, h, Nat.shiftRight_eq_div_pow, BitVec.toNat_ofNat]
    omega
  · simp only [BitVec.extractLsb'_toNat, h, Nat.shiftRight_eq_div_pow]
    omega
  · intro hf
    rw [BitVec.getLsbD, h, Nat.testBit_eq_decide_div_mod_eq]
    simp; omega

theorem ready_of_ne_busy {d : DescState} (h : d ≠ .busy) : d = .ready := by cases d <;> simp_all

end Sys2Proof.Machine
end

