-- ==== Sys2Proof/Laws/Service.lean ====
section
/-! SUPPORT. What a service invocation never writes (`ServiceFrame`, Safety.lean), piece by piece. -/

namespace Sys2Proof.Machine

variable {a b c : State}

theorem ServiceFrame.refl (s : State) : ServiceFrame s s := ⟨rfl, rfl, rfl, rfl, rfl, rfl, rfl, rfl, rfl, rfl⟩

theorem ServiceFrame.trans (h : ServiceFrame a b) (g : ServiceFrame b c) : ServiceFrame a c where
  par := g.par.trans h.par
  arg0 := g.arg0.trans h.arg0
  arg1 := g.arg1.trans h.arg1
  arg2 := g.arg2.trans h.arg2
  result := g.result.trans h.result
  rdata := g.rdata.trans h.rdata
  irqEnable := g.irqEnable.trans h.irqEnable
  cmdState := g.cmdState.trans h.cmdState
  hostData := g.hostData.trans h.hostData
  agenda := g.agenda.trans h.agenda

theorem serviceFrame_armHeader (i s) : ServiceFrame s (armHeader i s) := by constructor <;> rfl

theorem serviceFrame_dispatch (i p s) : ServiceFrame s (dispatch i p s) := by
  unfold dispatch frameRejected
  split
  · split <;> constructor <;> rfl
  · constructor <;> rfl

theorem serviceFrame_headerParsed (i h s) : ServiceFrame s (headerParsed i h s) := by
  unfold headerParsed
  split
  · exact (show ServiceFrame s (frameRejected _ s) by constructor <;> rfl).trans (serviceFrame_armHeader _ _)
  · split
    · exact (show ServiceFrame s (frameRejected _ s) by constructor <;> rfl).trans (serviceFrame_armHeader _ _)
    · unfold headerAccepted
      simp only
      split
      · exact ((show ServiceFrame s (s.updFr _) by constructor <;> rfl).trans (serviceFrame_dispatch _ _ _)).trans (serviceFrame_armHeader _ _)
      · constructor <;> rfl

theorem serviceFrame_payloadParsed (i h s) : ServiceFrame s (payloadParsed i h s) := by
  unfold payloadParsed
  exact ((serviceFrame_dispatch _ _ _).trans (serviceFrame_armHeader i _)).trans (c := State.updFr _ _) (by constructor <;> rfl)

theorem serviceFrame_framerOnRx (i s) : ServiceFrame s (framerOnRx i s).state := by
  unfold framerOnRx headerDone payloadDone
  split <;> split
  · constructor <;> rfl
  · exact serviceFrame_headerParsed _ _ _
  · constructor <;> rfl
  · exact serviceFrame_payloadParsed _ _ _

theorem serviceFrame_callback (i b c s) : ServiceFrame s (callback i b c s).state := by
  unfold callback
  split
  · exact ServiceFrame.refl _
  · constructor <;> rfl
  · exact serviceFrame_framerOnRx _ _

theorem serviceFrame_txBranch (i s) : ServiceFrame s (txBranch i s).state := by
  unfold txBranch
  split
  · split
    · split <;> constructor <;> rfl
    · unfold txComplete
      exact (show ServiceFrame s _ by constructor <;> rfl).trans (serviceFrame_callback _ _ _ _)
  · exact ServiceFrame.refl _

theorem serviceFrame_rxAdvance (i s) : ServiceFrame s (rxAdvance i s).state := by
  unfold rxAdvance rxComplete
  simp only
  split
  · exact (show ServiceFrame s _ by constructor <;> rfl).trans (serviceFrame_callback _ _ _ _)
  · constructor <;> rfl

theorem serviceFrame_rxBranch (i s) : ServiceFrame s (rxBranch i s).state := by
  unfold rxBranch
  split
  · exact ServiceFrame.refl _
  · split
    · split
      · rcases memWrite_cases (s.chan i).rxd.cursorAddr ‹_› (rxDrop i s) with ⟨hw, e⟩ | ⟨hw, e⟩
        · rw [e]; exact (show ServiceFrame s _ by constructor <;> rfl).trans (serviceFrame_rxAdvance i _)
        · rw [e]; constructor <;> rfl
      · constructor <;> rfl
    · exact ServiceFrame.refl _

theorem serviceFrame_serve (i s) : ServiceFrame s (serve i s).state := by
  have h1 := serviceFrame_txBranch i s
  unfold serve Flow.andThen
  split
  · rename_i s' e; rw [e] at h1; exact h1.trans (serviceFrame_rxBranch _ _)
  · rename_i e; rw [e] at h1; exact h1

/-! ### The transmit branch -/

/-- The transmit branch as one update of its channel and of `IRQ_STATUS`. -/
theorem txBranch_leaves {s : State} {i : Engine} {c : Channel} {irq : Word} (h : TransmitLeaves i s c irq) :
    txBranch i s = .go { s.updChan i (fun _ => c) with irqStatus := irq } := by
  have htx : (s.chan i).txf.length < s.par.txDepth → txe s i = true := fun h => by simp [txe, h]
  cases h with
  | nothing h =>
    have : (txe s i && (s.chan i).cr.txeie) = false := by
      rcases h with h | h <;> simp [txe, h]
    simp only [txBranch, this]
    simp [State.updChan, State.chan]
  | moved room source left admitted =>
    simp only [txBranch, htx room, source, left, memRead, admitted, if_true, Bool.and_self]
    simp [txPush, State.updTxd, State.updChan, State.chan, Descriptor.advance, Descriptor.cursorAddr]
  | completed room source done callback =>
    have : ¬ (s.chan i).txd.cur < (s.chan i).txd.len := BitVec.not_lt.mpr done
    simp only [txBranch, htx room, source, this, if_true, if_false, Bool.and_self, txComplete]
    cases hcb : (s.chan i).txd.cb <;>
      simp_all [Machine.callback, State.updTxd, State.updCr, State.updChan, State.chan, Descriptor.complete, setIrq,
        txcBit]

/-- Everything the transmit branch can do on a descriptor without the parser's callback. -/
theorem txBranch_cases (i : Engine) (s : State) (hcb : (s.chan i).txd.cb ≠ .framer) :
    (∃ c irq, TransmitLeaves i s c irq) ∨
      (txe s i = true ∧ (s.chan i).cr.txeie = true ∧ (s.chan i).txd.cur < (s.chan i).txd.len ∧
        readAdmitted s.par (s.chan i).txd.cursorAddr = false ∧
        txBranch i s = .stop (raise (.busError (s.chan i).txd.cursorAddr) s)) := by
  by_cases room : (s.chan i).txf.length < s.par.txDepth
  · by_cases source : (s.chan i).cr.txeie = true
    · by_cases left : (s.chan i).txd.cur < (s.chan i).txd.len
      · cases admitted : readAdmitted s.par (s.chan i).txd.cursorAddr with
        | true => exact .inl ⟨_, _, .moved room source left admitted⟩
        | false =>
          have htx : txe s i = true := by simp [txe, room]
          exact .inr ⟨htx, source, left, rfl, by simp [txBranch, htx, source, left, memRead, admitted]⟩
      · exact .inl ⟨_, _, .completed room source (BitVec.not_lt.mp left) hcb⟩
    · exact .inl ⟨_, _, .nothing (.inr (by simpa using source))⟩
  · exact .inl ⟨_, _, .nothing (.inl (by omega))⟩

end Sys2Proof.Machine
end

