-- ==== Sys2Proof/Laws/Bounded.lean ====
section
/-! SUPPORT. Each named operation keeps `Bounded` (Safety.lean) under the side condition its users meet. -/

namespace Sys2Proof.Machine

/-! ### One channel -/

theorem ChannelBounds.of_eq {p : Params} {c d : Channel} (h : ChannelBounds p c) (htx : d.txf = c.txf) (hrx : d.rxf = c.rxf)
    (hb : d.brr = c.brr) (hu : d.cr.ue = c.cr.ue) (ho : d.cr.over8 = c.cr.over8) (hc : d.txd.cb = c.txd.cb) :
    ChannelBounds p d where
  txFits := htx ▸ h.txFits
  rxFits := hrx ▸ h.rxFits
  brrHigh := hb ▸ h.brrHigh
  brrMant := hb ▸ hu ▸ h.brrMant
  brrFrac := hb ▸ ho ▸ h.brrFrac
  txCallback := hc ▸ h.txCallback

/-- Bits set one set after another, seen through a mask. -/
theorem and_absent_or (a b m : Word) : (a ||| b) &&& m = (a &&& m) ||| (b &&& m) := by
  ext k hk
  simp [Bool.and_or_distrib_right]

/-! ### State operations -/

namespace Bounded

variable {s : State}

theorem updChan (h : Bounded s) (i : Engine) (f : Channel → Channel) (hf : ChannelBounds s.par (f (s.chan i))) :
    Bounded (s.updChan i f) where
  params := h.params
  memory := h.memory
  channels j := by
    rw [chan_updChan]
    split
    · exact hf
    · exact h.channels j
  irqStatus := h.irqStatus
  irqEnable := h.irqEnable
  rdata := h.rdata
  result := h.result
  lastResult := h.lastResult
  parserChannel := h.parserChannel
  command := h.command
  faultSet := h.faultSet

theorem updCr (h : Bounded s) (i : Engine) (f : Control → Control)
    (hu : (f (s.chan i).cr).ue = (s.chan i).cr.ue) (ho : (f (s.chan i).cr).over8 = (s.chan i).cr.over8) :
    Bounded (s.updCr i f) :=
  h.updChan i _ ((h.channels i).of_eq rfl rfl rfl hu ho rfl)

theorem updTxd (h : Bounded s) (i : Engine) (f : Descriptor → Descriptor) (hf : (f (s.chan i).txd).cb ≠ .framer) :
    Bounded (s.updTxd i f) :=
  h.updChan i _
    { txFits := (h.channels i).txFits
      rxFits := (h.channels i).rxFits
      brrHigh := (h.channels i).brrHigh
      brrMant := (h.channels i).brrMant
      brrFrac := (h.channels i).brrFrac
      txCallback := hf }

theorem updRxd (h : Bounded s) (i : Engine) (f : Descriptor → Descriptor) : Bounded (s.updRxd i f) :=
  h.updChan i _ ((h.channels i).of_eq rfl rfl rfl rfl rfl rfl)

theorem txPush (h : Bounded s) {i : Engine} (b : Byte) (ht : txe s i = true) : Bounded (txPush i b s) :=
  h.updChan i _
    { txFits := by simp only [txe, decide_eq_true_eq] at ht; simp; omega
      rxFits := (h.channels i).rxFits
      brrHigh := (h.channels i).brrHigh
      brrMant := (h.channels i).brrMant
      brrFrac := (h.channels i).brrFrac
      txCallback := (h.channels i).txCallback }

theorem rxPush (h : Bounded s) {i : Engine} (b : Byte) (ht : rxRoom s i = true) : Bounded (rxPush i b s) :=
  h.updChan i _
    { txFits := (h.channels i).txFits
      rxFits := by simp only [rxRoom, decide_eq_true_eq] at ht; simp; omega
      brrHigh := (h.channels i).brrHigh
      brrMant := (h.channels i).brrMant
      brrFrac := (h.channels i).brrFrac
      txCallback := (h.channels i).txCallback }

theorem txDrop (h : Bounded s) (i : Engine) : Bounded (txDrop i s) :=
  h.updChan i _
    { txFits := by have := (h.channels i).txFits; simp; omega
      rxFits := (h.channels i).rxFits
      brrHigh := (h.channels i).brrHigh
      brrMant := (h.channels i).brrMant
      brrFrac := (h.channels i).brrFrac
      txCallback := (h.channels i).txCallback }

theorem rxDrop (h : Bounded s) (i : Engine) : Bounded (rxDrop i s) :=
  h.updChan i _
    { txFits := (h.channels i).txFits
      rxFits := by have := (h.channels i).rxFits; simp; omega
      brrHigh := (h.channels i).brrHigh
      brrMant := (h.channels i).brrMant
      brrFrac := (h.channels i).brrFrac
      txCallback := (h.channels i).txCallback }

theorem updFr (h : Bounded s) (f : FrameContext → FrameContext) (hc : (f s.fr).ch.val < s.par.numChannels)
    (hl : (f s.fr).lastResult = .ok ∨ (f s.fr).lastResult = .decodeFailure ∨ (f s.fr).lastResult = .unmappedId) :
    Bounded (s.updFr f) :=
  { h with lastResult := hl, parserChannel := hc, channels := h.channels }

theorem setCmdState (h : Bounded s) (c : CmdState) (hc : c.inProgress s.par) : Bounded (s.setCmdState c) :=
  { h with command := hc, channels := h.channels }

theorem emit (h : Bounded s) (e : Event) : Bounded (emit e s) := { h with channels := h.channels }

theorem finish (h : Bounded s) (op : CmdOp) (code : ResultCode) (hc : code ≠ .decodeFailure ∧ code ≠ .unmappedId) :
    Bounded (finish op code s) := { h with result := hc, channels := h.channels }

theorem setIrq (h : Bounded s) {b : Nat} (hb : (1#32 <<< b) &&& ~~~irqMask s.par = 0#32) : Bounded (setIrq b s) :=
  { h with
    irqStatus := by
      simp only [setIrq_irqStatus, setIrq_par, and_absent_or, h.irqStatus, hb, BitVec.or_zero]
    channels := h.channels }

theorem raise (h : Bounded s) (f : ModelFault) : Bounded (raise f s) :=
  { h with
    faultSet := by
      simp only [raise_faults]
      split
      · exact h.faultSet
      · rename_i hf
        exact List.nodup_append.mpr ⟨h.faultSet, by simp, by
          intro a ha b hb e
          simp only [List.mem_singleton] at hb
          exact hf (hb ▸ e ▸ ha)⟩
    channels := h.channels }

theorem memory_write (h : Bounded s) {a : Nat} (ha : a < 2 ^ 32) (b : Byte) :
    Bounded (s.setMem (s.mem.write a b)) :=
  { h with memory := Memory.wf_write h.memory ha b, channels := h.channels }

end Bounded

/-- The bits of a channel that exists, and the two frame bits, exist (10_state.md R29). -/
theorem irqMask_bits {p : Params} (hp : p.wf) :
    (∀ i : Engine, i.val < p.numChannels →
      (1#32 <<< txcBit i) &&& ~~~irqMask p = 0#32 ∧ (1#32 <<< rxcBit i) &&& ~~~irqMask p = 0#32) ∧
    (1#32 <<< frameDoneBit) &&& ~~~irqMask p = 0#32 ∧ (1#32 <<< frameErrBit) &&& ~~~irqMask p = 0#32 := by
  have h1 := hp.1
  have h2 := hp.2.1
  unfold irqMask
  generalize p.numChannels = n at *
  have key : ∀ n : Fin 9, (∀ i : Engine, i.val < n.val →
      (1#32 <<< txcBit i) &&& ~~~(BitVec.ofNat 32 (2 ^ (2 * n.val) - 1) ||| 0x00030000#32) = 0#32 ∧
        (1#32 <<< rxcBit i) &&& ~~~(BitVec.ofNat 32 (2 ^ (2 * n.val) - 1) ||| 0x00030000#32) = 0#32) ∧
      (1#32 <<< frameDoneBit) &&& ~~~(BitVec.ofNat 32 (2 ^ (2 * n.val) - 1) ||| 0x00030000#32) = 0#32 ∧
      (1#32 <<< frameErrBit) &&& ~~~(BitVec.ofNat 32 (2 ^ (2 * n.val) - 1) ||| 0x00030000#32) = 0#32 := by decide
  exact key ⟨n, by omega⟩

/-! ### The shared operations -/

variable {s : State}

theorem armReceive_bounded (h : Bounded s) (i a l cb) : Bounded (armReceive i a l cb s) :=
  (h.updRxd i _).updCr i _ rfl rfl

theorem armHeader_bounded (h : Bounded s) (i) : Bounded (armHeader i s) := armReceive_bounded h ..

theorem frameRejected_bounded (h : Bounded s) (c) (hc : c = .decodeFailure ∨ c = .unmappedId) : Bounded (frameRejected c s) :=
  (h.updFr _ h.parserChannel (.inr hc)).setIrq (irqMask_bits h.params).2.2

theorem dispatch_bounded (h : Bounded s) (id p) : Bounded (dispatch id p s) := by
  unfold dispatch
  split
  · split
    · exact frameRejected_bounded h _ (.inl rfl)
    · exact ((h.emit _).updFr _ h.parserChannel (.inl rfl)).setIrq (irqMask_bits h.params).2.1
  · exact frameRejected_bounded h _ (.inr rfl)

theorem headerAccepted_bounded (h : Bounded s) (i id len) : Bounded (headerAccepted i id len s) := by
  unfold headerAccepted
  have h1 : Bounded (s.updFr fun f => { f with lastId := id, lastLen := len }) := h.updFr _ h.parserChannel h.lastResult
  simp only
  split
  · exact armHeader_bounded (dispatch_bounded h1 ..) _
  · exact (armReceive_bounded h1 ..).updFr _ h1.parserChannel h1.lastResult

theorem headerParsed_bounded (h : Bounded s) (i b) : Bounded (headerParsed i b s) := by
  unfold headerParsed
  split
  · exact armHeader_bounded (frameRejected_bounded h _ (.inl rfl)) _
  · split
    · exact armHeader_bounded (frameRejected_bounded h _ (.inl rfl)) _
    · exact headerAccepted_bounded h ..

theorem payloadParsed_bounded (h : Bounded s) (i b) : Bounded (payloadParsed i b s) := by
  unfold payloadParsed
  have := armHeader_bounded (dispatch_bounded h s.fr.lastId b) i
  exact this.updFr _ this.parserChannel this.lastResult

theorem framerOnRx_bounded (h : Bounded s) (i) : Bounded (framerOnRx i s).state := by
  unfold framerOnRx headerDone payloadDone
  split <;> split
  · exact h.raise _
  · exact headerParsed_bounded h ..
  · exact h.raise _
  · exact payloadParsed_bounded h ..

theorem callback_bounded (h : Bounded s) (i bit cb) (hb : (1#32 <<< bit) &&& ~~~irqMask s.par = 0#32) :
    Bounded (callback i bit cb s).state := by
  unfold callback
  split
  · exact h
  · exact h.setIrq hb
  · exact framerOnRx_bounded h i

theorem txComplete_bounded (h : Bounded s) {i : Engine} (hi : i.val < s.par.numChannels) :
    Bounded (txComplete i s).state := by
  unfold txComplete
  have h1 : Bounded (s.updCr i fun c => { c with txeie := false }) := h.updCr i _ rfl rfl
  have h2 := h1.updTxd i Descriptor.complete (by
    have := (h1.channels i).txCallback
    simpa [Descriptor.complete] using this)
  exact callback_bounded h2 _ _ _ ((irqMask_bits h.params).1 i hi).1

theorem rxComplete_bounded (h : Bounded s) {i : Engine} (hi : i.val < s.par.numChannels) :
    Bounded (rxComplete i s).state := by
  unfold rxComplete
  have h1 : Bounded (s.updCr i fun c => { c with rxneie := false }) := h.updCr i _ rfl rfl
  exact callback_bounded (h1.updRxd i Descriptor.complete) _ _ _ ((irqMask_bits h.params).1 i hi).2

theorem txBranch_bounded (h : Bounded s) {i : Engine} (hi : i.val < s.par.numChannels) :
    Bounded (txBranch i s).state := by
  unfold txBranch
  split
  · rename_i ht
    simp only [Bool.and_eq_true] at ht
    split
    · split
      · exact h.raise _
      · have h1 := h.txPush (i := i) ‹_› ht.1
        exact h1.updTxd i _ (by have := (h1.channels i).txCallback; simpa [Descriptor.advance] using this)
    · exact txComplete_bounded h hi
  · exact h

theorem rxBranch_bounded (h : Bounded s) {i : Engine} (hi : i.val < s.par.numChannels) :
    Bounded (rxBranch i s).state := by
  unfold rxBranch
  split
  · exact h
  · split
    · split
      · rcases memWrite_cases (s.chan i).rxd.cursorAddr ‹_› (rxDrop i s) with ⟨hw, e⟩ | ⟨hw, e⟩
        · rw [e]
          have h1 := (h.rxDrop i).memory_write (writeAdmitted_lt hw) ‹_›
          have h2 := h1.updRxd i Descriptor.advance
          show Bounded (rxAdvance i _).state
          unfold rxAdvance
          simp only
          split
          · exact rxComplete_bounded h2 hi
          · exact h2
        · rw [e]; exact (h.rxDrop i).raise _
      · exact h.raise _
    · exact h

theorem serve_bounded (h : Bounded s) {i : Engine} (hi : i.val < s.par.numChannels) (hp : ∀ s', txBranch i s = .go s' → s'.par = s.par) :
    Bounded (serve i s).state := by
  have h1 := txBranch_bounded h hi
  unfold serve Flow.andThen
  split
  · rename_i s' e
    rw [e] at h1
    exact rxBranch_bounded h1 (by show i.val < s'.par.numChannels; rw [hp _ e]; exact hi)
  · rename_i e; rw [e] at h1; exact h1

theorem holdTx_bounded (h : Bounded s) (i) : Bounded (holdTx i s) :=
  (h.updTxd i _ (h.channels i).txCallback).updCr i _ rfl rfl

theorem holdRx_bounded (h : Bounded s) (i) : Bounded (holdRx i s) :=
  (h.updRxd i _).updCr i _ rfl rfl

theorem endTx_bounded (h : Bounded s) (op i c) (hc : c ≠ .decodeFailure ∧ c ≠ .unmappedId) : Bounded (endTx op i c s) :=
  ((h.updTxd i _ (h.channels i).txCallback).setCmdState .idle trivial).finish _ _ hc

theorem endRx_bounded (h : Bounded s) (op i c) (hc : c ≠ .decodeFailure ∧ c ≠ .unmappedId) : Bounded (endRx op i c s) :=
  ((h.updRxd i _).setCmdState .idle trivial).finish _ _ hc

theorem sendAccepted_bounded (h : Bounded s) (i) : Bounded (sendAccepted i s) :=
  (h.updCr i _ rfl rfl).finish _ _ (by decide)

theorem sendStart_bounded (h : Bounded s) (i a l cb) (hcb : cb ≠ .framer) : Bounded (sendStart i a l cb s).state := by
  unfold sendStart
  simp only
  have h1 : Bounded ((s.updTxd i fun _ => submitted a l cb).updCr i fun c => { c with te := true }) :=
    (h.updTxd i _ hcb).updCr i _ rfl rfl
  split
  · split
    · exact h1.raise _
    · have h2 := h1.txPush (i := i) ‹_› ‹_›
      exact sendAccepted_bounded (h2.updTxd i _ (by have := (h2.channels i).txCallback; simpa using this)) _
  · exact sendAccepted_bounded h1 _

end Sys2Proof.Machine
end

