-- ==== Sys2Proof/Laws/Framer.lean ====
section
/-! SUPPORT. Everything the frame parser's action can leave (43_framer.md R163 to R166). -/

namespace Sys2Proof.Machine

variable {s : State}

/-- RX submission with callback not framer on channel not FR.CH-active -/
theorem chan_armReceive (i j a l cb) (s : State) : (armReceive i a l cb s).chan j = if j = i then {(s.chan i) with rxd := submitted a l cb, cr := {(s.chan i).cr with re := true, rxneie := true}} else s.chan j := by
  unfold armReceive
  simp only [chan_updCr, chan_updRxd]
  by_cases hj : j = i <;> simp [hj]

/-- Everything the parser's action can leave. -/
structure FramerOut (i : Engine) (v t : State) : Prop where
  active : t.fr.active = v.fr.active
  ch : t.fr.ch = v.fr.ch
  hdr : t.fr.hdrAddr = v.fr.hdrAddr
  pay : t.fr.payAddr = v.fr.payAddr
  cap : t.fr.payCap = v.fr.payCap
  arm : (t.fr.state = .headerWait ∧ ∀ j, t.chan j = (armReceive i v.fr.hdrAddr (BitVec.ofNat 32 v.par.hdrLen) .framer v).chan j) ∨
    (t.fr.state = .payloadWait ∧ 0#32 < t.fr.lastLen ∧ t.fr.lastLen ≤ v.fr.payCap ∧ ∀ j, t.chan j = (armReceive i v.fr.payAddr t.fr.lastLen .framer v).chan j)

theorem dispatch_fr (id p) (v : State) : (dispatch id p v).fr = {v.fr with lastResult := (dispatch id p v).fr.lastResult} ∧ (∀ j, (dispatch id p v).chan j = v.chan j) ∧ (dispatch id p v).par = v.par := by
  unfold dispatch frameRejected
  split
  · split <;> exact ⟨rfl, fun _ => rfl, rfl⟩
  · exact ⟨rfl, fun _ => rfl, rfl⟩

theorem armHeader_out {i v} (w : State) (hact : w.fr.active = v.fr.active) (hch : w.fr.ch = v.fr.ch) (h1 : w.fr.hdrAddr = v.fr.hdrAddr)
  (h2 : w.fr.payAddr = v.fr.payAddr) (h3 : w.fr.payCap = v.fr.payCap) (h4 : w.fr.state = .headerWait) (hc : ∀ j, w.chan j = v.chan j) (hp : w.par = v.par) :
  FramerOut i v (armHeader i w) := by
  refine ⟨hact, hch, h1, h2, h3, .inl ⟨h4, fun j => ?_⟩⟩
  unfold armHeader arm
  rw [chan_armReceive, chan_armReceive, hc, hc, h1, hp]

theorem framerOnRx_out {i v t} (e : framerOnRx i v = .go t) : FramerOut i v t := by
  unfold framerOnRx headerDone payloadDone at e
  split at e
  · rename_i hst
    split at e
    · cases e
    · simp only [Flow.go.injEq] at e; subst e
      unfold headerParsed
      split
      · exact armHeader_out _ rfl rfl rfl rfl rfl hst (fun _ => rfl) rfl
      · split
        · exact armHeader_out _ rfl rfl rfl rfl rfl hst (fun _ => rfl) rfl
        · rename_i hle
          unfold headerAccepted
          simp only
          split
          · rename_i _ id len _ _
            obtain ⟨d1, d2, d3⟩ := dispatch_fr id [] (v.updFr fun f => {f with lastId := id, lastLen := len})
            apply armHeader_out
            all_goals first | (rw [d1]; first | rfl | exact hst) | (intro j; rw [d2]; rfl) | (rw [d3]; rfl)
          · rename_i id len _ hz
            refine ⟨rfl, rfl, rfl, rfl, rfl, .inr ⟨rfl, ?_, ?_, fun j => ?_⟩⟩
            · show 0#32 < len
              rw [BitVec.lt_def]
              have : len.toNat ≠ 0 := fun h0 => hz (BitVec.eq_of_toNat_eq (by simpa using h0))
              simp; omega
            · show len ≤ v.fr.payCap
              rw [BitVec.lt_def] at hle; rw [BitVec.le_def]; omega
            · simp only [updFr_chan]
              unfold arm
              rw [chan_armReceive, chan_armReceive]; rfl
  · split at e
    · cases e
    · rename_i p _
      simp only [Flow.go.injEq] at e; subst e
      unfold payloadParsed
      obtain ⟨d1, d2, d3⟩ := dispatch_fr v.fr.lastId p v
      refine ⟨by show (dispatch _ _ _).fr.active = _; rw [d1], by show (dispatch _ _ _).fr.ch = _; rw [d1], by show (dispatch _ _ _).fr.hdrAddr = _; rw [d1], by show (dispatch _ _ _).fr.payAddr = _; rw [d1], by show (dispatch _ _ _).fr.payCap = _; rw [d1], .inl ⟨rfl, fun j => ?_⟩⟩
      simp only [updFr_chan]
      unfold armHeader arm
      rw [chan_armReceive, chan_armReceive, d2, d2, d1, d3]

end Sys2Proof.Machine
end

