-- ==== Sys2Proof/Laws/Linked.lean ====
section
/-! SUPPORT. The named operations keep `Linked` (Safety.lean), the invariants of 10_state.md R33. -/

namespace Sys2Proof.Machine

variable {s t : State}

theorem ChannelLinked.congr {i : Engine} (h : ChannelLinked s i) (hc : t.chan i = s.chan i) (hcmd : t.cmdState = s.cmdState)
   (hf : t.fr = s.fr) : ChannelLinked t i := by
  constructor <;> simp only [hc, hcmd, hf]
  exacts [h.1,h.2,h.3,h.4,h.5,h.6,h.7,h.8,h.9,h.10,h.11,h.12,h.13]

theorem Linked.congr (h : Linked s) (hc : t.chans = s.chans) (hcmd : t.cmdState = s.cmdState)
   (hf : t.fr = s.fr) (hp : t.par = s.par) : Linked t where
  channels i := (h.channels i).congr (chan_congr hc i) hcmd hf
  parser := by have := h.parser; unfold ParserArmed at *; simpa [hf, chan_congr hc] using this
  buffers := by
    intro ha; rw [hf] at ha
    have := h.buffers ha
    constructor <;> simp only [hf, hp, chan_congr hc]
    exacts [this.1, this.2, this.3, this.4]

/-- one channel changed, FR unchanged. -/
theorem Linked.channel (h : Linked s) (i : Engine) (hne : ∀ j, j ≠ i → t.chan j = s.chan j) 
   (hcmd : ∀ j, j ≠ i → t.cmdState.holdsTx j = s.cmdState.holdsTx j ∧ t.cmdState.holdsRx j = s.cmdState.holdsRx j)
   (hf : t.fr = s.fr) (hp : t.par = s.par) (hi : ChannelLinked t i)
   (hrx : s.fr.active = true → i = s.fr.ch → (t.chan i).rxd = (s.chan i).rxd ∨ ((t.chan i).rxd.state = .busy ∧ (t.chan i).rxd.mode = .async ∧ (t.chan i).rxd.cb = (s.chan i).rxd.cb ∧ (t.chan i).rxd.addr = (s.chan i).rxd.addr ∧ (t.chan i).rxd.len = (s.chan i).rxd.len)) : Linked t where
  channels j := by
    by_cases hj : j = i
    · rw [hj]; exact hi
    · have := h.channels j
      have hc := hne j hj
      have h1 := hcmd j hj
      constructor <;> simp only [hc, hf]
      exacts [this.1,this.2,this.3,this.4,this.5,this.6,this.7,this.8,by rw [h1.1]; exact this.9,by rw [h1.2]; exact this.10,this.11,this.12,this.13]
  parser := by
    have hpar := h.parser
    unfold ParserArmed at *
    rw [hf]; intro ha
    by_cases hj : s.fr.ch = i
    · rcases hrx ha hj.symm with h1 | ⟨h1, h2, h3, h4, h5⟩
      · rw [hj, h1, ← hj]; exact hpar ha
      · rw [hj]; refine ⟨h1, h2, ?_⟩; rw [h3, ← hj]; exact (hpar ha).2.2
    · rw [hne _ hj]; exact hpar ha
  buffers := by
    intro ha; rw [hf] at ha
    have := h.buffers ha
    by_cases hj : s.fr.ch = i
    · have hb : (t.chan i).rxd.addr = (s.chan i).rxd.addr ∧ (t.chan i).rxd.len = (s.chan i).rxd.len := by
        rcases hrx ha hj.symm with h1 | ⟨h1, h2, h3, h4, h5⟩
        · simp [h1]
        · exact ⟨h4, h5⟩
      constructor <;> simp only [hf, hp, hj, hb.1, hb.2] <;> try rw [← hj]
      exacts [this.1, this.2, this.3, this.4]
    · constructor <;> simp only [hf, hp, hne _ hj]
      exacts [this.1, this.2, this.3, this.4]

theorem not_faultFree_raise (f) : ¬ FaultFree (raise f s) := by
  unfold FaultFree; simp only [raise_faults]; split
  · rename_i h; intro e; rw [e] at h; simp at h
  · simp

theorem holdsTx_idle (j) : CmdState.idle.holdsTx j = false := rfl

theorem holdsRx_idle (j) : CmdState.idle.holdsRx j = false := rfl

/-- submits -/
theorem sendStart_linked (h : Linked s) {i : Engine} {a l : Word} {cb} (hl : l ≠ 0#32) (ha : a.toNat + l.toNat ≤ 2^32)
   (hr : (s.chan i).txd.state ≠ .busy) {t} (e : sendStart i a l cb s = .go t) : Linked t := by
  have hc := h.channels i
  have hready : (s.chan i).txd.state = .ready := by cases hs : (s.chan i).txd.state <;> simp_all
  have hmode := hc.txReady hready
  have h9 : s.cmdState.holdsTx i = false := by
    have := hc.txHeld; rw [hmode] at this; simpa using this
  have hl1 : 1#32 ≤ l := by
    rw [BitVec.le_def]; have : l.toNat ≠ 0 := fun h0 => hl (BitVec.eq_of_toNat_eq (by simpa using h0)); simp; omega
  have key : ∀ u : State, (∀ j, u.chan j = if j = i then {(s.chan i) with txd := {addr := a, len := l, cur := (u.chan i).txd.cur, state := .busy, mode := .async, cb := cb}, cr := {(s.chan i).cr with te := true, txeie := true}, txf := (u.chan i).txf} else s.chan j) →
     (u.chan i).txd.cur ≤ l → u.cmdState = s.cmdState → u.fr = s.fr → u.par = s.par → Linked u := by
    intro u hu hcur hcmd hf hp
    have hui := hu i
    simp only [if_true] at hui
    refine h.channel i (fun j hj => by rw [hu, if_neg hj]) (fun j _ => by rw [hcmd]; exact ⟨rfl, rfl⟩) hf hp ?_ ?_
    · generalize (u.chan i).txd.cur = cur at *
      generalize (u.chan i).txf = txf at *
      constructor <;> simp only [hui, hcmd, hf]
      · simp
      · exact hc.rxSource
      · intro _ _; exact ⟨hl1, hcur⟩
      · exact hc.rxCursor
      · simp
      · simp
      · exact hc.rxReady
      · exact hc.rxRest
      · simp [h9]
      · exact hc.rxHeld
      · intro _; exact ha
      · exact hc.rxRange
      · exact hc.parserOnly
    · intro _ _; left; rw [hui]
  unfold sendStart at e
  simp only at e
  split at e
  · split at e
    · cases e
    · simp only [Flow.go.injEq] at e
      subst e
      apply key
      · intro j
        simp only [sendAccepted, finish_chan, chan_updCr, chan_updTxd, chan_txPush, submitted]
        by_cases hj : j = i <;> simp [hj]
      · simp [sendAccepted, chan_updCr, chan_updTxd, chan_txPush, submitted]
        simpa using hl1
      all_goals simp [sendAccepted]
  · simp only [Flow.go.injEq] at e
    subst e
    apply key
    · intro j
      simp only [sendAccepted, finish_chan, chan_updCr, chan_updTxd, submitted]
      by_cases hj : j = i <;> simp [hj]
    · simp [sendAccepted, chan_updCr, chan_updTxd, submitted, BitVec.le_def]
    all_goals simp [sendAccepted]

theorem submitRecv_linked (h : Linked s) {i : Engine} {a l : Word} {cb} (hl : l ≠ 0#32) (ha : a.toNat + l.toNat ≤ 2^32)
   (hr : (s.chan i).rxd.state ≠ .busy) (hcb : cb ≠ .framer) : Linked (armReceive i a l cb s) := by
  have hc := h.channels i
  have hready : (s.chan i).rxd.state = .ready := by cases hs : (s.chan i).rxd.state <;> simp_all
  have hmode := hc.rxReady hready
  have h9 : s.cmdState.holdsRx i = false := by
    have := hc.rxHeld; rw [hmode] at this; simpa using this
  have hl1 : 0#32 < l := by
    rw [BitVec.lt_def]; have : l.toNat ≠ 0 := fun h0 => hl (BitVec.eq_of_toNat_eq (by simpa using h0)); simp; omega
  refine h.channel i (fun j hj => by rw [chan_armReceive, if_neg hj]) (fun j _ => ⟨rfl, rfl⟩) rfl rfl ?_ ?_
  · constructor <;> simp only [chan_armReceive, if_true, submitted]
    · exact hc.txSource
    · simp
    · exact hc.txCursor
    · intro _ _; exact hl1
    · exact hc.txReady
    · exact hc.txRest
    · simp
    · simp
    · exact hc.txHeld
    · show _ ↔ s.cmdState.holdsRx i = true
      simp [h9]
    · exact hc.txRange
    · intro _; exact ha
    · intro e; exact absurd e hcb
  · intro hact hi
    have := h.parser hact
    rw [← hi] at this
    exact absurd this.1 hr

/-- framer arm on the parser's channel -/
theorem framer_linked (h : Linked s) {i : Engine} {t : State} {a l : Word} (hl : 0#32 < l) (ha : a.toNat + l.toNat ≤ 2^32)
   (hmode : (s.chan i).rxd.mode = .async)
   (htc : ∀ j, t.chan j = (armReceive i a l .framer s).chan j) (hcmd : t.cmdState = s.cmdState)
   (hact : t.fr.active = true) (hch : t.fr.ch = i)
   (hold : s.fr.active = true → s.fr.ch = i)
   (hb : ParserBuffers t) : Linked t := by
  have hc := h.channels i
  have h9 : s.cmdState.holdsRx i = false := by
    have := hc.rxHeld; rw [hmode] at this; simpa using this
  have hti := htc i
  rw [chan_armReceive, if_pos rfl] at hti
  refine ⟨fun j => ?_, ?_, fun _ => hb⟩
  · by_cases hj : j = i
    · subst hj
      constructor <;> simp only [hti, hcmd, submitted]
      · exact hc.txSource
      · simp
      · exact hc.txCursor
      · intro _ _; exact hl
      · exact hc.txReady
      · exact hc.txRest
      · simp
      · simp
      · exact hc.txHeld
      · simp [h9]
      · exact hc.txRange
      · intro _; exact ha
      · intro _; exact ⟨hact, hch.symm⟩
    · have hd := h.channels j
      have hj' : t.chan j = s.chan j := by rw [htc, chan_armReceive, if_neg hj]
      constructor <;> simp only [hj', hcmd]
      exacts [hd.1,hd.2,hd.3,hd.4,hd.5,hd.6,hd.7,hd.8,hd.9,hd.10,hd.11,hd.12, fun e => absurd ((hd.13 e).2.trans (hold (hd.13 e).1)) hj]
  · intro _; rw [hch, hti]; simp [submitted]

theorem holdTx_linked (h : Linked s) {i : Engine} {c : CmdState} (hr : (s.chan i).txd.state ≠ .busy)
  (hidle : s.cmdState = .idle) (hc1 : ∀ j, c.holdsTx j = decide (i = j)) (hc2 : ∀ j, c.holdsRx j = false) :
  Linked ((holdTx i s).setCmdState c) := by
  have hc := h.channels i
  have hready := ready_of_ne_busy hr
  have hx : (s.chan i).cr.txeie = false := by
    have := hc.txSource; rw [hready] at this; simpa using this
  have hch : ∀ j, ((holdTx i s).setCmdState c).chan j = if j = i then {(s.chan i) with txd := (s.chan i).txd.hold, cr := {(s.chan i).cr with te := true}} else s.chan j := by
    intro j; simp only [setCmdState_chan, holdTx, chan_updCr, chan_updTxd]; by_cases hj : j = i <;> simp [hj]
  refine h.channel i (fun j hj => by rw [hch, if_neg hj]) (fun j hj => ?_) rfl rfl ?_ ?_
  · simp [hc1, hc2, hidle, holdsTx_idle, holdsRx_idle, Ne.symm hj]
  · constructor <;> simp only [hch, if_true, Descriptor.hold]
    · simp [hx]
    · exact hc.rxSource
    · simp
    · exact hc.rxCursor
    · simp
    · exact fun _ => hc.txRest hx
    · exact hc.rxReady
    · exact hc.rxRest
    · simp [hc1]
    · have := hc.rxHeld; rw [hidle, holdsRx_idle] at this; simpa [hc2] using this
    · exact hc.txRange
    · exact hc.rxRange
    · exact hc.parserOnly
  · intro _ _; left; rw [hch, if_pos rfl]

theorem holdRx_linked (h : Linked s) {i : Engine} {c : CmdState} (hr : (s.chan i).rxd.state ≠ .busy)
  (hidle : s.cmdState = .idle) (hc1 : ∀ j, c.holdsRx j = decide (i = j)) (hc2 : ∀ j, c.holdsTx j = false) :
  Linked ((holdRx i s).setCmdState c) := by
  have hc := h.channels i
  have hready := ready_of_ne_busy hr
  have hx : (s.chan i).cr.rxneie = false := by
    have := hc.rxSource; rw [hready] at this; simpa using this
  have hch : ∀ j, ((holdRx i s).setCmdState c).chan j = if j = i then {(s.chan i) with rxd := (s.chan i).rxd.hold, cr := {(s.chan i).cr with re := true}} else s.chan j := by
    intro j; simp only [setCmdState_chan, holdRx, chan_updCr, chan_updRxd]; by_cases hj : j = i <;> simp [hj]
  refine h.channel i (fun j hj => by rw [hch, if_neg hj]) (fun j hj => ?_) rfl rfl ?_ ?_
  · simp [hc1, hc2, hidle, holdsTx_idle, holdsRx_idle, Ne.symm hj]
  · constructor <;> simp only [hch, if_true, Descriptor.hold]
    · exact hc.txSource
    · simp [hx]
    · exact hc.txCursor
    · simp
    · exact hc.txReady
    · exact hc.txRest
    · simp
    · exact fun _ => hc.rxRest hx
    · have := hc.txHeld; rw [hidle, holdsTx_idle] at this; simpa [hc2] using this
    · simp [hc1]
    · exact hc.txRange
    · exact hc.rxRange
    · exact hc.parserOnly
  · intro ha hi
    have := h.parser ha
    rw [← hi, hready] at this
    simp at this

theorem endTx_linked (h : Linked s) {i : Engine} (op code) (hh : ∀ j, s.cmdState.holdsTx j = decide (i = j)) (hh2 : ∀ j, s.cmdState.holdsRx j = false) :
    Linked (endTx op i code s) := by
  have hc := h.channels i
  have hm : (s.chan i).txd.mode = .blocking := hc.txHeld.mpr (by simp [hh])
  have hx : (s.chan i).cr.txeie = false := by
    have := hc.txSource; rw [hm] at this; simpa using this
  have hch : ∀ j, (endTx op i code s).chan j = if j = i then {(s.chan i) with txd := (s.chan i).txd.restore} else s.chan j := by
    intro j; simp only [endTx, finish_chan, setCmdState_chan, chan_updTxd]
  refine h.channel i (fun j hj => by rw [hch, if_neg hj]) (fun j hj => ?_) rfl rfl ?_ ?_
  · simp [endTx, hh, hh2, holdsTx_idle, holdsRx_idle, Ne.symm hj]
  · constructor <;> simp only [hch, if_true, Descriptor.restore]
    · simp [hx]
    · exact hc.rxSource
    · simp
    · exact hc.rxCursor
    · simp
    · exact hc.txRest
    · exact hc.rxReady
    · exact hc.rxRest
    · simp [endTx, holdsTx_idle]
    · have := hc.rxHeld; rw [hh2] at this; simpa [endTx, holdsRx_idle] using this
    · exact hc.txRange
    · exact hc.rxRange
    · exact hc.parserOnly
  · intro _ _; left; rw [hch, if_pos rfl]

theorem endRx_linked (h : Linked s) {i : Engine} (op code) (hh : ∀ j, s.cmdState.holdsRx j = decide (i = j)) (hh2 : ∀ j, s.cmdState.holdsTx j = false) :
    Linked (endRx op i code s) := by
  have hc := h.channels i
  have hm : (s.chan i).rxd.mode = .blocking := hc.rxHeld.mpr (by simp [hh])
  have hx : (s.chan i).cr.rxneie = false := by
    have := hc.rxSource; rw [hm] at this; simpa using this
  have hch : ∀ j, (endRx op i code s).chan j = if j = i then {(s.chan i) with rxd := (s.chan i).rxd.restore} else s.chan j := by
    intro j; simp only [endRx, finish_chan, setCmdState_chan, chan_updRxd]
  refine h.channel i (fun j hj => by rw [hch, if_neg hj]) (fun j hj => ?_) rfl rfl ?_ ?_
  · simp [endRx, hh, hh2, holdsTx_idle, holdsRx_idle, Ne.symm hj]
  · constructor <;> simp only [hch, if_true, Descriptor.restore]
    · exact hc.txSource
    · simp [hx]
    · exact hc.txCursor
    · simp
    · exact hc.txReady
    · exact hc.txRest
    · simp
    · exact hc.rxRest
    · have := hc.txHeld; rw [hh2] at this; simpa [endRx, holdsTx_idle] using this
    · simp [endRx, holdsRx_idle]
    · exact hc.txRange
    · exact hc.rxRange
    · exact hc.parserOnly
  · intro ha hi
    have := h.parser ha
    rw [← hi, hm] at this
    simp at this

/-- FIFO / ovr / brr / ue-only changes -/
theorem Linked.updStorage (h : Linked s) (i : Engine) (f : Channel → Channel)
   (h1 : (f (s.chan i)).txd = (s.chan i).txd) (h2 : (f (s.chan i)).rxd = (s.chan i).rxd)
   (h3 : (f (s.chan i)).cr.txeie = (s.chan i).cr.txeie) (h4 : (f (s.chan i)).cr.rxneie = (s.chan i).cr.rxneie) : Linked (s.updChan i f) := by
  refine h.channel i (fun j hj => chan_updChan_ne s f hj) (fun _ _ => ⟨rfl, rfl⟩) rfl rfl ?_ ?_
  · have hc := h.channels i
    constructor <;> simp only [chan_updChan_self, h1, h2, h3, h4]
    exacts [hc.1,hc.2,hc.3,hc.4,hc.5,hc.6,hc.7,hc.8,hc.9,hc.10,hc.11,hc.12,hc.13]
  · intro _ _; left; rw [chan_updChan_self, h2]

theorem cmd_congr (h : Linked s) (c) (h1 : ∀ j, CmdState.holdsTx c j = s.cmdState.holdsTx j) (h2 : ∀ j, CmdState.holdsRx c j = s.cmdState.holdsRx j) : Linked (s.setCmdState c) where
  channels j := by
    have hc := h.channels j
    constructor <;> simp only [setCmdState_chan, setCmdState_cmdState, setCmdState_fr, h1, h2]
    exacts [hc.1,hc.2,hc.3,hc.4,hc.5,hc.6,hc.7,hc.8,hc.9,hc.10,hc.11,hc.12,hc.13]
  parser := h.parser
  buffers ha := ⟨(h.buffers ha).1, (h.buffers ha).2, (h.buffers ha).3, (h.buffers ha).4⟩

/-- transmit completion with non framer cb -/
theorem txComplete_linked (h : Linked s) {i} (hx : (s.chan i).cr.txeie = true) (hcb : (s.chan i).txd.cb ≠ .framer) {t}
   (e : txComplete i s = .go t) : Linked t := by
  have hc := h.channels i
  have hba := hc.txSource.mp hx
  have hmode : s.cmdState.holdsTx i = false := by
    have := hc.txHeld; rw [hba.2] at this; simpa using this
  have key : ∀ t : State, (∀ j, t.chan j = if j = i then {(s.chan i) with txd := (s.chan i).txd.complete, cr := {(s.chan i).cr with txeie := false}} else s.chan j) → t.cmdState = s.cmdState → t.fr = s.fr → t.par = s.par → Linked t := by
    intro t hch hcmd hf hp
    refine h.channel i (fun j hj => by rw [hch, if_neg hj]) (fun j hj => by rw [hcmd]; exact ⟨rfl, rfl⟩) hf hp ?_ ?_
    · constructor <;> simp only [hch, if_true, Descriptor.complete, hcmd, hf]
      · simp
      · exact hc.rxSource
      · simp
      · exact hc.rxCursor
      · exact fun _ => hba.2
      · simp
      · exact hc.rxReady
      · exact hc.rxRest
      · exact hc.txHeld
      · exact hc.rxHeld
      · simp
      · exact hc.rxRange
      · exact hc.parserOnly
    · intro _ _; left; rw [hch, if_pos rfl]
  have hch : ∀ j, ((s.updCr i fun c => { c with txeie := false }).updTxd i Descriptor.complete).chan j = if j = i then {(s.chan i) with txd := (s.chan i).txd.complete, cr := {(s.chan i).cr with txeie := false}} else s.chan j := by
    intro j; simp only [chan_updTxd, chan_updCr]; by_cases hj : j = i <;> simp [hj]
  unfold txComplete callback at e
  simp only at e
  split at e
  · simp only [Flow.go.injEq] at e; subst e; exact key _ hch rfl rfl rfl
  · simp only [Flow.go.injEq] at e; subst e; exact key _ hch rfl rfl rfl
  · rename_i hf; rw [hch, if_pos rfl] at hf; exact absurd hf hcb

theorem txBranch_linked (h : Linked s) (hb : Bounded s) {i} {t} (e : txBranch i s = .go t) : Linked t := by
  unfold txBranch at e
  split at e
  · rename_i hx
    simp only [Bool.and_eq_true] at hx
    split at e
    · rename_i hlt
      split at e
      · cases e
      · simp only [Flow.go.injEq] at e; subst e
        have hc := h.channels i
        have hba := hc.txSource.mp hx.2
        have hch : ∀ b j, ((txPush i b s).updTxd i Descriptor.advance).chan j = if j = i then {(s.chan i) with txd := (s.chan i).txd.advance, txf := (s.chan i).txf ++ [b]} else s.chan j := by
          intro b j; simp only [chan_updTxd, chan_txPush]; by_cases hj : j = i <;> simp [hj]
        refine h.channel i (fun j hj => by rw [hch, if_neg hj]) (fun j hj => ⟨rfl, rfl⟩) rfl rfl ?_ ?_
        · constructor <;> simp only [hch, if_true, Descriptor.advance]
          · exact hc.txSource
          · exact hc.rxSource
          · intro a b
            refine ⟨(hc.txCursor a b).1, ?_⟩
            rw [BitVec.lt_def] at hlt
            rw [BitVec.le_def, BitVec.toNat_add]
            have := (s.chan i).txd.len.isLt
            simp; omega
          · exact hc.rxCursor
          · exact hc.txReady
          · intro h0; rw [hx.2] at h0; cases h0
          · exact hc.rxReady
          · exact hc.rxRest
          · exact hc.txHeld
          · exact hc.rxHeld
          · exact hc.txRange
          · exact hc.rxRange
          · exact hc.parserOnly
        · intro _ _; left; rw [hch, if_pos rfl]
    · exact txComplete_linked h hx.2 (hb.channels i).txCallback e
  · simp only [Flow.go.injEq] at e; subst e; exact h

theorem rxBranch_linked (h : Linked s) (hb : Bounded s) {i} {t} (e : rxBranch i s = .go t) : Linked t := by
  unfold rxBranch at e
  split at e
  · simp only [Flow.go.injEq] at e; subst e; exact h
  rename_i b rest hrxf
  split at e
  · rename_i hx
    split at e
    · rename_i hlt
      rcases memWrite_cases (s.chan i).rxd.cursorAddr b (rxDrop i s) with ⟨hw, em⟩ | ⟨hw, em⟩
      · rw [em] at e
        simp only [Flow.andThen] at e
        have h0 : Linked (rxDrop i s) := h.updStorage i _ rfl rfl rfl rfl
        have hc := h0.channels i
        have hdr : ((rxDrop i s).chan i).rxd = (s.chan i).rxd := by rw [chan_rxDrop, if_pos rfl]
        have hcr : ((rxDrop i s).chan i).cr = (s.chan i).cr := by rw [chan_rxDrop, if_pos rfl]
        rw [← hdr] at hlt
        rw [← hcr] at hx
        have hpar : (rxDrop i s).par = s.par := rfl
        have hwf : s.par.wf := hb.params
        generalize rxDrop i s = u at *
        rw [← hpar] at hwf
        clear hrxf hdr hcr hpar
        have hba := hc.rxSource.mp hx
        unfold rxAdvance at e
        simp only at e
        have hch1 : ∀ j, (((u.setMem (u.mem.write (s.chan i).rxd.cursorAddr b)).updRxd i Descriptor.advance)).chan j = if j = i then {(u.chan i) with rxd := (u.chan i).rxd.advance} else u.chan j := by
          intro j; simp only [chan_updRxd]; rfl
        split at e
        · rename_i heq
          rw [hch1, if_pos rfl] at heq
          -- completion
          unfold rxComplete callback at e
          simp only at e
          have hch2 : ∀ j, ((((u.setMem (u.mem.write (s.chan i).rxd.cursorAddr b)).updRxd i Descriptor.advance).updCr i fun c => { c with rxneie := false }).updRxd i Descriptor.complete).chan j = if j = i then {(u.chan i) with rxd := (u.chan i).rxd.advance.complete, cr := {(u.chan i).cr with rxneie := false}} else u.chan j := by
            intro j; rw [chan_updRxd, chan_updCr, chan_updCr, hch1, hch1]; by_cases hj : j = i <;> simp [hj]
          have key : ∀ t : State, (∀ j, t.chan j = if j = i then {(u.chan i) with rxd := (u.chan i).rxd.advance.complete, cr := {(u.chan i).cr with rxneie := false}} else u.chan j) → t.cmdState = u.cmdState → t.fr = u.fr → t.par = u.par → (u.chan i).rxd.cb ≠ .framer → Linked t := by
            intro t hch hcmd hf hp hcb
            refine h0.channel i (fun j hj => by rw [hch, if_neg hj]) (fun j hj => by rw [hcmd]; exact ⟨rfl, rfl⟩) hf hp ?_ ?_
            · constructor <;> simp only [hch, if_true, Descriptor.complete, Descriptor.advance, hcmd, hf]
              · exact hc.txSource
              · simp
              · exact hc.txCursor
              · simp
              · exact hc.txReady
              · exact hc.txRest
              · exact fun _ => hba.2
              · simp
              · exact hc.txHeld
              · exact hc.rxHeld
              · exact hc.txRange
              · simp
              · exact hc.parserOnly
            · intro ha hi
              have := (h0.parser ha).2.2
              rw [← hi] at this
              exact absurd this hcb
          split at e
          · rename_i hcb
            rw [hch2, if_pos rfl] at hcb
            simp only [Flow.go.injEq] at e; subst e
            exact key _ hch2 rfl rfl rfl (by simpa [Descriptor.complete, Descriptor.advance] using (show (u.chan i).rxd.cb ≠ .framer by rw [show (u.chan i).rxd.cb = .none from hcb]; decide))
          · rename_i hcb
            rw [hch2, if_pos rfl] at hcb
            simp only [Flow.go.injEq] at e; subst e
            exact key _ hch2 rfl rfl rfl (by simpa [Descriptor.complete, Descriptor.advance] using (show (u.chan i).rxd.cb ≠ .framer by rw [show (u.chan i).rxd.cb = .host from hcb]; decide))
          · rename_i hcb
            rw [hch2, if_pos rfl] at hcb
            have hfr := hc.parserOnly hcb
            have hbuf := h0.buffers hfr.1
            have o := framerOnRx_out e
            have oc : t.fr.ch = i := o.ch.trans hfr.2.symm
            have oh : t.fr.hdrAddr = u.fr.hdrAddr := o.hdr
            have op : t.fr.payAddr = u.fr.payAddr := o.pay
            have ok : t.fr.payCap = u.fr.payCap := o.cap
            have kk := serviceFrame_framerOnRx i (((((u.setMem (u.mem.write (s.chan i).rxd.cursorAddr b)).updRxd i Descriptor.advance).updCr i fun c => { c with rxneie := false }).updRxd i Descriptor.complete))
            rw [e] at kk
            have hcmd : t.cmdState = u.cmdState := kk.cmdState
            have hpt : t.par = u.par := kk.par
            have hchan : ∀ a l j, (armReceive i a l .framer (((((u.setMem (u.mem.write (s.chan i).rxd.cursorAddr b)).updRxd i Descriptor.advance).updCr i fun c => { c with rxneie := false }).updRxd i Descriptor.complete))).chan j = (armReceive i a l .framer u).chan j := by
              intro a l j
              rw [chan_armReceive, chan_armReceive, hch2, hch2]
              by_cases hj : j = i <;> simp [hj]
            have hlen : (BitVec.ofNat 32 u.par.hdrLen).toNat = u.par.hdrLen := by
              have := hwf.2.2.2.2.2.2.2.2.2.1
              simpa using this
            have hpos : 1 ≤ u.par.hdrLen := hwf.2.2.2.2.2.2.2.2.1
            rcases o.arm with ⟨hs, ho⟩ | ⟨hs, hl0, hl1, ho⟩
            · refine framer_linked h0 (t := t) (i := i) (a := u.fr.hdrAddr) (l := BitVec.ofNat 32 u.par.hdrLen) ?_ ?_ hba.2 ?_ hcmd (o.active.trans hfr.1) (o.ch.trans hfr.2.symm) (fun _ => hfr.2.symm) ?_
              · rw [BitVec.lt_def, hlen]; simp; omega
              · rw [hlen]; exact hbuf.header
              · intro j; rw [ho, hchan]; rfl
              · have hti : t.chan i = _ := ho i
                rw [chan_armReceive, if_pos rfl] at hti
                constructor
                · rw [o.hdr, hpt]; exact hbuf.header
                · rw [o.pay, o.cap]; exact hbuf.payload
                · intro _; rw [oc, hti, oh, hpt]
                  exact ⟨rfl, hlen⟩
                · intro hh; rw [hs] at hh; cases hh
            · refine framer_linked h0 (t := t) (i := i) (a := u.fr.payAddr) (l := t.fr.lastLen) hl0 ?_ hba.2 ?_ hcmd (o.active.trans hfr.1) (o.ch.trans hfr.2.symm) (fun _ => hfr.2.symm) ?_
              · have := hbuf.payload; rw [BitVec.le_def] at hl1
                have hl1' : t.fr.lastLen.toNat ≤ u.fr.payCap.toNat := hl1
                omega
              · intro j; rw [ho, hchan]; rfl
              · have hti : t.chan i = _ := ho i
                rw [chan_armReceive, if_pos rfl] at hti
                constructor
                · rw [o.hdr, hpt]; exact hbuf.header
                · rw [o.pay, o.cap]; exact hbuf.payload
                · intro hh; rw [hs] at hh; cases hh
                · intro _; rw [oc, hti, op, ok]
                  exact ⟨rfl, rfl, hl1⟩
        · rename_i hne
          rw [hch1, if_pos rfl] at hne
          simp only [Flow.go.injEq] at e; subst e
          have hne' : (u.chan i).rxd.cur + 1#32 ≠ (u.chan i).rxd.len := hne
          refine h0.channel i (fun j hj => by rw [hch1, if_neg hj]) (fun j hj => ⟨rfl, rfl⟩) rfl rfl ?_ ?_
          · constructor <;> simp only [hch1, if_true, Descriptor.advance]
            · exact hc.txSource
            · exact hc.rxSource
            · exact hc.txCursor
            · intro _ _
              rw [BitVec.lt_def] at hlt ⊢
              rw [BitVec.toNat_add]
              have := (u.chan i).rxd.len.isLt
              have : (u.chan i).rxd.cur.toNat + 1 ≠ (u.chan i).rxd.len.toNat := by
                intro e
                apply hne'
                apply BitVec.eq_of_toNat_eq
                rw [BitVec.toNat_add]; simp; omega
              simp; omega
            · exact hc.txReady
            · exact hc.txRest
            · exact hc.rxReady
            · intro h0; rw [hx] at h0; cases h0
            · exact hc.txHeld
            · exact hc.rxHeld
            · exact hc.txRange
            · exact hc.rxRange
            · exact hc.parserOnly
          · intro ha hi; right; rw [hch1, if_pos rfl]; exact ⟨hba.1, hba.2, rfl, rfl, rfl⟩
      · rw [em] at e; cases e
    · cases e
  · simp only [Flow.go.injEq] at e; subst e; exact h

theorem serve_linked (h : Linked s) (hb : Bounded s) {i : Engine} (hi : i.val < s.par.numChannels) {t} (e : serve i s = .go t) : Linked t := by
  unfold serve at e
  cases hx : txBranch i s with
  | go u =>
    rw [hx] at e
    have hu := txBranch_linked h hb hx
    have hbu := txBranch_bounded hb hi
    rw [hx] at hbu
    exact rxBranch_linked hu hbu e
  | stop u => rw [hx] at e; cases e

/-- a Flow that stops has a fault -/
def StopsFaulted (f : Flow) : Prop := ∀ u, f = .stop u → ¬ FaultFree u

theorem framerOnRx_stops (i s) : StopsFaulted (framerOnRx i s) := by
  intro u e
  unfold framerOnRx headerDone payloadDone at e
  split at e <;> split at e
  all_goals cases e
  all_goals exact not_faultFree_raise _

theorem callback_stops (i b c s) : StopsFaulted (callback i b c s) := by
  intro u e
  unfold callback at e
  split at e
  · cases e
  · cases e
  · exact framerOnRx_stops _ _ _ e

theorem serve_stops (i s) : StopsFaulted (serve i s) := by
  intro u e
  unfold serve at e
  cases hx : txBranch i s with
  | stop v =>
    rw [hx] at e; cases e
    unfold txBranch at hx
    split at hx
    · split at hx
      · split at hx
        · cases hx; exact not_faultFree_raise _
        · cases hx
      · exact callback_stops _ _ _ _ _ hx
    · cases hx
  | go v =>
    rw [hx] at e
    simp only [Flow.andThen] at e
    unfold rxBranch at e
    split at e
    · cases e
    · split at e
      · split at e
        · rename_i b _ _ _ _
          rcases memWrite_cases (v.chan i).rxd.cursorAddr b (rxDrop i v) with ⟨hw, em⟩ | ⟨hw, em⟩
          · rw [em] at e
            simp only [Flow.andThen] at e
            unfold rxAdvance at e
            simp only at e
            split at e
            · exact callback_stops _ _ _ _ _ e
            · cases e
          · rw [em] at e; cases e; exact not_faultFree_raise _
        · cases e; exact not_faultFree_raise _
      · cases e

theorem sendStart_stops (i a l cb s) : StopsFaulted (sendStart i a l cb s) := by
  intro u e
  unfold sendStart at e
  simp only at e
  split at e
  · split at e
    · cases e; exact not_faultFree_raise _
    · cases e
  · cases e

end Sys2Proof.Machine
end

