-- ==== Sys2Proof/Laws/PerInstr.lean ====
section
/-! SUPPORT. Statements made for every instruction, one lemma per constructor. -/

namespace Sys2Proof.Laws

/-- Field `OP` of each command (30_encoding.md R82). -/
def opNumber : Instr → BitVec 4
  | .init _ _ => 0x1#4
  | .submitSend _ _ => 0x2#4
  | .submitRecv _ _ => 0x3#4
  | .sendByte _ _ => 0x4#4
  | .getByte _ => 0x5#4
  | .framerStart _ => 0x6#4
  | .sendFrame _ => 0x7#4

/-- The low four bits of a word that ends in `c ++ op`. -/
theorem low_field {n : Nat} (x : BitVec n) (c op : BitVec 4) : (x ++ c ++ op).extractLsb' 0 4 = op := by
  ext k hk
  simp [BitVec.getLsbD_append, hk]

/-- The next four bits. -/
theorem second_field {n : Nat} (x : BitVec n) (c op : BitVec 4) : (x ++ c ++ op).extractLsb' 4 4 = c := by
  ext k hk
  simp [BitVec.getLsbD_append, hk]

/-- A channel id that fits its field is read back from it. -/
theorem ch_ofNat {ch : Nat} (h : ch < 16) : (BitVec.ofNat 4 ch).toNat = ch := by
  simp
  omega

namespace EncodeFields

/-- The word of a well-formed command has its operation code in `OP` and its channel id in `CH` (30_encoding.md R80,
R82). -/
def Statement (i : Instr) : Prop :=
  i.wellFormed = true → fieldOp (encode i) = opNumber i ∧ fieldCh (encode i) = i.ch

theorem init (ch : Nat) (over8 : Bool) : Statement (.init ch over8) := fun h =>
  ⟨low_field _ _ _, (congrArg BitVec.toNat (second_field _ _ _)).trans (ch_ofNat (of_decide_eq_true h))⟩

theorem submitSend (ch : Nat) (hostcb : Bool) : Statement (.submitSend ch hostcb) := fun h =>
  ⟨low_field _ _ _, (congrArg BitVec.toNat (second_field _ _ _)).trans (ch_ofNat (of_decide_eq_true h))⟩

theorem submitRecv (ch : Nat) (hostcb : Bool) : Statement (.submitRecv ch hostcb) := fun h =>
  ⟨low_field _ _ _, (congrArg BitVec.toNat (second_field _ _ _)).trans (ch_ofNat (of_decide_eq_true h))⟩

theorem sendByte (ch : Nat) (data : Byte) : Statement (.sendByte ch data) := fun h =>
  ⟨low_field _ _ _, (congrArg BitVec.toNat (second_field _ _ _)).trans (ch_ofNat (of_decide_eq_true h))⟩

theorem getByte (ch : Nat) : Statement (.getByte ch) := fun h =>
  ⟨low_field _ _ _, (congrArg BitVec.toNat (second_field _ _ _)).trans (ch_ofNat (of_decide_eq_true h))⟩

theorem framerStart (ch : Nat) : Statement (.framerStart ch) := fun h =>
  ⟨low_field _ _ _, (congrArg BitVec.toNat (second_field _ _ _)).trans (ch_ofNat (of_decide_eq_true h))⟩

theorem sendFrame (ch : Nat) : Statement (.sendFrame ch) := fun h =>
  ⟨low_field _ _ _, (congrArg BitVec.toNat (second_field _ _ _)).trans (ch_ofNat (of_decide_eq_true h))⟩

end EncodeFields

end Sys2Proof.Laws
end

