-- ==== Sys2Proof/Laws/Run.lean ====
section
/-! SUPPORT. Runs, a step at a time (20_memory.md R65). -/

namespace Sys2Proof.Machine

variable {s t : State}

/-- A step is the first pending one. -/
theorem step_of_agenda {a : Action} {rest : List Action} (h : s.agenda = a :: rest) :
    step s = act a (s.setAgenda rest) := by
  unfold step stepOf
  rw [h]

theorem runFor_zero (s : State) : runFor 0 s = .next s := rfl

theorem core_run_next {M : Host.Core} {n : Nat} {s u : M.State} (h : M.step s = .next u) :
    M.run (n + 1) s = M.run n u := by simp only [Host.Core.run, h]

theorem core_run_fault {M : Host.Core} {n : Nat} {s : M.State} {r : M.Fault} (h : M.step s = .fault r) :
    M.run (n + 1) s = .fault r := by simp only [Host.Core.run, h]

theorem core_run_refused {M : Host.Core} {n : Nat} {s : M.State} {r : M.Refusal} (h : M.step s = .refused r) :
    M.run (n + 1) s = .refused r := by simp only [Host.Core.run, h]

/-- A run of one step more. -/
theorem runFor_step (n : Nat) (s : State) :
    runFor (n + 1) s =
      match step s with
      | .next s' => runFor n s'
      | .fault r => .fault r
      | .refused r => .refused r := by
  cases h : step s with
  | next u => exact core_run_next (M := Sys2Proof.core) h
  | fault r => exact core_run_fault (M := Sys2Proof.core) h
  | refused r => exact core_run_refused (M := Sys2Proof.core) h

theorem runFor_succ {n : Nat} (h : step s = .next t) : runFor (n + 1) s = runFor n t := by
  rw [runFor_step, h]

theorem runFor_add {m n : Nat} (h : runFor m s = .next t) : runFor (m + n) s = runFor n t := by
  induction m generalizing s with
  | zero =>
    cases h
    rw [Nat.zero_add]
  | succ m ih =>
    rw [runFor_step] at h
    rw [Nat.add_right_comm, runFor_step]
    cases hs : step s with
    | next u =>
      rw [hs] at h
      exact ih h
    | fault r =>
      rw [hs] at h
      cases h
    | refused r =>
      rw [hs] at h
      cases h

end Sys2Proof.Machine
end

