-- ==== Sys2Proof/Tests/Slice0.lean ====
section
/-! SUPPORT. Small tests, their expected results taken from 95_test_vectors.md and from the formats of 30_encoding.md, and
a witness for the hypotheses of each statement. -/

namespace Sys2Proof.Tests

open Sys2Proof.Machine

/-! ### Small states -/

/-- The state a step leaves; a stop shows as the state before it. -/
def after (s : State) : Host.Outcome State Fault Refusal → State
  | .next t => t
  | .fault _ => s
  | .refused _ => s

/-- Channel 0 of the reset state changed by `f`. -/
def with0 (f : Channel → Channel) : State := State.reset.updChan 0 f

/-- A channel initialised at 9600 baud (2.2). -/
def inited (c : Channel) : Channel := { c with cr := { c.cr with ue := true }, brr := 0x683#32 }

/-- A descriptor of a transfer in flight. -/
def busy (addr len cur : Word) (cb : Callback) : Descriptor := { submitted addr len cb with cur := cur }

/-- Channel 0 initialised, with a transmit in flight. -/
def sending (len cur : Word) (cb : Callback) : State :=
  with0 fun c =>
    { inited c with
      cr := { (inited c).cr with te := true, txeie := true }
      txd := busy 0x20000100#32 len cur cb }

/-- Channel 0 initialised, with a receive in flight and bytes in its FIFO. -/
def receiving (len cur : Word) (cb : Callback) (rxf : List Byte) : State :=
  with0 fun c =>
    { inited c with
      cr := { (inited c).cr with re := true, rxneie := true }
      rxd := busy 0x20000100#32 len cur cb
      rxf := rxf }

/-- Channel 0 with a transmit in flight and a receive whose next byte waits. -/
def bothWays (txLen txCur : Word) (txCb : Callback) (rxLen rxCur : Word) : State :=
  (receiving rxLen rxCur .host [0x33#8]).updChan 0 fun c =>
    { c with cr := { c.cr with te := true, txeie := true }, txd := busy 0x20000400#32 txLen txCur txCb }

/-- `s` with its operands. -/
def args (a0 a1 a2 : Word) (s : State) : State := { s with arg0 := a0, arg1 := a1, arg2 := a2 }

/-- A parser started on channel 0 with header buffer `H`, payload buffer `P` and capacity 64, in HeaderWait, with a byte
in the FIFO (2.7). -/
def parsing : State :=
  { (receiving 10#32 0#32 .framer [0x0D#8]).updRxd 0 (fun d => { d with addr := 0x20000200#32 }) with
    fr :=
      { FrameContext.reset with
        active := true, hdrAddr := 0x20000200#32, payAddr := 0x20000300#32, payCap := 64#32 } }

/-- Memory with bytes stored from address `a`. -/
def store (m : Memory) (a : Nat) : List Byte → Memory
  | [] => m
  | b :: bs => store (m.write a b) (a + 1) bs

/-! ### WellFormed -/

theorem test_wellFormed_refuses_channel_16 : (Instr.getByte 16).wellFormed = false := by decide
theorem test_wellFormed_admits_channel_15 : (Instr.getByte 15).wellFormed = true := by decide

/-! ### Decoding: words written out from R81, `{bits 31..24, 23..16, 15..8, CH, OP}` -/

theorem test_decode_init : decode 0b00000000_00000000_00000001_0000_0001#32 = .ok (.init 0 true) := by decide
theorem test_decode_submitSend : decode 0b00000000_00000000_00000001_0001_0010#32 = .ok (.submitSend 1 true) := by decide
theorem test_decode_submitRecv : decode 0b00000000_00000000_00000000_1111_0011#32 = .ok (.submitRecv 15 false) := by
  decide
theorem test_decode_sendByte : decode 0b00000000_01000001_00000000_0000_0100#32 = .ok (.sendByte 0 0x41#8) := by decide
theorem test_decode_getByte : decode 0b00000000_00000000_00000000_0010_0101#32 = .ok (.getByte 2) := by decide
theorem test_decode_framerStart : decode 0b00000000_00000000_00000000_0001_0110#32 = .ok (.framerStart 1) := by decide
theorem test_decode_sendFrame : decode 0b00000000_00000000_00000000_0010_0111#32 = .ok (.sendFrame 2) := by decide

/-- The table's reserved words (2.1). -/
theorem test_decode_reserved :
    decode 0x00000203#32 = .error (.reservedBits 0x203#32) ∧ decode 0x00410104#32 = .error (.reservedBits 0x410104#32) ∧
    decode 0x00000106#32 = .error (.reservedBits 0x106#32) ∧ decode 0x00000000#32 = .error (.reservedOpcode 0#4) ∧
    decode 0xFFFFFFFF#32 = .error (.reservedOpcode 0xF#4) := by decide

/-- Bytes in register order: the word 0x00410004 is stored 04 00 41 00 (20_memory.md R62). -/
theorem test_decodeBytes_order : decodeBytes [0x04#8, 0x00#8, 0x41#8, 0x00#8] = .ok (.sendByte 0 0x41#8) := by decide

theorem test_withFetchWord_runs :
    after State.reset (step (State.reset.withFetchWord 32 0x00000203)) =
      { State.reset with result := .invalidArgument, events := [.cmdDone .illegal .invalidArgument] } := by decide

/-! ### INIT (2.2) -/

theorem test_init_9600 :
    let t := after State.reset (exec (.init 0 false) (args 9600#32 0 0 State.reset))
    t.result = .ok ∧ readReg (.brr 0) t = 0x683#32 ∧ readReg (.cr 0) t = 0x01#32 ∧ readReg (.sr 0) t = 0x9#32 := by decide

theorem test_init_over8 :
    let t := after State.reset (exec (.init 0 true) (args 9600#32 0 0 State.reset))
    t.result = .ok ∧ readReg (.brr 0) t = 0xD03#32 ∧ readReg (.cr 0) t = 0x21#32 := by decide

theorem test_baudDivisor_carries :
    baudDivisor 4095 955 10 false = some (6, 0) ∧ baudDivisor 4095 315 10 true = some (4, 0) := by decide

theorem test_baudDivisor_bounds :
    baudDivisor 4095 16000000 2000000 false = none ∧ baudDivisor 4095 16000000 2000000 true = some (1, 0) ∧
    baudDivisor 4095 16000000 200 false = none ∧ baudDivisor 4095 16000000 0 false = none := by decide

/-! ### Submits (2.3) -/

/-- S7. -/
theorem test_submitSend_pushes_first :
    let s := args 0x20000100#32 3#32 0 { with0 inited with mem := [(0x20000100, 0x41#8), (0x20000101, 0x42#8)] }
    let t := after s (exec (.submitSend 0 true) s)
    t.result = .ok ∧ (t.chan 0).txf = [0x41#8] ∧ (t.chan 0).txd.cur = 1#32 ∧ readReg (.txdCtl 0) t = 0x5#32 ∧
      readReg (.cr 0) t = 0x0B#32 := by decide

/-- S8: the FIFO is full, so nothing is pushed. -/
theorem test_submitSend_full :
    let s := args 0x20000100#32 3#32 0 (with0 fun c => { c with txf := [0x55#8] })
    let t := after s (exec (.submitSend 0 false) s)
    t.result = .ok ∧ (t.chan 0).txf = [0x55#8] ∧ (t.chan 0).txd.cur = 0#32 := by decide

/-- S9. -/
theorem test_submitRecv_arms :
    let s := args 0x20000100#32 2#32 0 (with0 inited)
    let t := after s (exec (.submitRecv 0 false) s)
    t.result = .ok ∧ (t.chan 0).rxd = busy 0x20000100#32 2#32 0#32 .none ∧ readReg (.cr 0) t = 0x15#32 := by decide

/-- S4: the range passes 2^32. -/
theorem test_submitRecv_range :
    let s := args 0xFFFFFFFF#32 2#32 0 (with0 inited)
    after s (exec (.submitRecv 0 false) s) =
      { s with result := .invalidArgument, events := [.cmdDone .submitRecv .invalidArgument] } := by decide

/-! ### Blocking commands (2.6) -/

/-- B1, the poll. -/
theorem test_sendByte_poll :
    let s := after State.reset (exec (.sendByte 0 0x41#8) State.reset)
    let t := after s (act .poll s)
    t.result = .ok ∧ (t.chan 0).txf = [0x41#8] ∧ (t.chan 0).cr.te = true ∧ readReg (.txdCtl 0) t = 0#32 := by decide

/-- W6, its last poll: 1999 polls made and still no room. -/
theorem test_sendByte_last_poll :
    let s : State :=
      { with0 fun c => { c with txf := [0x55#8], txd := c.txd.hold } with cmdState := .sendByte 0 0x56#8 1999 }
    let t := after s (act .poll s)
    t.result = .timeout ∧ (t.chan 0).txf = [0x55#8] ∧ readReg (.txdCtl 0) t = 0#32 := by decide

/-- B4, the poll. -/
theorem test_getByte_poll :
    let s0 := with0 fun c => { c with rxf := [0x7F#8] }
    let s := after s0 (exec (.getByte 0) s0)
    let t := after s (act .poll s)
    t.result = .ok ∧ t.rdata = 0x7F#32 ∧ (t.chan 0).rxf = [] ∧ (t.chan 0).cr.re = true := by decide

/-- B9, poll 8: the byte is found after seven polls without one. -/
theorem test_getByte_poll_8 :
    let s : State := { with0 (fun c => { inited c with rxf := [0x5A#8], rxd := c.rxd.hold }) with cmdState := .getByte 0 7 }
    let t := after s (act .poll s)
    t.result = .ok ∧ t.rdata = 0x5A#32 ∧ readReg (.rxdCtl 0) t = 0#32 := by decide

/-- B5, during the command: `RXD_CTL[0]` is Busy, Blocking, CB 0. -/
theorem test_getByte_holds :
    readReg (.rxdCtl 0) (after State.reset (exec (.getByte 0) State.reset)) = 0x3#32 := by decide

/-! ### The frame parser (2.7) -/

/-- The start of F2 to F14. -/
theorem test_framerStart_arms :
    let s := args 0x20000200#32 0x20000300#32 64#32 (with0 inited)
    let t := after s (exec (.framerStart 0) s)
    t.result = .ok ∧ readReg .frStatus t = 0x1#32 ∧ readReg (.rxdCtl 0) t = 0x9#32 ∧ readReg (.cr 0) t = 0x15#32 ∧
      (t.chan 0).rxd.len = 10#32 := by decide

/-- F1c: the buffers overlap. -/
theorem test_framerStart_overlap :
    let s := args 0x20000300#32 0x20000305#32 64#32 (with0 inited)
    (after s (exec (.framerStart 0) s)).result = .invalidArgument := by decide

/-- The state in which the last byte of a header or payload waits in the FIFO. -/
def lastByte (f : FrameContext) (addr len : Word) (before : List Byte) (last : Byte) : State :=
  { receiving len (len - 1#32) .framer [last] with
    fr := f, mem := store [] addr.toNat before }.updRxd 0 fun d => { d with addr := addr }

/-- W3. -/
theorem test_header_arms_payload :
    let s := lastByte parsing.fr 0x20000200#32 10#32 [0x0D#8, 2#8, 0#8, 0#8, 0#8, 0x15#8, 0x0C#8, 0#8, 0#8] 0#8
    let t := after s (act (.svc 0) s)
    (t.chan 0).rxd = busy 0x20000300#32 12#32 0#32 .framer ∧ readReg .frStatus t = 0x3#32 ∧ t.fr.lastId = 2#32 ∧
      t.fr.lastLen = 12#32 ∧ t.irqStatus = 0#32 ∧ t.events = [] := by decide

/-- W4. -/
theorem test_header_rejected :
    let s := lastByte parsing.fr 0x20000200#32 10#32 [] 0#8
    let t := after s (act (.svc 0) s)
    (t.chan 0).rxd = busy 0x20000200#32 10#32 0#32 .framer ∧ readReg .frStatus t = 0x601#32 ∧
      t.irqStatus = 0x20000#32 ∧ t.events = [] := by decide

/-- F2, its last byte. -/
theorem test_payload_dispatched :
    let f := { parsing.fr with state := .payloadWait, lastId := 2#32, lastLen := 2#32 }
    let s := lastByte f 0x20000300#32 2#32 [0x10#8] 0x05#8
    let t := after s (act (.svc 0) s)
    t.events = [.handlerCall 2#32 (.setPin 0#32 5#32)] ∧ readReg .frStatus t = 0x1#32 ∧ t.irqStatus = 0x10000#32 ∧
      (t.chan 0).rxd = busy 0x20000200#32 10#32 0#32 .framer := by decide

/-- F5, its last byte: an identifier without a handler. -/
theorem test_payload_unmapped :
    let f := { parsing.fr with state := .payloadWait, lastId := 9#32, lastLen := 2#32 }
    let s := lastByte f 0x20000300#32 2#32 [0x10#8] 0x05#8
    let t := after s (act (.svc 0) s)
    t.events = [] ∧ readReg .frStatus t = 0x701#32 ∧ t.irqStatus = 0x20000#32 := by decide

/-- W7, F9, F10, F13. -/
theorem test_reference_payload_codec :
    refPayloadEncode (.pinValue 0#32 5#32 1#32) = [0x10#8, 0x05#8, 0x18#8, 0x01#8] ∧
    refPayloadDecode 4#32 [0x10#8, 0x05#8, 0x18#8, 0x01#8] = some (.pinValue 0#32 5#32 1#32) ∧
    refPayloadDecode 2#32 [0x18#8, 0x01#8] = none ∧ refPayloadDecode 2#32 [0x10#8, 0x85#8] = none ∧
    refPayloadDecode 2#32 [0x10#8, 0x05#8, 0x10#8, 0x07#8] = some (.setPin 0#32 7#32) := by decide

/-! ### SEND_FRAME (2.8) -/

/-- SF1, during the command. -/
theorem test_sendFrame_starts :
    let s := args 0x20000400#32 4#32 4#32 (with0 inited)
    let t := after s (exec (.sendFrame 0) s)
    t.cmdState =
        .sendFrame 0 [0x0D#8, 4#8, 0#8, 0#8, 0#8, 0x15#8, 4#8, 0#8, 0#8, 0#8] 0x20000400#32 4#32 0 0 ∧
      readReg (.txdCtl 0) t = 0x3#32 ∧ (t.chan 0).cr.txeie = false := by decide

/-- SF1, its last poll. -/
theorem test_sendFrame_last_poll :
    let s : State :=
      { with0 (fun c => { inited c with txd := c.txd.hold }) with
        cmdState := .sendFrame 0 [] 0x20000400#32 4#32 13 0
        mem := [(0x20000403, 0x01#8)] }
    let t := after s (act .poll s)
    t.result = .ok ∧ (t.chan 0).txf = [0x01#8] ∧ readReg (.txdCtl 0) t = 0#32 ∧ t.cmdState = .idle := by decide

/-! ### Service and line (2.4, 2.5) -/

/-- The transmit trace, step 7. -/
theorem test_transmit_completion :
    let s := sending 3#32 3#32 .host
    let t := after s (act (.svc 0) s)
    (t.chan 0).txd.state = .ready ∧ (t.chan 0).txd.cur = 0#32 ∧ (t.chan 0).cr.txeie = false ∧ t.irqStatus = 0x1#32 := by
  decide

/-- W2, the last of three. -/
theorem test_receive_completion :
    let s := receiving 3#32 2#32 .host [0x81#8]
    let t := after s (act (.svc 0) s)
    (t.chan 0).rxd.state = .ready ∧ (t.chan 0).rxd.cur = 0#32 ∧ t.irqStatus = 0x2#32 ∧
      t.mem = [(0x20000102, 0x81#8)] := by decide

/-- RX5: both directions complete in one invocation. -/
theorem test_both_complete :
    let t := after State.reset (act (.svc 0) (bothWays 1#32 1#32 .host 1#32 0#32))
    t.irqStatus = 0x3#32 ∧ (t.chan 0).txd.state = .ready ∧ (t.chan 0).rxd.state = .ready := by decide

/-- RX2, the second byte. -/
theorem test_overrun :
    let s := receiving 2#32 0#32 .none [0x11#8]
    let t := after s (act (.lineRx 0 0x22#8) s)
    readReg (.sr 0) t = 0x0F#32 ∧ t.events = [.wireIn 0 0x22#8 false] := by decide

/-! ### Register access (2.9) -/

/-- A2 and A15. -/
theorem test_host_faults :
    (after State.reset (act (.host (.regWrite .w8 0x004#10 7#32)) State.reset)).faults = [.busError 0x40000004] ∧
    (after State.reset (act (.host (.memWrite 0x20000101#32 7#8)) (receiving 3#32 0#32 .none []))).faults =
      [.ownershipViolation 0x20000101] := by decide

/-- A4, A5, A7. -/
theorem test_register_writes :
    (writeReg .irqEnable 0xFFFFFFFF#32 State.reset).irqEnable = 0x0003000F#32 ∧
    (writeReg .irqStatus 0x1#32 { State.reset with irqStatus := 0x3#32 }).irqStatus = 0x2#32 ∧
    readReg (.sr 0) (writeReg (.sr 0) 0xF#32 (with0 fun c => { c with ovr := true })) = 0x09#32 := by decide

/-- A9, A10 and the last register of channel 1. -/
theorem test_register_map :
    regAt Params.ofVectors 0x038 = .reserved ∧ regAt Params.ofVectors 0x240 = .reserved ∧
    regAt Params.ofVectors 0x168 = .rxdCtl 1 := by decide

/-- A11: the parser on channel 1 in PayloadWait. -/
theorem test_frStatus :
    readReg .frStatus { State.reset with fr := { FrameContext.reset with active := true, state := .payloadWait, ch := 1 } } =
      0x13#32 := by decide

/-! ### Witnesses: states and operands that meet the hypotheses of each statement, each clause at a boundary -/

theorem witness_DecodeOfEncode : (Instr.sendFrame 15).wellFormed = true ∧ (Instr.init 0 true).wellFormed = true := by decide

theorem witness_EncodeOfDecode : decode 0x00FF00F4#32 = .ok (.sendByte 15 0xFF#8) := by decide

/-- One illegal word for each of the four clauses. -/
theorem witness_IllegalWord :
    let s (w : Word) := State.reset.setAgenda [cmdWrite w]
    (∀ w, (s w).agenda = cmdWrite w :: [] ∧ (s w).cmdState = .idle) ∧
    8#32 ≤ 0x8#32 &&& 0xF#32 ∧ (0x203#32 &&& 0xF#32 = 3#32 ∧ 0x203#32 &&& 0xFFFFFE00#32 ≠ 0#32) ∧
    (0x01000004#32 &&& 0xF#32 = 4#32 ∧ 0x01000004#32 &&& 0xFF00FF00#32 ≠ 0#32) ∧
    (0x107#32 &&& 0xF#32 = 7#32 ∧ 0x107#32 &&& 0xFFFFFF00#32 ≠ 0#32) := ⟨fun _ => ⟨rfl, rfl⟩, by decide⟩

theorem witness_StepRuns :
    (State.reset.setAgenda [cmdWrite 0x101#32]).agenda = cmdWrite 0x101#32 :: [] ∧ State.reset.cmdState = .idle ∧
    decode 0x101#32 = .ok (.init 0 true) ∧ (Instr.init 0 true).wellFormed = true := by decide

theorem witness_FailedCommand :
    ∃ t, exec (.getByte 15) State.reset = .next t ∧
      t.events = State.reset.events ++ [.cmdDone .getByte .invalidChannel] ∧ ResultCode.invalidChannel ≠ .ok :=
  ⟨_, rfl, by decide⟩

theorem witness_CommandFrame :
    ∃ t, exec (.submitRecv 1 true) State.reset = .next t ∧ opOf (.submitRecv 1 true) ≠ .framerStart ∧
      chanMap State.reset.par (Instr.submitRecv 1 true).ch ≠ some 0 := ⟨_, rfl, by decide⟩

/-- The last mantissa admitted and the first one refused: 16 000 000 / 16 / 4095 and / 4096. -/
theorem witness_BaudDivisor :
    0 < 245 ∧ baudDivisor 4095 16000000 245 false = some (4081, 11) ∧ 0 < 244 ∧
    baudDivisor 4095 16000000 244 false = none := by decide

/-- A first INIT over a Busy descriptor, and a second one over Ready descriptors. -/
theorem witness_InitPrograms :
    let s := args 9600#32 0 0 (with0 fun c => { c with txd := busy 0x20000100#32 3#32 1#32 .none })
    let r := args 9600#32 0 0 (with0 inited)
    s.par.mantMax ≤ 4095 ∧ chanMap s.par 0 = some 0 ∧
    baudDivisor s.par.mantMax s.par.coreClock s.arg0.toNat true = some (208, 3) ∧ (s.chan 0).cr.ue = false ∧
    (r.chan 0).cr.ue = true ∧ (r.chan 0).txd.state = .ready ∧ (r.chan 0).rxd.state = .ready := by decide

theorem witness_InitRejects :
    let s := args 9600#32 0 0 (sending 3#32 1#32 .none)
    chanMap s.par 2 = none ∧ chanMap s.par 0 = some 0 ∧
    baudDivisor s.par.mantMax s.par.coreClock State.reset.arg0.toNat false = none ∧
    baudDivisor s.par.mantMax s.par.coreClock s.arg0.toNat false ≠ none ∧ (s.chan 0).cr.ue = true ∧
    (s.chan 0).txd.state = .busy := by decide

/-- The range check at 2^32 and at 2^32 + 1. -/
theorem witness_SubmitsValidate :
    let s := args 0xFFFFFFFF#32 1#32 0 (sending 3#32 1#32 .none)
    let r := args 0xFFFFFFFF#32 1#32 0 (receiving 3#32 1#32 .none [])
    State.reset.arg0 = 0#32 ∧ s.arg0 ≠ 0#32 ∧ chanMap s.par 2 = none ∧ chanMap s.par 0 = some 0 ∧ s.arg1 ≠ 0#32 ∧
    s.arg0.toNat + s.arg1.toNat ≤ 2 ^ 32 ∧ (s.chan 0).txd.state = .busy ∧ (r.chan 0).rxd.state = .busy ∧
    2 ^ 32 < s.arg0.toNat + (2#32).toNat := by decide

/-- With room, and with a full FIFO. -/
theorem witness_SubmitSendStarts :
    let s := args 0xFFFFFFFF#32 1#32 0 (with0 inited)
    let r := args 0x20000100#32 1#32 0 (with0 fun c => { c with txf := [0x55#8] })
    (chanMap s.par 0 = some 0 ∧ s.arg0 ≠ 0#32 ∧ s.arg1 ≠ 0#32 ∧ s.arg0.toNat + s.arg1.toNat ≤ 2 ^ 32 ∧
      (s.chan 0).txd.state = .ready ∧ (s.chan 0).txf.length < s.par.txDepth ∧ readAdmitted s.par s.arg0.toNat = true) ∧
    (r.chan 0).txd.state = .ready ∧ ¬ (r.chan 0).txf.length < r.par.txDepth := by decide

/-- The register window refuses the block's own reads: its first byte. -/
theorem witness_SubmitSendRefused :
    let s := args 0x40000000#32 1#32 0 (with0 inited)
    chanMap s.par 0 = some 0 ∧ s.arg0 ≠ 0#32 ∧ s.arg1 ≠ 0#32 ∧ s.arg0.toNat + s.arg1.toNat ≤ 2 ^ 32 ∧
    (s.chan 0).txd.state = .ready ∧ (s.chan 0).txf.length < s.par.txDepth ∧
    readAdmitted s.par s.arg0.toNat = false := by decide

theorem witness_SubmitRecvArms :
    let s := args 0xFFFFFFFF#32 1#32 0 (with0 inited)
    chanMap s.par 0 = some 0 ∧ s.arg0 ≠ 0#32 ∧ s.arg1 ≠ 0#32 ∧ s.arg0.toNat + s.arg1.toNat ≤ 2 ^ 32 ∧
    (s.chan 0).rxd.state = .ready := by decide

/-- The start steps, and a poll that is the last one within the bound and finds room, or a byte. -/
theorem witness_ByteCommands :
    let s := with0 fun c => { c with rxf := [0x7F#8] }
    let p := s.setCmdState (.sendByte 0 0x41#8 1999)
    let q := s.setCmdState (.getByte 0 1999)
    chanMap s.par 0 = some 0 ∧ (s.chan 0).txd.state = .ready ∧ (s.chan 0).rxd.state = .ready ∧
    p.cmdState = .sendByte 0 0x41#8 1999 ∧ (p.chan 0).txf.length < p.par.txDepth ∧
    q.cmdState = .getByte 0 1999 ∧ (q.chan 0).rxf = 0x7F#8 :: [] := by decide

theorem witness_ByteCommandsReject :
    chanMap State.reset.par 2 = none ∧ chanMap State.reset.par 0 = some 0 ∧
    ((sending 3#32 1#32 .none).chan 0).txd.state = .busy ∧
    ((receiving 3#32 1#32 .none []).chan 0).rxd.state = .busy := by decide

/-- A SEND_BYTE and a GET_BYTE in progress, with `SPIN_BOUND = 1`. -/
def spinning (c : CmdState) : State :=
  { with0 (fun c => { c with txf := [0x55#8] }) with
    par := { Params.ofVectors with spinBound := 1 }, cmdState := c, agenda := [.poll] }

/-- With `SPIN_BOUND = 1` the first poll is the last; with 2000 it is not. -/
theorem witness_TimesOut :
    let s := spinning (.sendByte 0 0x56#8 0)
    let r := spinning (.getByte 0 0)
    (1 ≤ s.par.spinBound ∧ s.cmdState = .sendByte 0 0x56#8 0 ∧ s.par.txDepth ≤ (s.chan 0).txf.length ∧
      s.agenda = List.replicate s.par.spinBound .poll ++ [] ∧ r.cmdState = .getByte 0 0 ∧ (r.chan 0).rxf = [] ∧
      r.agenda = List.replicate r.par.spinBound .poll ++ []) ∧
    0 + 1 = s.par.spinBound ∧ 0 + 1 ≠ Params.ofVectors.spinBound := by decide

/-- Buffers that touch, the payload's ending at 2^32. -/
theorem witness_FramerStartArms :
    let s := args 0xFFFFFFF0#32 0xFFFFFFFA#32 6#32 (with0 inited)
    s.arg0 ≠ 0#32 ∧ s.arg1 ≠ 0#32 ∧ chanMap s.par 0 = some 0 ∧ s.arg2 ≠ 0#32 ∧ s.arg0.toNat + s.par.hdrLen ≤ 2 ^ 32 ∧
    s.arg1.toNat + s.arg2.toNat ≤ 2 ^ 32 ∧ s.arg0.toNat + s.par.hdrLen ≤ s.arg1.toNat ∧ s.fr.active = false ∧
    (s.chan 0).rxd.state = .ready := by decide

/-- No capacity; a header or payload one byte past 2^32; an overlap of one byte; a started parser; a Busy receive. -/
theorem witness_FramerStartRejects :
    let s := args 0x20000200#32 0x2000020A#32 1#32 parsing
    1 ≤ s.par.hdrLen ∧ State.reset.arg0 = 0#32 ∧ s.arg0 ≠ 0#32 ∧ s.arg1 ≠ 0#32 ∧ chanMap s.par 2 = none ∧
    chanMap s.par 0 = some 0 ∧ (args 1 1 0 s).arg2 = 0#32 ∧ 2 ^ 32 < (0xFFFFFFF7#32).toNat + s.par.hdrLen ∧
    2 ^ 32 < (0xFFFFFFFF#32).toNat + (2#32).toNat ∧
    ((0x20000200#32).toNat ≤ 0x20000209 ∧ 0x20000209 < (0x20000200#32).toNat + s.par.hdrLen) ∧
    s.arg2 ≠ 0#32 ∧ s.arg0.toNat + s.par.hdrLen ≤ 2 ^ 32 ∧ s.arg1.toNat + s.arg2.toNat ≤ 2 ^ 32 ∧
    s.arg0.toNat + s.par.hdrLen ≤ s.arg1.toNat ∧ s.fr.active = true ∧ (s.chan 0).rxd.state = .busy := by decide

/-- An empty payload at address 0, and one that ends at 2^32. -/
theorem witness_SendFrameStarts :
    let s := args 0#32 0#32 1#32 (with0 inited)
    let r := args 0xFFFFFFFF#32 1#32 1#32 (with0 inited)
    s.arg1 = 0#32 ∧ chanMap s.par 0 = some 0 ∧ s.arg0.toNat + s.arg1.toNat ≤ 2 ^ 32 ∧ (s.chan 0).txd.state = .ready ∧
    r.arg0 ≠ 0#32 ∧ r.arg0.toNat + r.arg1.toNat ≤ 2 ^ 32 ∧ (r.chan 0).txd.state = .ready := by decide

theorem witness_SendFrameRejects :
    let s := args 0xFFFFFFFF#32 1#32 1#32 (sending 3#32 1#32 .none)
    let r := args 0#32 1#32 1#32 s
    (r.arg0 = 0#32 ∧ r.arg1 ≠ 0#32) ∧ s.arg0 ≠ 0#32 ∧ chanMap s.par 2 = none ∧ chanMap s.par 0 = some 0 ∧
    2 ^ 32 < s.arg0.toNat + (2#32).toNat ∧ s.arg0.toNat + s.arg1.toNat ≤ 2 ^ 32 ∧ (s.chan 0).txd.state = .busy := by
  decide

/-- Room for the last header byte, of a frame with a payload and of one without, and for the last payload byte; full with
polls left, and full at the last poll; room for a payload byte that the register window refuses. -/
theorem witness_SendFramePoll :
    let hb := List.replicate 10 0x0D#8
    let go (pay len : Word) (pos k : Nat) : State := { with0 inited with cmdState := .sendFrame 0 hb pay len pos k }
    let s : State := { with0 (fun c => { c with txf := [0x55#8] }) with cmdState := .sendFrame 0 [] 0x40000000#32 1#32 10 0 }
    let l : State := { s with cmdState := .sendFrame 0 [] 0x40000000#32 1#32 10 1999 }
    let r : State := { with0 inited with cmdState := .sendFrame 0 [] 0x40000000#32 1#32 10 0 }
    (((go 0#32 0#32 9 1999).chan 0).txf.length < r.par.txDepth ∧ 9 < r.par.hdrLen ∧ hb[9]? = some 0x0D#8 ∧
      9 + 1 = r.par.hdrLen + (0#32).toNat ∧ 9 + 1 ≠ r.par.hdrLen + (1#32).toNat) ∧
    (r.par.hdrLen ≤ 10 ∧ readAdmitted r.par ((0xFFFFFFFF#32).toNat + 10 - r.par.hdrLen) = true ∧
      10 + 1 = r.par.hdrLen + (1#32).toNat) ∧
    s.par.txDepth ≤ (s.chan 0).txf.length ∧ 0 + 1 ≠ s.par.spinBound ∧ l.par.txDepth ≤ (l.chan 0).txf.length ∧
    1999 + 1 = l.par.spinBound ∧ (r.chan 0).txf.length < r.par.txDepth ∧ r.par.hdrLen ≤ 10 ∧
    readAdmitted r.par ((0x40000000#32).toNat + 10 - r.par.hdrLen) = false := by decide

theorem witness_SendFrameWires :
    let hb := List.replicate 10 0x0D#8
    let s : State :=
      { with0 (fun c => { inited c with cr := { (inited c).cr with te := true } }) with
        cmdState := .sendFrame 0 hb 0xFFFFFFFF#32 1#32 0 0, agenda := pollAndSend 0 11 }
    s.par.wf ∧ (0 : Engine).val < s.par.numChannels ∧ hb.length = s.par.hdrLen ∧ (s.chan 0).txf = [] ∧
    (s.chan 0).cr.ue = true ∧ (s.chan 0).cr.te = true ∧
    (∀ k, k < (1#32).toNat → readAdmitted s.par ((0xFFFFFFFF#32).toNat + k) = true) ∧
    s.agenda = pollAndSend 0 (s.par.hdrLen + (1#32).toNat) ++ [] := by decide

theorem witness_ServiceRuns : ((sending 3#32 1#32 .none).setAgenda [.svc 0]).agenda = .svc 0 :: [] := rfl

/-- The last byte of a buffer, admitted; and a byte of the register window, refused, with a receive byte waiting. -/
theorem witness_TransmitBranch :
    let s := sending 3#32 2#32 .none
    let r := (bothWays 3#32 2#32 .none 2#32 0#32).updTxd 0 fun d => { d with addr := 0x40000000#32 }
    (0 : Engine).val < s.par.numChannels ∧ (s.chan 0).cr.ue = true ∧ (s.chan 0).txf.length < s.par.txDepth ∧
    (s.chan 0).cr.txeie = true ∧ (s.chan 0).txd.cur < (s.chan 0).txd.len ∧ (s.chan 0).rxf = [] ∧
    readAdmitted s.par (s.chan 0).txd.cursorAddr = true ∧ (r.chan 0).cr.ue = true ∧
    (r.chan 0).txf.length < r.par.txDepth ∧ (r.chan 0).cr.txeie = true ∧ (r.chan 0).txd.cur < (r.chan 0).txd.len ∧
    (r.chan 0).rxf ≠ [] ∧ (r.chan 0).cr.rxneie = true ∧ readAdmitted r.par (r.chan 0).txd.cursorAddr = false := by decide

/-- A completion; and a service invocation with the transmit source disabled. -/
theorem witness_TransmitCompletion :
    let s := sending 3#32 3#32 .host
    let r := receiving 3#32 1#32 .none [0x80#8]
    ((0 : Engine).val < s.par.numChannels ∧ (s.chan 0).cr.ue = true ∧ (s.chan 0).txf.length < s.par.txDepth ∧
      (s.chan 0).cr.txeie = true ∧ (s.chan 0).txd.len ≤ (s.chan 0).txd.cur ∧ (s.chan 0).txd.cb ≠ .framer ∧
      (s.chan 0).rxf = []) ∧
    (r.chan 0).cr.txeie = false ∧ ∃ t, act (.svc 0) r = .next t := ⟨by decide, by decide, _, rfl⟩

/-- Each thing the transmit branch can leave beside a receive byte (RX5 is the third). -/
theorem witness_TransmitLeaves :
    (∃ c irq, TransmitLeaves 0 (receiving 3#32 1#32 .none [0x80#8]) c irq) ∧
    (∃ c irq, TransmitLeaves 0 (bothWays 3#32 2#32 .none 3#32 1#32) c irq) ∧
    ∃ c irq, TransmitLeaves 0 (bothWays 1#32 1#32 .host 1#32 0#32) c irq :=
  ⟨⟨_, _, .nothing (by decide)⟩, ⟨_, _, .moved (by decide) (by decide) (by decide) (by decide)⟩,
    _, _, .completed (by decide) (by decide) (by decide) (by decide)⟩

/-- The last byte but one of a buffer, admitted; the last byte, refused; and the cursor at the length, in a state no run
reaches. -/
theorem witness_ReceiveBranch :
    let s := bothWays 3#32 2#32 .none 3#32 1#32
    let r := (bothWays 3#32 2#32 .none 3#32 2#32).updRxd 0 fun d => { d with addr := 0x3FFFFFFE#32 }
    let l := bothWays 3#32 2#32 .none 3#32 3#32
    s.mem.wf ∧ (0 : Engine).val < s.par.numChannels ∧ (s.chan 0).cr.ue = true ∧ (s.chan 0).rxf = 0x33#8 :: [] ∧
    (s.chan 0).cr.rxneie = true ∧ (s.chan 0).rxd.cur.toNat + 1 < (s.chan 0).rxd.len.toNat ∧
    writeAdmitted s.par (s.chan 0).rxd.cursorAddr = true ∧
    (r.chan 0).rxf = 0x33#8 :: [] ∧ (r.chan 0).rxd.cur.toNat + 1 = (r.chan 0).rxd.len.toNat ∧
    writeAdmitted r.par (r.chan 0).rxd.cursorAddr = false ∧
    (l.chan 0).rxf = 0x33#8 :: [] ∧ (l.chan 0).rxd.len ≤ (l.chan 0).rxd.cur := by decide

/-- The last byte of a buffer, with each callback, beside a transmit that completes. -/
theorem witness_ReceiveCompletion :
    ∀ cb, cb = Callback.none ∨ cb = .host ∨ cb = .framer →
      let s := (bothWays 1#32 1#32 .host 3#32 2#32).updRxd 0 fun d => { d with cb := cb }
      s.mem.wf ∧ (0 : Engine).val < s.par.numChannels ∧ (s.chan 0).cr.ue = true ∧ (s.chan 0).rxf = 0x33#8 :: [] ∧
      (s.chan 0).cr.rxneie = true ∧ (s.chan 0).rxd.cur.toNat + 1 = (s.chan 0).rxd.len.toNat ∧
      (s.chan 0).txf.length < s.par.txDepth ∧ (s.chan 0).cr.txeie = true ∧
      (s.chan 0).txd.len ≤ (s.chan 0).txd.cur ∧ (s.chan 0).txd.cb ≠ .framer ∧
      writeAdmitted s.par (s.chan 0).rxd.cursorAddr = true ∧ (s.chan 0).rxd.cb = cb := by
  rintro cb (rfl | rfl | rfl) <;> decide

/-- A header buffer, and a payload buffer, whose last byte is the first of the register window. -/
theorem witness_ParserReadRefused :
    let s : State := { parsing with fr := { parsing.fr with hdrAddr := 0x3FFFFFF7#32 } }
    let r : State :=
      { parsing with fr := { parsing.fr with state := .payloadWait, lastLen := 2#32, payAddr := 0x3FFFFFFF#32 } }
    (s.fr.state = .headerWait ∧ 9 < s.par.hdrLen ∧
      (∀ j, j < 9 → readAdmitted s.par (s.fr.hdrAddr.toNat + j) = true) ∧
      readAdmitted s.par (s.fr.hdrAddr.toNat + 9) = false) ∧
    r.fr.state = .payloadWait ∧ 1 < r.fr.lastLen.toNat ∧
    (∀ j, j < 1 → readAdmitted r.par (r.fr.payAddr.toNat + j) = true) ∧
    readAdmitted r.par (r.fr.payAddr.toNat + 1) = false := by decide

/-- The parser's state with a header in its buffer, of identifier 2 and the length given. -/
def headed (len : Byte) : State :=
  { parsing with mem := store [] 0x20000200 [0x0D#8, 2#8, 0#8, 0#8, 0#8, 0x15#8, len, 0#8, 0#8, 0#8] }

/-- A length of `PAY_CAP` is accepted, 0 dispatched, `PAY_CAP + 1` refused, and ten zero bytes are no header. -/
theorem witness_HeaderDone :
    let header (s : State) := headerDecode s.par (bufferBytes s.mem s.fr.hdrAddr.toNat s.par.hdrLen)
    parsing.fr.state = .headerWait ∧
    (∀ k, k < parsing.par.hdrLen → readAdmitted parsing.par (parsing.fr.hdrAddr.toNat + k) = true) ∧
    (header (headed 64#8) = some (2#32, 64#32) ∧ 64#32 ≠ 0#32 ∧ 64#32 ≤ parsing.fr.payCap) ∧
    header (headed 0#8) = some (2#32, 0#32) ∧
    (header (headed 65#8) = some (2#32, 65#32) ∧ parsing.fr.payCap < 65#32) ∧ header parsing = none := by decide

/-- Identifier 4 has no handler; the payload `18 01` of identifier 3 is rejected, `10 05` decodes. -/
theorem witness_Dispatch :
    let p := State.reset.par
    4#32 ∉ p.dispatchIds ∧ 3#32 ∈ p.dispatchIds ∧ payloadDecode p 3#32 [0x18#8, 0x01#8] = none ∧
    payloadDecode p 3#32 [0x10#8, 0x05#8] = some (.togglePin 0#32 5#32) := by decide

/-- PayloadWait with the last payload byte at the end of the address space. -/
theorem witness_PayloadDone :
    let s : State :=
      { parsing with fr := { parsing.fr with state := .payloadWait, lastLen := 1#32, payAddr := 0xFFFFFFFF#32 } }
    s.fr.state = .payloadWait ∧
    (∀ k, k < s.fr.lastLen.toNat → readAdmitted s.par (s.fr.payAddr.toNat + k) = true) := by decide

theorem witness_Line :
    let s := sending 3#32 1#32 .none
    let t := s.updChan 0 fun c => { c with txf := [0x41#8] }
    let r := receiving 2#32 0#32 .none []
    (1 : Engine).val < s.par.numChannels ∧ (t.chan 0).txf = 0x41#8 :: [] ∧ (t.chan 0).cr.ue = true ∧
    (t.chan 0).cr.te = true ∧ (r.chan 0).cr.ue = true ∧ (r.chan 0).cr.re = true ∧
    (r.chan 0).rxf.length < r.par.rxDepth ∧ r.par.rxDepth ≤ ((receiving 2#32 0#32 .none [0x11#8]).chan 0).rxf.length ∧
    (State.reset.chan 0).cr.ue = false ∧ (s.chan 0).cr.re = false := by decide

theorem witness_RegisterMap :
    Params.ofVectors.numChannels ≤ 8 ∧ 0x038 ≤ 0x0FF ∧ (1 : Engine).val < Params.ofVectors.numChannels ∧
    0x2C ≤ 0x3F ∧ 0x100 + 0x40 * Params.ofVectors.numChannels ≤ 0x180 ∧ 0x180 ≤ 0x3FF := by decide

theorem witness_RegistersRead :
    31 < 32 ∧ ((State.reset.chan 0).txd, Reg.txdCtl 0) = ((State.reset.chan 0).txd, Reg.txdCtl 0) ∧
    (ResultCode.unmappedId, 7#32) ∈ [(ResultCode.unmappedId, 7#32)] ∧ State.reset.result = .ok ∧
    State.reset.fr.lastResult = .ok := ⟨by decide, rfl, by decide, rfl, rfl⟩

/-- Aligned, misaligned and narrow accesses; `SR[1]`, and a register that ignores writes. -/
theorem witness_RegisterAccess :
    State.reset.cmdState = .idle ∧ (0x3FC#10).toNat % 4 = 0 ∧ (0x006#10).toNat % 4 ≠ 0 ∧ Width.w8 ≠ .w32 ∧
    (0x144#10).toNat = 0x144 ∧ regAt State.reset.par 0x144 = .sr 1 ∧ (0x144#10).toNat % 4 = 0 ∧
    (0x3FC#10).toNat = 0x3FC ∧ regAt State.reset.par 0x3FC = .reserved := by decide

/-- The first byte of a transmit buffer, the last of a receive buffer, the last of a parser buffer; and the byte after a
receive buffer. -/
theorem witness_Ownership :
    let s := sending 3#32 1#32 .none
    let r := receiving 3#32 1#32 .none []
    (0 : Engine).val < s.par.numChannels ∧ inWindow s.par (0x20000100#32).toNat = false ∧ s.cmdState = .idle ∧
    ((s.chan 0).txd.state = .busy ∧ (s.chan 0).txd.addr.toNat ≤ (0x20000100#32).toNat ∧
      (0x20000100#32).toNat < (s.chan 0).txd.addr.toNat + (s.chan 0).txd.len.toNat) ∧
    ((r.chan 0).rxd.state = .busy ∧ (r.chan 0).rxd.addr.toNat ≤ (0x20000102#32).toNat ∧
      (0x20000102#32).toNat < (r.chan 0).rxd.addr.toNat + (r.chan 0).rxd.len.toNat) ∧
    (parsing.fr.active = true ∧ parsing.fr.payAddr.toNat ≤ (0x2000033F#32).toNat ∧
      (0x2000033F#32).toNat < parsing.fr.payAddr.toNat + parsing.fr.payCap.toNat) ∧
    (∀ j : Engine, j.val < r.par.numChannels → (r.chan j).rxd.owns (0x20000103#32).toNat = false) ∧
    framerOwns r (0x20000103#32).toNat = false ∧ refusesRead r.par (0x20000103#32).toNat = false ∧ r.mem.wf ∧
    (∀ j : Engine, j.val < r.par.numChannels → (r.chan j).txd.owns (0x20000103#32).toNat = false) ∧
    refusesWrite r.par (0x20000103#32).toNat = false := by decide

theorem witness_HostHeld :
    let s : State := { State.reset with cmdState := .sendFrame 0 (List.replicate 10 0#8) 0#32 0#32 0 0 }
    (s.par.wf ∧ s.cmdState ≠ .idle ∧ (List.replicate 10 0#8).length = s.par.hdrLen ∧ State.reset.cmdState = .idle) ∧
    ∃ t, act (.lineRx 0 0x41#8) s = .next t ∧ Action.lineRx 0 0x41#8 ≠ .poll ∧ Action.lineRx 0 0x41#8 ≠ .reset :=
  ⟨by decide, _, rfl, by decide⟩

theorem witness_Reset : Params.ofVectors.wf ∧ (1 : Engine).val < Params.ofVectors.numChannels ∧ Memory.wf [] := by decide

theorem bounded_parsing : Bounded parsing where
  params := by decide
  memory := by decide
  channels := fun i => by constructor <;> revert i <;> decide
  irqStatus := by decide
  irqEnable := by decide
  rdata := by decide
  result := by decide
  lastResult := by decide
  parserChannel := by decide
  command := trivial
  faultSet := by decide

theorem linked_parsing : Linked parsing where
  channels := fun i => by constructor <;> revert i <;> decide
  parser := by unfold ParserArmed; decide
  buffers := fun _ => by constructor <;> decide

/-- A fault-free state that meets the invariant, with the parser started and a byte to serve. -/
theorem witness_Invariant (l : List Action) (a0 a1 a2 : Word) : Inv (args a0 a1 a2 (parsing.setAgenda l)) where
  bounded := { bounded_parsing with channels := bounded_parsing.channels }
  linked _ :=
    { channels := fun i => ⟨(linked_parsing.channels i).1, (linked_parsing.channels i).2, (linked_parsing.channels i).3,
        (linked_parsing.channels i).4, (linked_parsing.channels i).5, (linked_parsing.channels i).6,
        (linked_parsing.channels i).7, (linked_parsing.channels i).8, (linked_parsing.channels i).9,
        (linked_parsing.channels i).10, (linked_parsing.channels i).11, (linked_parsing.channels i).12,
        (linked_parsing.channels i).13⟩
      parser := linked_parsing.parser
      buffers := fun h => ⟨(linked_parsing.buffers h).1, (linked_parsing.buffers h).2, (linked_parsing.buffers h).3,
        (linked_parsing.buffers h).4⟩ }

/-- A service invocation that stores a byte: for the statements about every step, and for the memory's second clause. -/
theorem witness_StepServes :
    let s := args 0 0 0 (parsing.setAgenda [.svc 0])
    Inv s ∧ FaultFree s ∧ ∃ t, Takes s (.svc 0) t ∧ Action.svc 0 ≠ .reset ∧ t.mem.read 0x20000200 ≠ s.mem.read 0x20000200 :=
  ⟨witness_Invariant _ 0 0 0, rfl, _, ⟨[], rfl, rfl⟩, by decide⟩

/-- A HOST store: the memory's first clause. -/
theorem witness_StepStores :
    let s := args 0 0 0 (parsing.setAgenda [.host (.memWrite 0x20000000#32 7#8)])
    Inv s ∧ ∃ t, Takes s (.host (.memWrite 0x20000000#32 7#8)) t ∧ t.mem.read 0x20000000 ≠ s.mem.read 0x20000000 :=
  ⟨witness_Invariant _ 0 0 0, _, ⟨[], rfl, rfl⟩, by decide⟩

/-- A status bit set by a service invocation, and one cleared by the HOST. -/
theorem witness_StatusBits :
    (∃ t, Takes ((sending 3#32 3#32 .host).setAgenda [.svc 0]) (.svc 0) t ∧
      (sending 3#32 3#32 .host).irqStatus.getLsbD 0 = false ∧ t.irqStatus.getLsbD 0 = true) ∧
    ∃ t, Takes { State.reset with irqStatus := 0x20000#32, agenda := [.host (.regWrite .w32 0x018#10 0x20000#32)] }
        (.host (.regWrite .w32 0x018#10 0x20000#32)) t ∧ t.irqStatus.getLsbD 17 = false :=
  ⟨⟨_, ⟨[], rfl, rfl⟩, by decide⟩, _, ⟨[], rfl, rfl⟩, by decide⟩

theorem witness_ParserChannel :
    let s := args 9600#32 1#32 0 (parsing.setAgenda [])
    Inv s ∧ FaultFree s ∧ s.fr.active = true ∧ chanMap s.par 0 = some s.fr.ch ∧ s.arg0 ≠ 0#32 ∧ s.arg1 ≠ 0#32 ∧
    s.arg0.toNat + s.arg1.toNat ≤ 2 ^ 32 ∧ (s.chan s.fr.ch).cr.ue = true ∧
    baudDivisor s.par.mantMax s.par.coreClock s.arg0.toNat false ≠ none :=
  ⟨witness_Invariant _ _ _ _, rfl, by decide⟩

theorem witness_ReceiveFills :
    let s := (receiving 2#32 0#32 .host []).setAgenda (arriveAndServe 0 [0x61#8, 0x62#8])
    s.par.wf ∧ s.mem.wf ∧ (0 : Engine).val < s.par.numChannels ∧ (s.chan 0).cr.ue = true ∧ (s.chan 0).cr.re = true ∧
    (s.chan 0).cr.rxneie = true ∧ (s.chan 0).cr.txeie = false ∧ (s.chan 0).rxf = [] ∧ (s.chan 0).rxd.cur = 0#32 ∧
    (s.chan 0).rxd.state = .busy ∧ (s.chan 0).rxd.cb ≠ .framer ∧
    [0x61#8, 0x62#8].length = (s.chan 0).rxd.len.toNat ∧
    (∀ k, k < 2 → writeAdmitted s.par ((s.chan 0).rxd.addr.toNat + k) = true) ∧
    s.agenda = arriveAndServe 0 [0x61#8, 0x62#8] ++ [] := by decide

theorem witness_SubmittedBytes :
    let s :=
      args 0xFFFFFFFF#32 1#32 0
        ((with0 inited).setAgenda (cmdWrite (encode (.submitSend 0 true)) :: sendAndServe 0 1))
    s.par.wf ∧ chanMap s.par 0 = some 0 ∧ s.cmdState = .idle ∧ s.arg0 ≠ 0#32 ∧ s.arg1 ≠ 0#32 ∧
    s.arg0.toNat + s.arg1.toNat ≤ 2 ^ 32 ∧ (s.chan 0).txd.state = .ready ∧ (s.chan 0).txf = [] ∧
    (s.chan 0).cr.ue = true ∧ (s.chan 0).cr.rxneie = false ∧
    (∀ k, k < s.arg1.toNat → readAdmitted s.par (s.arg0.toNat + k) = true) ∧
    s.agenda = cmdWrite (encode (.submitSend 0 true)) :: (sendAndServe 0 s.arg1.toNat ++ []) := by decide

/-- A run whose first step completes a transmit, after which the HOST reads a reserved register for ever. -/
def lastRun (n : Nat) : State :=
  if n = 0 then sending 3#32 3#32 .host else after State.reset (act (.svc 0) (sending 3#32 3#32 .host))

def lastActs (n : Nat) : Action := if n = 0 then .svc 0 else .host (.regRead .w32 0x3FC#10)

theorem bounded_sending : Bounded (sending 3#32 3#32 .host) where
  params := by decide
  memory := by decide
  channels := fun i => by constructor <;> revert i <;> decide
  irqStatus := by decide
  irqEnable := by decide
  rdata := by decide
  result := by decide
  lastResult := by decide
  parserChannel := by decide
  command := trivial
  faultSet := by decide

theorem linked_sending : Linked (sending 3#32 3#32 .host) where
  channels := fun i => by constructor <;> revert i <;> decide
  parser := by unfold ParserArmed; decide
  buffers := fun h => absurd h (by decide)

theorem witness_FairRuns :
    IsRun lastRun lastActs ∧ Inv (lastRun 0) ∧ (∀ n, FaultFree (lastRun n)) ∧ (∀ n, lastActs n ≠ .reset) ∧
    FairSeq lastRun lastActs 0 ∧ FairLineTx lastRun lastActs 0 ∧ (0 : Engine).val < (lastRun 0).par.numChannels ∧
    ((lastRun 0).chan 0).cr.ue = true ∧ ((lastRun 0).chan 0).cr.te = true ∧
    ((lastRun 0).chan 0).txd.state = .busy ∧ ((lastRun 0).chan 0).txd.mode = .async := by
  have later : ∀ n, lastRun (n + 1) = lastRun 1 := fun n => by simp [lastRun]
  refine ⟨?_, ⟨bounded_sending, fun _ => linked_sending⟩, ?_, ?_, ?_, ?_, by decide⟩
  · intro n
    cases n with
    | zero => rfl
    | succ n => rw [later, later, show lastActs (n + 1) = lastActs 1 by simp [lastActs]]; rfl
  · intro n
    cases n with
    | zero => rfl
    | succ n => rw [later]; rfl
  · intro n
    unfold lastActs
    split <;> decide
  · intro n h
    have h1 := h (n + 1) (by omega)
    rw [later] at h1
    exact absurd h1 (by decide)
  · intro n h
    have h1 := h (n + 1) (by omega)
    rw [later] at h1
    exact absurd h1 (by decide)

end Sys2Proof.Tests
end

section
/-! The reference codecs (43_framer.md R170, R171) satisfy the laws (a), (b) and (c) of 00_scope.md R15. The header is
four bytes per word. The payload is an induction over the varint's fuel, then one over the fields still to be read. -/

namespace Sys2Proof.Machine

/-! ### The header codec -/

/-- Four bytes in the order of `le32` give the word back. -/
@[simp] theorem word32_le32_bytes (v : Word) :
    word32 (v.extractLsb' 0 8) (v.extractLsb' 8 8) (v.extractLsb' 16 8) (v.extractLsb' 24 8) = v := by
  rw [word32, BitVec.extractLsb'_append_extractLsb'_eq_extractLsb' (show 24 = 16 + 8 from rfl),
    BitVec.extractLsb'_append_extractLsb'_eq_extractLsb' (show 16 = 8 + 8 from rfl),
    BitVec.extractLsb'_append_extractLsb'_eq_extractLsb' (show 8 = 0 + 8 from rfl)]
  exact BitVec.extractLsb'_eq_self

/-! ### Varints -/

/-- Reading a varint takes exactly its bytes, for a value that fits the bytes allowed. -/
theorem readVarint_varint_append (fuel v : Nat) (rest : List Byte) (hv : v < 128 ^ (fuel + 1)) :
    readVarint (fuel + 1) (varint fuel v ++ rest) = some (v, rest) := by
  induction fuel generalizing v with
  | zero =>
    have hb : (BitVec.ofNat 8 v).toNat = v := Nat.mod_eq_of_lt (by omega)
    have hlast : v < 128 := by omega
    simp [varint, readVarint, hb, hlast]
  | succ fuel ih =>
    by_cases hlast : v < 128
    · have hb : (BitVec.ofNat 8 v).toNat = v := Nat.mod_eq_of_lt (by omega)
      simp [varint, readVarint, hlast, hb]
    · have hb : (BitVec.ofNat 8 (v % 128 + 128)).toNat = v % 128 + 128 := Nat.mod_eq_of_lt (by omega)
      have hrest : v / 128 < 128 ^ (fuel + 1) := Nat.div_lt_of_lt_mul (by rwa [← Nat.pow_succ'])
      simp [varint, hlast, readVarint, hb, ih _ hrest, Nat.mod_add_div]

/-! ### Fields -/

/-- A tag and its varint set the field that the tag names. -/
theorem decodeFields_tag_varint (fuel k : Nat) (v : Word) (fields : List Word) (p : List Byte)
    (hk : k < fields.length) (htag : k < 15) :
    decodeFields (fuel + 1) fields (BitVec.ofNat 8 (8 * (k + 1)) :: (varint 4 v.toNat ++ p)) =
      decodeFields fuel (fields.set k v) p := by
  have ht : (BitVec.ofNat 8 (8 * (k + 1))).toNat = 8 * (k + 1) := Nat.mod_eq_of_lt (by omega)
  have hread := readVarint_varint_append 4 v.toNat p (by omega)
  have hlegal : ¬ (128 ≤ 8 * (k + 1) ∨ 8 * (k + 1) % 8 ≠ 0 ∨ 8 * (k + 1) / 8 < 1 ∨
      fields.length < 8 * (k + 1) / 8) := by omega
  have hindex : 8 * (k + 1) / 8 - 1 = k := by omega
  simp only [decodeFields, ht, hlegal, if_false, hread, hindex, Nat.not_le.mpr v.isLt, BitVec.ofNat_toNat,
    BitVec.setWidth_eq]

/-- With the fields `done` read and the others still zero, reading the bytes of the others completes the fields; a field
equal to zero has no bytes and keeps its initial value. -/
theorem decodeFields_encodeFields (done vs : List Word) (fuel : Nat)
    (hfuel : (encodeFields (done.length + 1) vs).length ≤ fuel) (htag : done.length + vs.length ≤ 15) :
    decodeFields fuel (done ++ List.replicate vs.length 0#32) (encodeFields (done.length + 1) vs) =
      some (done ++ vs) := by
  induction vs generalizing done fuel with
  | nil => simp [encodeFields, decodeFields]
  | cons v vs ih =>
    have hnext := ih (done ++ [v])
    simp only [List.length_append, List.length_cons, List.length_nil, List.append_assoc, List.cons_append,
      List.nil_append, Nat.zero_add] at hnext htag
    by_cases hv : v = 0#32
    · subst hv
      simp only [encodeFields, if_true, List.nil_append] at hfuel ⊢
      exact hnext fuel hfuel (by omega)
    · simp only [encodeFields, hv, if_false, List.cons_append, List.length_cons, List.length_append] at hfuel ⊢
      obtain ⟨fuel, rfl⟩ : ∃ n, fuel = n + 1 := ⟨fuel - 1, by omega⟩
      rw [decodeFields_tag_varint _ _ _ _ _ (by simp) (by omega)]
      simpa [List.replicate_succ] using hnext fuel (by omega) (by omega)

/-! ### Messages -/

/-- The table of R169 gives a message the number of fields that it has. -/
@[simp] theorem fieldCount_id (m : Message) : fieldCount m.id = some m.fields.length := by
  cases m <;> rfl

/-- A message is determined by its identifier and its fields. -/
@[simp] theorem messageOf_id_fields (m : Message) : messageOf m.id m.fields = some m := by
  cases m <;> rfl

/-- So every tag is below the limit of 128. -/
theorem length_fields_le (m : Message) : m.fields.length ≤ 3 := by
  cases m <;> simp [Message.fields]

/-! ### The laws -/

/-- Settles O38: the fields are read back from their bytes, starting from none read. -/
theorem referencePayloadCodecRoundTrips : Obligations.ReferencePayloadCodecRoundTrips := by
  intro m
  have hfew := length_fields_le m
  have hfields := decodeFields_encodeFields [] m.fields _ (Nat.le_refl _) (by simp; omega)
  simp only [List.length_nil, Nat.zero_add, List.nil_append] at hfields
  simp [refPayloadDecode, refPayloadEncode, hfields]

/-- Settles O37: both words are read back from their four bytes, between the two fixed tags. -/
theorem referenceHeaderCodecObeysItsLaws : Obligations.ReferenceHeaderCodecObeysItsLaws := by
  intro id len
  constructor
  · simp [refHeaderEncode, refHeaderDecode, le32]
  · simp [refHeaderEncode, le32]

end Sys2Proof.Machine
end

section
/-! The invariant of a step (10_state.md R33): each operation, each command and each agent's step keeps `Inv`, over the
`Bounded` and `Linked` lemmas of Laws/. A step that records a fault owes `Linked` nothing (60_exceptions.md R192), and a
step that records none starts where none is recorded, because only reset drops a fault. -/

namespace Sys2Proof.Machine

variable {s t : State}

/-! ### What an outcome leaves -/

/-- The state that the outcome leaves, where it leaves one, satisfies `P`. -/
def Leaves (P : State → Prop) : Host.Outcome State Fault Refusal → Prop
  | .next t => P t
  | .fault _ => True
  | .refused _ => True

theorem Leaves.of_next {P : State → Prop} {o : Host.Outcome State Fault Refusal} (h : Leaves P o) (e : o = .next t) :
    P t := by
  subst e
  exact h

/-! ### What a service invocation only adds to -/

/-- No recorded fault and no `IRQ_STATUS` bit of `s` is lost in `t`. -/
structure OnlyAdds (s t : State) : Prop where
  faults : s.faults <+: t.faults
  irqStatus : ∀ b, s.irqStatus.getLsbD b = true → t.irqStatus.getLsbD b = true

namespace OnlyAdds

theorem of_eq (hf : t.faults = s.faults) (hi : t.irqStatus = s.irqStatus) : OnlyAdds s t where
  faults := hf ▸ List.prefix_refl _
  irqStatus _ h := hi ▸ h

theorem trans {u : State} (h : OnlyAdds s t) (g : OnlyAdds t u) : OnlyAdds s u where
  faults := h.faults.trans g.faults
  irqStatus b hb := g.irqStatus b (h.irqStatus b hb)

/-- What `t` holds of faults and bits is what `s` held. -/
theorem from_eq {u : State} (h : OnlyAdds t u) (hf : t.faults = s.faults) (hi : t.irqStatus = s.irqStatus) :
    OnlyAdds s u :=
  trans (of_eq hf hi) h

theorem faultFree (h : OnlyAdds s t) (ht : FaultFree t) : FaultFree s :=
  List.prefix_nil.mp ((show t.faults = [] from ht) ▸ h.faults)

theorem raise (f : ModelFault) (s : State) : OnlyAdds s (raise f s) where
  faults := by
    rw [raise_faults]
    split
    · exact List.prefix_refl _
    · exact List.prefix_append _ _
  irqStatus _ h := h

theorem setIrq (b : Nat) (s : State) : OnlyAdds s (setIrq b s) where
  faults := List.prefix_refl _
  irqStatus k h := by simp [h]

theorem frameRejected (code : ResultCode) (s : State) : OnlyAdds s (frameRejected code s) :=
  (setIrq frameErrBit _).from_eq rfl rfl

theorem dispatch (id : Word) (p : List Byte) (s : State) : OnlyAdds s (dispatch id p s) := by
  unfold Machine.dispatch
  split
  · split
    · exact .frameRejected _ _
    · exact (setIrq frameDoneBit _).from_eq rfl rfl
  · exact .frameRejected _ _

theorem armHeader (i : Engine) (s : State) : OnlyAdds s (armHeader i s) := .of_eq rfl rfl

theorem headerAccepted (i : Engine) (id len : Word) (s : State) : OnlyAdds s (headerAccepted i id len s) := by
  unfold Machine.headerAccepted
  dsimp only
  split
  · exact ((dispatch id [] _).trans (armHeader i _)).from_eq rfl rfl
  · exact .of_eq rfl rfl

theorem headerParsed (i : Engine) (h : List Byte) (s : State) : OnlyAdds s (headerParsed i h s) := by
  unfold Machine.headerParsed
  split
  · exact (frameRejected _ s).trans (armHeader i _)
  · split
    · exact (frameRejected _ s).trans (armHeader i _)
    · exact .headerAccepted _ _ _ _

theorem payloadParsed (i : Engine) (p : List Byte) (s : State) : OnlyAdds s (payloadParsed i p s) :=
  (dispatch s.fr.lastId p s).trans (of_eq rfl rfl)

theorem framerOnRx (i : Engine) (s : State) : OnlyAdds s (framerOnRx i s).state := by
  unfold Machine.framerOnRx headerDone payloadDone
  split <;> split
  · exact .raise _ _
  · exact .headerParsed _ _ _
  · exact .raise _ _
  · exact .payloadParsed _ _ _

theorem callback (i : Engine) (bit : Nat) (cb : Callback) (s : State) : OnlyAdds s (callback i bit cb s).state := by
  unfold Machine.callback
  split
  · exact .of_eq rfl rfl
  · exact .setIrq _ _
  · exact .framerOnRx _ _

theorem txBranch (i : Engine) (s : State) : OnlyAdds s (txBranch i s).state := by
  unfold Machine.txBranch
  split
  · split
    · split
      · exact .raise _ _
      · exact .of_eq rfl rfl
    · exact (callback i _ _ _).from_eq rfl rfl
  · exact .of_eq rfl rfl

theorem rxAdvance (i : Engine) (s : State) : OnlyAdds s (rxAdvance i s).state := by
  unfold Machine.rxAdvance
  dsimp only
  split
  · exact (callback i _ _ _).from_eq rfl rfl
  · exact .of_eq rfl rfl

theorem rxBranch (i : Engine) (s : State) : OnlyAdds s (rxBranch i s).state := by
  unfold Machine.rxBranch
  split
  · exact .of_eq rfl rfl
  · rename_i b _ _
    split
    · split
      · rcases memWrite_cases (s.chan i).rxd.cursorAddr b (rxDrop i s) with ⟨-, e⟩ | ⟨-, e⟩
        · rw [e]
          exact (rxAdvance i _).from_eq rfl rfl
        · rw [e]
          exact (raise _ _).from_eq rfl rfl
      · exact .raise _ _
    · exact .of_eq rfl rfl

theorem serve (i : Engine) (s : State) : OnlyAdds s (serve i s).state := by
  have htx := txBranch i s
  unfold Machine.serve
  cases e : Machine.txBranch i s with
  | go u =>
    rw [e] at htx
    exact htx.trans (rxBranch i u)
  | stop u =>
    rw [e] at htx
    exact htx

theorem sendAccepted (i : Engine) (s : State) : OnlyAdds s (sendAccepted i s) := of_eq rfl rfl

theorem sendStart (i : Engine) (a l : Word) (cb : Callback) (s : State) : OnlyAdds s (sendStart i a l cb s).state := by
  unfold Machine.sendStart
  dsimp only
  split
  · split
    · exact (raise _ _).from_eq rfl rfl
    · exact (sendAccepted i _).from_eq rfl rfl
  · exact (sendAccepted i _).from_eq rfl rfl

end OnlyAdds

/-! ### The operations -/

namespace Inv

/-- A change that touches no fault owes `Linked` from `Linked`. -/
theorem of_faults_eq (h : Inv s) (hf : t.faults = s.faults) (hb : Bounded t) (hl : Linked s → Linked t) : Inv t :=
  ⟨hb, fun ht => hl (h.linked (hf.symm.trans ht))⟩

/-- Pseudocode that only raises to stop owes `Linked` where it ends. -/
theorem of_flow {f : Flow} (h : Inv s) (hb : Bounded f.state) (ha : OnlyAdds s f.state) (hs : StopsFaulted f)
    (hl : ∀ t, f = .go t → Linked s → Linked t) : Inv f.state := by
  refine ⟨hb, fun ht => ?_⟩
  cases f with
  | go t => exact hl t rfl (h.linked (ha.faultFree ht))
  | stop t => exact absurd ht (hs t rfl)

theorem raise (h : Inv s) (f : ModelFault) : Inv (raise f s) :=
  ⟨h.bounded.raise f, fun ht => absurd ht (not_faultFree_raise f)⟩

theorem finish (h : Inv s) (op : CmdOp) (code : ResultCode)
    (hc : code ≠ .decodeFailure ∧ code ≠ .unmappedId := by decide) : Inv (finish op code s) :=
  h.of_faults_eq rfl (h.bounded.finish op code hc) fun l => l.congr rfl rfl rfl rfl

theorem emit (h : Inv s) (e : Event) : Inv (emit e s) :=
  h.of_faults_eq rfl (h.bounded.emit e) fun l => l.congr rfl rfl rfl rfl

theorem setHostData (h : Inv s) (v : Word) : Inv (s.setHostData v) :=
  h.of_faults_eq rfl { h.bounded with channels := h.bounded.channels } fun l => l.congr rfl rfl rfl rfl

theorem setAgenda (h : Inv s) (l : List Action) : Inv (s.setAgenda l) :=
  h.of_faults_eq rfl { h.bounded with channels := h.bounded.channels } fun l => l.congr rfl rfl rfl rfl

theorem setRdata (h : Inv s) {v : Word} (hv : v.toNat < 256) : Inv (s.setRdata v) :=
  h.of_faults_eq rfl { h.bounded with rdata := hv, channels := h.bounded.channels } fun l => l.congr rfl rfl rfl rfl

theorem memory_write (h : Inv s) (a : Word) (b : Byte) : Inv (s.setMem (s.mem.write a.toNat b)) :=
  h.of_faults_eq rfl (h.bounded.memory_write a.isLt b) fun l => l.congr rfl rfl rfl rfl

theorem setCmdState (h : Inv s) {c : CmdState} (hc : c.inProgress s.par)
    (htx : ∀ j, c.holdsTx j = s.cmdState.holdsTx j) (hrx : ∀ j, c.holdsRx j = s.cmdState.holdsRx j) :
    Inv (s.setCmdState c) :=
  h.of_faults_eq rfl (h.bounded.setCmdState c hc) fun l => cmd_congr l c htx hrx

/-- A change of one channel that leaves its descriptors and their service sources alone. -/
theorem updStorage (h : Inv s) (i : Engine) (f : Channel → Channel) (hb : ChannelBounds s.par (f (s.chan i)))
    (htx : (f (s.chan i)).txd = (s.chan i).txd) (hrx : (f (s.chan i)).rxd = (s.chan i).rxd)
    (ht : (f (s.chan i)).cr.txeie = (s.chan i).cr.txeie) (hr : (f (s.chan i)).cr.rxneie = (s.chan i).cr.rxneie) :
    Inv (s.updChan i f) :=
  h.of_faults_eq rfl (h.bounded.updChan i f hb) fun l => l.updStorage i f htx hrx ht hr

theorem updOvr (h : Inv s) (i : Engine) (f : Channel → Bool) : Inv (s.updChan i fun c => { c with ovr := f c }) :=
  h.updStorage i _ ((h.bounded.channels i).of_eq rfl rfl rfl rfl rfl rfl) rfl rfl rfl rfl

theorem txPush (h : Inv s) {i : Engine} (b : Byte) (room : txe s i = true) : Inv (txPush i b s) :=
  h.of_faults_eq rfl (h.bounded.txPush b room) fun l => l.updStorage i _ rfl rfl rfl rfl

theorem rxPush (h : Inv s) {i : Engine} (b : Byte) (room : rxRoom s i = true) : Inv (rxPush i b s) :=
  h.of_faults_eq rfl (h.bounded.rxPush b room) fun l => l.updStorage i _ rfl rfl rfl rfl

theorem txDrop (h : Inv s) (i : Engine) : Inv (txDrop i s) :=
  h.of_faults_eq rfl (h.bounded.txDrop i) fun l => l.updStorage i _ rfl rfl rfl rfl

theorem rxDrop (h : Inv s) (i : Engine) : Inv (rxDrop i s) :=
  h.of_faults_eq rfl (h.bounded.rxDrop i) fun l => l.updStorage i _ rfl rfl rfl rfl

/-- The end of the blocking command that holds the transmit direction of channel `i`. -/
theorem endTx (h : Inv s) {i : Engine} (op : CmdOp) (code : ResultCode)
    (htx : ∀ j, s.cmdState.holdsTx j = decide (i = j)) (hrx : ∀ j, s.cmdState.holdsRx j = false)
    (hc : code ≠ .decodeFailure ∧ code ≠ .unmappedId := by decide) : Inv (endTx op i code s) :=
  h.of_faults_eq rfl (endTx_bounded h.bounded op i code hc) fun l => endTx_linked l op code htx hrx

/-- The end of the blocking command that holds the receive direction of channel `i`. -/
theorem endRx (h : Inv s) {i : Engine} (op : CmdOp) (code : ResultCode)
    (hrx : ∀ j, s.cmdState.holdsRx j = decide (i = j)) (htx : ∀ j, s.cmdState.holdsTx j = false)
    (hc : code ≠ .decodeFailure ∧ code ≠ .unmappedId := by decide) : Inv (endRx op i code s) :=
  h.of_faults_eq rfl (endRx_bounded h.bounded op i code hc) fun l => endRx_linked l op code hrx htx

end Inv

/-! ### The commands -/

/-- A divisor that R152 yields keeps the layout of `BRR` (10_state.md R26). -/
theorem initChannel_bounds {p : Params} {c : Channel} {baud : Nat} {over8 : Bool} {d : Nat × Nat} (hp : p.mantMax ≤ 4095)
    (h : ChannelBounds p c) (hd : baudDivisor p.mantMax p.coreClock baud over8 = some d) :
    ChannelBounds p (initChannel over8 d c) := by
  obtain ⟨hpos, hmax, hfrac⟩ := baudDivisor_some hd
  obtain ⟨hhigh, hmant, hbit⟩ := brrWord_fields d.1 d.2 (hmax.trans hp)
  exact
    { txFits := h.txFits
      rxFits := h.rxFits
      brrHigh := hhigh
      brrMant := fun _ => by rw [initChannel, hmant]; exact ⟨hpos, hmax⟩
      brrFrac := fun ho => hbit (by rwa [show over8 = true from ho] at hfrac)
      txCallback := h.txCallback }

theorem execInit_inv (h : Inv s) (ch : Nat) (over8 : Bool) : Leaves Inv (execInit ch over8 s) := by
  obtain ⟨-, -, -, -, -, -, -, -, -, -, -, -, hmant, -⟩ := h.bounded.params
  unfold execInit
  split
  · exact h.finish .init .invalidChannel
  · rename_i i _
    split
    · exact h.finish .init .invalidArgument
    · rename_i d hd
      split
      · exact h.finish .init .busy
      · exact (h.updStorage i (initChannel over8 d) (initChannel_bounds hmant (h.bounded.channels i) hd)
          rfl rfl rfl rfl).finish .init .ok

theorem hostCallback_ne_framer (hostcb : Bool) : hostCallback hostcb ≠ .framer := by
  cases hostcb <;> decide

theorem execSubmitSend_inv (h : Inv s) (ch : Nat) (hostcb : Bool) : Leaves Inv (execSubmitSend ch hostcb s) := by
  unfold execSubmitSend
  split
  · rename_i code hv
    exact h.finish .submitSend code (validate_error hv)
  · rename_i i hv
    obtain ⟨-, -, hlen, hrange⟩ := validate_ok hv
    split
    · exact h.finish .submitSend .busy
    · rename_i hready
      exact h.of_flow (sendStart_bounded h.bounded i _ _ _ (hostCallback_ne_framer hostcb)) (.sendStart ..)
        (sendStart_stops _ _ _ _ _) fun t e l => sendStart_linked l hlen hrange hready e

theorem execSubmitRecv_inv (h : Inv s) (ch : Nat) (hostcb : Bool) : Leaves Inv (execSubmitRecv ch hostcb s) := by
  unfold execSubmitRecv
  split
  · rename_i code hv
    exact h.finish .submitRecv code (validate_error hv)
  · rename_i i hv
    obtain ⟨-, -, hlen, hrange⟩ := validate_ok hv
    split
    · exact h.finish .submitRecv .busy
    · rename_i hready
      have harm : Inv (armReceive i s.arg0 s.arg1 (hostCallback hostcb) s) :=
        h.of_faults_eq rfl (armReceive_bounded h.bounded i _ _ _) fun l =>
          submitRecv_linked l hlen hrange hready (hostCallback_ne_framer hostcb)
      exact harm.finish .submitRecv .ok

theorem Inv.holdTx (h : Inv s) {i : Engine} {c : CmdState} (hidle : s.cmdState = .idle)
    (hready : (s.chan i).txd.state ≠ .busy) (hc : c.inProgress s.par) (htx : ∀ j, c.holdsTx j = decide (i = j))
    (hrx : ∀ j, c.holdsRx j = false) : Inv ((holdTx i s).setCmdState c) :=
  h.of_faults_eq rfl ((holdTx_bounded h.bounded i).setCmdState c hc) fun l => holdTx_linked l hready hidle htx hrx

theorem execSendByte_inv (h : Inv s) (hidle : s.cmdState = .idle) (ch : Nat) (data : Byte) :
    Leaves Inv (execSendByte ch data s) := by
  obtain ⟨-, -, -, -, -, -, -, hspin, -⟩ := h.bounded.params
  unfold execSendByte
  split
  · exact h.finish .sendByte .invalidChannel
  · rename_i i hi
    split
    · exact h.finish .sendByte .busy
    · rename_i hready
      exact h.holdTx hidle hready ⟨chanMap_lt h.bounded.params hi, hspin⟩ (fun _ => rfl) (fun _ => rfl)

theorem execGetByte_inv (h : Inv s) (hidle : s.cmdState = .idle) (ch : Nat) : Leaves Inv (execGetByte ch s) := by
  obtain ⟨-, -, -, -, -, -, -, hspin, -⟩ := h.bounded.params
  unfold execGetByte
  split
  · exact h.finish .getByte .invalidChannel
  · rename_i i hi
    split
    · exact h.finish .getByte .busy
    · rename_i hready
      have hc : (CmdState.getByte i 0).inProgress s.par := ⟨chanMap_lt h.bounded.params hi, hspin⟩
      exact h.of_faults_eq rfl ((holdRx_bounded h.bounded i).setCmdState _ hc) fun l =>
        holdRx_linked l hready hidle (fun _ => rfl) (fun _ => rfl)

theorem execSendFrame_inv (h : Inv s) (hidle : s.cmdState = .idle) (ch : Nat) : Leaves Inv (execSendFrame ch s) := by
  obtain ⟨-, -, -, -, -, -, -, hspin, hhdr, -⟩ := h.bounded.params
  unfold execSendFrame
  split
  · exact h.finish .sendFrame .nullReference
  split
  · exact h.finish .sendFrame .invalidChannel
  · rename_i i hi
    split
    · exact h.finish .sendFrame .invalidArgument
    split
    · exact h.finish .sendFrame .busy
    · rename_i hready
      exact h.holdTx hidle hready ⟨chanMap_lt h.bounded.params hi, hspin, by omega⟩ (fun _ => rfl) (fun _ => rfl)

/-- FRAMER_START's buffers that pass its check lie in the address space (43_framer.md R161). -/
theorem framerBuffersBad_false {n : Nat} {hdr pay cap : Word} (h : framerBuffersBad n hdr pay cap = false) :
    hdr.toNat + n ≤ 2 ^ 32 ∧ pay.toNat + cap.toNat ≤ 2 ^ 32 := by
  simp only [framerBuffersBad, leavesMemory, Bool.or_eq_false_iff, decide_eq_false_iff_not, Nat.not_lt] at h
  exact ⟨h.1.1.2, h.1.2⟩

theorem framerBegin_bounded (h : Bounded s) {i : Engine} (hi : i.val < s.par.numChannels) (hdr pay cap : Word) :
    Bounded (framerBegin i hdr pay cap s) :=
  armHeader_bounded (h.updFr _ hi h.lastResult) i

/-- The parser starts with its receive armed for a header (43_framer.md R161, R162). -/
theorem framerBegin_linked (h : Linked s) {i : Engine} {hdr pay cap : Word} (hpos : 1 ≤ s.par.hdrLen)
    (hfit : s.par.hdrLen < 2 ^ 32) (hhdr : hdr.toNat + s.par.hdrLen ≤ 2 ^ 32) (hpay : pay.toNat + cap.toNat ≤ 2 ^ 32)
    (hstopped : s.fr.active ≠ true) (hready : (s.chan i).rxd.state ≠ .busy) :
    Linked (framerBegin i hdr pay cap s) := by
  have hlen : (BitVec.ofNat 32 s.par.hdrLen).toNat = s.par.hdrLen := Nat.mod_eq_of_lt hfit
  have hchan : ∀ j, (framerBegin i hdr pay cap s).chan j =
      (armReceive i hdr (BitVec.ofNat 32 s.par.hdrLen) .framer s).chan j := fun j => by
    rw [framerBegin, armHeader, arm, chan_armReceive, chan_armReceive]
    rfl
  have hrxd : ((framerBegin i hdr pay cap s).chan i).rxd = submitted hdr (BitVec.ofNat 32 s.par.hdrLen) .framer := by
    rw [hchan, chan_armReceive, if_pos rfl]
  refine framer_linked h (i := i) (a := hdr) (l := BitVec.ofNat 32 s.par.hdrLen) ?_ (hlen.symm ▸ hhdr)
    ((h.channels i).rxReady (ready_of_ne_busy hready)) hchan rfl rfl rfl (fun ha => absurd ha hstopped) ?_
  · rw [BitVec.lt_def, hlen]
    exact hpos
  · exact
      { header := hhdr
        payload := hpay
        inHeaderWait := fun _ => by
          rw [show (framerBegin i hdr pay cap s).fr.ch = i from rfl, hrxd]
          exact ⟨rfl, hlen⟩
        inPayloadWait := fun hst => by cases hst }

theorem execFramerStart_inv (h : Inv s) (ch : Nat) : Leaves Inv (execFramerStart ch s) := by
  obtain ⟨-, -, -, -, -, -, -, -, hpos, hfit, -⟩ := h.bounded.params
  unfold execFramerStart
  split
  · exact h.finish .framerStart .nullReference
  split
  · exact h.finish .framerStart .invalidChannel
  · rename_i i hi
    split
    · exact h.finish .framerStart .invalidArgument
    · rename_i hbuf
      obtain ⟨hhdr, hpay⟩ := framerBuffersBad_false (by simpa using hbuf)
      split
      · exact h.finish .framerStart .busy
      · rename_i hfree
        obtain ⟨hstopped, hready⟩ := not_or.mp hfree
        have hbegin : Inv (framerBegin i s.arg0 s.arg1 s.arg2 s) :=
          h.of_faults_eq rfl (framerBegin_bounded h.bounded (chanMap_lt h.bounded.params hi) _ _ _) fun l =>
            framerBegin_linked l hpos hfit hhdr hpay hstopped hready
        exact hbegin.finish .framerStart .ok

/-- Every command keeps the invariant in its first step (30_encoding.md R88). -/
theorem exec_inv (h : Inv s) (hidle : s.cmdState = .idle) (c : Instr) : Leaves Inv (exec c s) := by
  cases c with
  | init ch over8 => exact execInit_inv h ch over8
  | submitSend ch hostcb => exact execSubmitSend_inv h ch hostcb
  | submitRecv ch hostcb => exact execSubmitRecv_inv h ch hostcb
  | sendByte ch data => exact execSendByte_inv h hidle ch data
  | getByte ch => exact execGetByte_inv h hidle ch
  | framerStart ch => exact execFramerStart_inv h ch
  | sendFrame ch => exact execSendFrame_inv h hidle ch

/-! ### The HOST -/

theorem writeReg_inv (h : Inv s) (r : Reg) (v : Word) : Inv (writeReg r v s) := by
  cases r
  case arg0 => exact h.of_faults_eq rfl { h.bounded with channels := h.bounded.channels } (·.congr rfl rfl rfl rfl)
  case arg1 => exact h.of_faults_eq rfl { h.bounded with channels := h.bounded.channels } (·.congr rfl rfl rfl rfl)
  case arg2 => exact h.of_faults_eq rfl { h.bounded with channels := h.bounded.channels } (·.congr rfl rfl rfl rfl)
  case irqStatus =>
    have hmask : s.irqStatus &&& ~~~v &&& ~~~irqMask s.par = 0#32 := by
      rw [BitVec.and_assoc, BitVec.and_comm (~~~v), ← BitVec.and_assoc, h.bounded.irqStatus, BitVec.zero_and]
    exact h.of_faults_eq rfl { h.bounded with irqStatus := hmask, channels := h.bounded.channels }
      (·.congr rfl rfl rfl rfl)
  case irqEnable =>
    have hmask : v &&& irqMask s.par &&& ~~~irqMask s.par = 0#32 := by
      rw [BitVec.and_assoc, BitVec.and_not_self]
      exact BitVec.and_zero
    exact h.of_faults_eq rfl { h.bounded with irqEnable := hmask, channels := h.bounded.channels }
      (·.congr rfl rfl rfl rfl)
  case sr i => exact h.updOvr i fun c => c.ovr && !v.getLsbD 2
  all_goals exact h

theorem command_inv (h : Inv s) (hidle : s.cmdState = .idle) (w : Word) : Leaves Inv (command w s) := by
  unfold command
  split
  · exact exec_inv h hidle _
  · exact h.finish .illegal .invalidArgument

theorem hostStmt_inv (h : Inv s) (hidle : s.cmdState = .idle) (st : HostStmt) : Leaves Inv (hostStmt st s) := by
  cases st with
  | regRead w off =>
    show Inv (regRead w off s)
    unfold regRead
    split
    · exact h.setHostData _
    · exact h.raise _
  | regWrite w off v =>
    show Leaves Inv (regWrite w off v s)
    unfold regWrite
    split
    · split
      · exact command_inv h hidle v
      · exact writeReg_inv h _ v
    · exact h.raise _
  | memRead a =>
    show Leaves Inv (hostMemRead a s)
    unfold hostMemRead
    split
    · exact h.raise _
    split
    · exact h.raise _
    split
    · trivial
    · exact h.setHostData _
  | memWrite a b =>
    show Leaves Inv (hostMemWrite a b s)
    unfold hostMemWrite
    split
    · exact h.raise _
    split
    · exact h.raise _
    split
    · trivial
    · exact h.memory_write a b

theorem hostStep_inv (h : Inv s) (st : HostStmt) : Leaves Inv (hostStep st s) := by
  unfold hostStep
  split
  · rename_i hidle
    exact hostStmt_inv h hidle st
  · trivial

/-! ### The polls of a blocking command -/

theorem pollSendByte_inv (h : Inv s) {i : Engine} {b : Byte} {k : Nat} (hc : s.cmdState = .sendByte i b k) :
    Inv (pollSendByte i b k s) := by
  obtain ⟨hi, hk⟩ : i.val < s.par.numChannels ∧ k < s.par.spinBound := by
    have hcmd := h.bounded.command
    rwa [hc] at hcmd
  have htx : ∀ j, s.cmdState.holdsTx j = decide (i = j) := fun j => by rw [hc]; rfl
  have hrx : ∀ j, s.cmdState.holdsRx j = false := fun j => by rw [hc]; rfl
  unfold pollSendByte
  split
  · rename_i room
    exact (h.txPush b room).endTx .sendByte .ok htx hrx
  split
  · exact h.endTx .sendByte .timeout htx hrx
  · exact h.setCmdState ⟨hi, by omega⟩ (fun j => (htx j).symm) (fun j => (hrx j).symm)

theorem pollGetByte_inv (h : Inv s) {i : Engine} {k : Nat} (hc : s.cmdState = .getByte i k) :
    Inv (pollGetByte i k s) := by
  obtain ⟨hi, hk⟩ : i.val < s.par.numChannels ∧ k < s.par.spinBound := by
    have hcmd := h.bounded.command
    rwa [hc] at hcmd
  have hrx : ∀ j, s.cmdState.holdsRx j = decide (i = j) := fun j => by rw [hc]; rfl
  have htx : ∀ j, s.cmdState.holdsTx j = false := fun j => by rw [hc]; rfl
  unfold pollGetByte
  split
  · rename_i b _ _
    have hb : (b.setWidth 32).toNat < 256 := by
      rw [BitVec.toNat_setWidth_of_le (by decide)]
      exact b.isLt
    exact ((h.rxDrop i).setRdata hb).endRx .getByte .ok hrx htx
  split
  · exact h.endRx .getByte .timeout hrx htx
  · exact h.setCmdState ⟨hi, by omega⟩ (fun j => (htx j).symm) (fun j => (hrx j).symm)

theorem frameBytePushed_inv (h : Inv s) {i : Engine} {hb : List Byte} {pay len : Word} {pos k : Nat}
    (hc : s.cmdState = .sendFrame i hb pay len pos k) (room : txe s i = true) (b : Byte) :
    Inv (frameBytePushed i hb pay len pos b s) := by
  obtain ⟨hi, hk, hpos⟩ : i.val < s.par.numChannels ∧ k < s.par.spinBound ∧ pos < s.par.hdrLen + len.toNat := by
    have hcmd := h.bounded.command
    rwa [hc] at hcmd
  have htx : ∀ j, s.cmdState.holdsTx j = decide (i = j) := fun j => by rw [hc]; rfl
  have hrx : ∀ j, s.cmdState.holdsRx j = false := fun j => by rw [hc]; rfl
  unfold frameBytePushed
  split
  · exact (h.txPush b room).endTx .sendFrame .ok htx hrx
  · exact (h.txPush b room).setCmdState ⟨hi, show 0 < s.par.spinBound by omega, show _ < s.par.hdrLen + _ by omega⟩
      (fun j => (htx j).symm) (fun j => (hrx j).symm)

theorem pollSendFrame_inv (h : Inv s) {i : Engine} {hb : List Byte} {pay len : Word} {pos k : Nat}
    (hc : s.cmdState = .sendFrame i hb pay len pos k) : Leaves Inv (pollSendFrame i hb pay len pos k s) := by
  obtain ⟨hi, hk, hpos⟩ : i.val < s.par.numChannels ∧ k < s.par.spinBound ∧ pos < s.par.hdrLen + len.toNat := by
    have hcmd := h.bounded.command
    rwa [hc] at hcmd
  have htx : ∀ j, s.cmdState.holdsTx j = decide (i = j) := fun j => by rw [hc]; rfl
  have hrx : ∀ j, s.cmdState.holdsRx j = false := fun j => by rw [hc]; rfl
  unfold pollSendFrame
  split
  · rename_i room
    split
    · split
      · trivial
      · exact frameBytePushed_inv h hc room _
    · split
      · exact h.raise _
      · exact frameBytePushed_inv h hc room _
  split
  · exact h.endTx .sendFrame .timeout htx hrx
  · exact h.setCmdState ⟨hi, by omega, hpos⟩ (fun j => (htx j).symm) (fun j => (hrx j).symm)

theorem pollStep_inv (h : Inv s) : Leaves Inv (pollStep s) := by
  unfold pollStep
  split
  · trivial
  · rename_i hc
    exact pollSendByte_inv h hc
  · rename_i hc
    exact pollGetByte_inv h hc
  · rename_i hc
    exact pollSendFrame_inv h hc

/-! ### The SEQ and the LINE -/

theorem seqStep_inv (h : Inv s) (i : Engine) : Leaves Inv (seqStep i s) := by
  unfold seqStep
  split
  · rename_i hrun
    have hi : i.val < s.par.numChannels := of_decide_eq_true (Bool.and_eq_true_iff.mp hrun).1
    have hpar : ∀ u, txBranch i s = .go u → u.par = s.par := fun u e => by
      have hframe := serviceFrame_txBranch i s
      rw [e] at hframe
      exact hframe.par
    exact h.of_flow (serve_bounded h.bounded hi hpar) (.serve i s) (serve_stops i s) fun t e l =>
      serve_linked l h.bounded hi e
  · trivial

theorem lineTxStep_inv (h : Inv s) (i : Engine) : Leaves Inv (lineTxStep i s) := by
  unfold lineTxStep
  split
  · trivial
  split
  · exact (h.txDrop i).emit _
  · trivial

theorem lineRx_inv (h : Inv s) (i : Engine) (b : Byte) : Inv (lineRx i b s) := by
  unfold lineRx
  split
  · split
    · rename_i room
      exact (h.rxPush b room).emit _
    · exact (h.updOvr i fun _ => true).emit _
  · exact h.emit _

theorem lineRxStep_inv (h : Inv s) (i : Engine) (b : Byte) : Leaves Inv (lineRxStep i b s) := by
  unfold lineRxStep
  split
  · exact lineRx_inv h i b
  · trivial

/-! ### Reset -/

@[simp] theorem resetOf_chan (p : Params) (m : Memory) (i : Engine) : (State.resetOf p m).chan i = Channel.reset := by
  simp [State.resetOf, State.chan]

theorem channelBounds_reset (p : Params) : ChannelBounds p Channel.reset := by
  constructor <;> simp [Channel.reset, Descriptor.reset]

theorem resetOf_bounded {p : Params} {m : Memory} (hp : p.wf) (hm : m.wf) : Bounded (State.resetOf p m) where
  params := hp
  memory := hm
  channels i := by
    rw [resetOf_chan]
    exact channelBounds_reset p
  irqStatus := BitVec.zero_and
  irqEnable := BitVec.zero_and
  rdata := Nat.zero_lt_succ _
  result := ⟨nofun, nofun⟩
  lastResult := .inl rfl
  parserChannel := hp.1
  command := trivial
  faultSet := List.nodup_nil

/-- After reset every descriptor is Ready with its source off, and the parser is stopped (10_state.md R34). -/
theorem resetOf_linked (p : Params) (m : Memory) : Linked (State.resetOf p m) where
  channels i := by
    constructor <;> simp only [resetOf_chan, Channel.reset, Descriptor.reset] <;>
      simp [State.resetOf, CmdState.holdsTx, CmdState.holdsRx]
  parser hactive := by cases hactive
  buffers hactive := by cases hactive

theorem resetOf_inv {p : Params} {m : Memory} (hp : p.wf) (hm : m.wf) : Inv (State.resetOf p m) :=
  ⟨resetOf_bounded hp hm, fun _ => resetOf_linked p m⟩

/-- Reset is the reset state of the same block over the same memory, with the model's own fields kept. -/
theorem resetStep_eq (s : State) :
    resetStep s = ((State.resetOf s.par s.mem).setHostData s.hostData).setAgenda s.agenda := rfl

theorem resetStep_inv (h : Inv s) : Inv (resetStep s) := by
  rw [resetStep_eq]
  exact ((resetOf_inv h.bounded.params h.bounded.memory).setHostData _).setAgenda _

/-! ### The obligations -/

/-- Every action of every agent keeps the invariant (20_memory.md R65). -/
theorem act_inv (h : Inv s) (a : Action) : Leaves Inv (act a s) := by
  cases a with
  | host st => exact hostStep_inv h st
  | poll => exact pollStep_inv h
  | svc i => exact seqStep_inv h i
  | lineTx i => exact lineTxStep_inv h i
  | lineRx i b => exact lineRxStep_inv h i b
  | reset => exact resetStep_inv h

/-- Settles O51: a step is the action that stands first in the agenda. -/
theorem everyStepKeepsTheInvariant : Obligations.EveryStepKeepsTheInvariant := by
  intro s t h hstep
  cases hagenda : s.agenda with
  | nil =>
    rw [step, stepOf, hagenda] at hstep
    cases hstep
  | cons a rest =>
    rw [step_of_agenda hagenda] at hstep
    exact (act_inv (h.setAgenda rest) a).of_next hstep

/-- Settles O50: the vectors' parameters are such a value, and the empty memory is canonical. -/
theorem resetSatisfiesTheInvariant : Obligations.ResetSatisfiesTheInvariant :=
  ⟨fun _ _ hp hm => resetOf_inv hp hm, resetOf_inv (by decide) (by decide)⟩

end Sys2Proof.Machine
end

section
/-! The register window (10_state.md R22, R23) and the words that its registers read as (R24 to R30): a layout is an
"or" of single bits, so one lemma about `bitAt` reads every layout bit by bit. -/

namespace Sys2Proof.Machine

/-! ### The register map -/

theorem regAt_global (p : Params) {off : Nat} (h : off < 0x100) : regAt p off = globalReg off := if_pos h

theorem globalReg_reserved {off : Nat} (h : 0x038 ≤ off) : globalReg off = .reserved := by
  unfold globalReg
  split
  case h_15 => rfl
  all_goals omega

/-- The window of a channel that exists. -/
theorem regAt_channel {p : Params} {i : Engine} (hi : i.val < p.numChannels) {r : Nat} (hr : r < 0x40) :
    regAt p (0x100 + 0x40 * i.val + r) = channelReg i r := by
  have hindex : (0x100 + 0x40 * i.val + r - 0x100) / 0x40 = i.val := by omega
  have hoff : (0x100 + 0x40 * i.val + r - 0x100) % 0x40 = r := by omega
  simp only [regAt, hindex, hoff, i.isLt, hi, dif_pos, if_true]
  exact if_neg (by omega)

theorem channelReg_reserved (i : Engine) {r : Nat} (h : 0x2C ≤ r) : channelReg i r = .reserved := by
  unfold channelReg
  split
  case h_12 => rfl
  all_goals omega

theorem regAt_absent {p : Params} {off : Nat} (h : 0x100 + 0x40 * p.numChannels ≤ off) : regAt p off = .reserved := by
  have habsent : ¬ (off - 0x100) / 0x40 < p.numChannels := by omega
  simp only [regAt, habsent, if_false, dite_eq_ite, ite_self]
  exact if_neg (by omega)

/-- Settles O41: a window offset selects the channel and the register within its window. -/
theorem windowHoldsTheRegisterMap : Obligations.WindowHoldsTheRegisterMap := by
  intro p _
  refine ⟨by simp [regAt_global, globalReg], fun off hlo hhi => ?_, fun i hi => ?_, fun off h _ => regAt_absent h⟩
  · rw [regAt_global p (by omega), globalReg_reserved hlo]
  · have hreg : ∀ base r, r < 0x40 → base = 0x100 + r → regAt p (base + 0x40 * i.val) = channelReg i r :=
      fun base r hr hbase => by rw [hbase, Nat.add_right_comm, regAt_channel hi hr]
    refine ⟨hreg _ 0x00 ?_ rfl, hreg _ 0x04 ?_ rfl, hreg _ 0x08 ?_ rfl, hreg _ 0x0C ?_ rfl, hreg _ 0x10 ?_ rfl,
      hreg _ 0x14 ?_ rfl, hreg _ 0x18 ?_ rfl, hreg _ 0x1C ?_ rfl, hreg _ 0x20 ?_ rfl, hreg _ 0x24 ?_ rfl,
      hreg _ 0x28 ?_ rfl, fun r hlo hhi => ?_⟩
    case refine_12 => rw [regAt_channel hi (by omega), channelReg_reserved i hlo]
    all_goals decide

/-! ### Words built of bits -/

theorem getLsbD_bitAt {n b : Nat} (f : Bool) (hb : b < 32) : (bitAt n f).getLsbD b = (decide (b = n) && f) := by
  cases f
  · simp [bitAt]
  · by_cases h : b < n <;> simp [bitAt, hb, h] <;> omega

/-- Field `CB` is a bit for each callback (10_state.md R27). -/
theorem code_shift_eq_bits (cb : Callback) :
    cb.code <<< 2 = bitAt 2 (decide (cb = .host)) ||| bitAt 3 (decide (cb = .framer)) := by
  cases cb <;> decide

/-- Field `CH` is the index's three bits (10_state.md R30). -/
theorem channel_shift_eq_bits (i : Engine) :
    BitVec.ofNat 32 i.val <<< 4 =
      bitAt 4 (i.val.testBit 0) ||| bitAt 5 (i.val.testBit 1) ||| bitAt 6 (i.val.testBit 2) := by
  revert i
  decide

/-- Field `LAST_RESULT` is the code's three low bits, for no code needs the fourth (10_state.md R30, 60_exceptions.md
R190). -/
theorem result_shift_eq_bits (code : ResultCode) :
    code.code <<< 8 = bitAt 8 (code.code.getLsbD 0) ||| bitAt 9 (code.code.getLsbD 1) |||
      bitAt 10 (code.code.getLsbD 2) := by
  cases code <;> decide

/-- The bits of `IRQ_STATUS` and `IRQ_ENABLE` that exist (10_state.md R29). -/
theorem getLsbD_irqMask (p : Params) {b : Nat} (hb : b < 32) :
    (irqMask p).getLsbD b = (decide (b < 2 * p.numChannels) || b == 16 || b == 17) := by
  have hframe : (0x00030000#32).getLsbD b = (b == 16 || b == 17) := by
    rw [show 0x00030000#32 = bitAt 16 true ||| bitAt 17 true from by decide, BitVec.getLsbD_or, getLsbD_bitAt _ hb,
      getLsbD_bitAt _ hb, Bool.and_true, Bool.and_true]
    rfl
  rw [irqMask, BitVec.getLsbD_or, hframe, BitVec.getLsbD_ofNat, Nat.testBit_two_pow_sub_one, Bool.or_assoc]
  simp [hb]

/-! ### Registers bit by bit -/

theorem ctlWord_eq_bits (d : Descriptor) :
    ctlWord d = bitAt 0 (decide (d.state = .busy)) ||| bitAt 1 (decide (d.mode = .blocking)) |||
      (bitAt 2 (decide (d.cb = .host)) ||| bitAt 3 (decide (d.cb = .framer))) := by
  rw [ctlWord, code_shift_eq_bits]

theorem frStatusWord_eq_bits (f : FrameContext) :
    frStatusWord f = bitAt 0 f.active ||| bitAt 1 (decide (f.state = .payloadWait)) |||
      (bitAt 4 (f.ch.val.testBit 0) ||| bitAt 5 (f.ch.val.testBit 1) ||| bitAt 6 (f.ch.val.testBit 2)) |||
      (bitAt 8 (f.lastResult.code.getLsbD 0) ||| bitAt 9 (f.lastResult.code.getLsbD 1) |||
        bitAt 10 (f.lastResult.code.getLsbD 2)) := by
  rw [frStatusWord, channel_shift_eq_bits, result_shift_eq_bits]

/-- No result code needs a fourth bit (60_exceptions.md R190). -/
theorem code_lt_eight (code : ResultCode) : code.code.toNat < 8 := by
  cases code <;> decide

/-- `LAST_RESULT` stands alone in bits [11:8] (10_state.md R30). -/
theorem frStatusWord_lastResult (f : FrameContext) :
    (frStatusWord f).extractLsb' 8 4 = f.lastResult.code.setWidth 4 := by
  ext k hk
  rw [BitVec.getElem_extractLsb', BitVec.getElem_setWidth, frStatusWord_eq_bits]
  simp only [BitVec.getLsbD_or, getLsbD_bitAt _ (show 8 + k < 32 by omega)]
  have htop : f.lastResult.code[3] = false := Nat.testBit_lt_two_pow (code_lt_eight f.lastResult)
  interval_cases k <;> simp
  exact htop

/-- R190's table of numbers is that of `code`. -/
theorem code_of_mem_table {code : ResultCode} {n : Word}
    (h : (code, n) ∈
      [(ResultCode.ok, 0#32), (.invalidArgument, 1#32), (.nullReference, 2#32), (.busy, 3#32), (.timeout, 4#32),
        (.invalidChannel, 5#32), (.decodeFailure, 6#32), (.unmappedId, 7#32)]) : code.code = n := by
  have htable : ∀ e ∈ [(ResultCode.ok, 0#32), (.invalidArgument, 1#32), (.nullReference, 2#32), (.busy, 3#32),
      (.timeout, 4#32), (.invalidChannel, 5#32), (.decodeFailure, 6#32), (.unmappedId, 7#32)], e.1.code = e.2 := by
    decide
  exact htable _ h

/-- Settles O42: a whole-word register is its field, and a layout is read through `getLsbD_bitAt`. -/
theorem registersReadAsLaidOut : Obligations.RegistersReadAsLaidOut := by
  refine ⟨fun s i => by simp [readReg], fun s code n h => ⟨fun hs => ?_, fun hs => ?_⟩, fun s i b hb => ?_⟩
  · rw [readReg, hs, code_of_mem_table h]
  · rw [readReg, frStatusWord_lastResult, hs, code_of_mem_table h]
  · have hbit := fun n f => getLsbD_bitAt (n := n) f hb
    refine ⟨?cr, ?sr, ?ctl, ?irqStatus, ?irqEnable, ?frStatus⟩
    case cr =>
      simp only [readReg, crWord, BitVec.getLsbD_or, hbit]
      split <;> simp_all
    case sr =>
      simp only [readReg, srWord, txe, rxne, tc, BitVec.getLsbD_or, hbit]
      split <;> simp_all [List.length_pos_iff]
    case ctl =>
      intro d r h
      have hword : readReg r s = ctlWord d := by rcases h with h | h <;> cases h <;> rfl
      simp only [hword, ctlWord_eq_bits, BitVec.getLsbD_or, hbit]
      split <;> simp_all
    case irqStatus => rw [readReg, irqStatusWord, BitVec.getLsbD_and, getLsbD_irqMask _ hb]
    case irqEnable => rw [readReg, irqEnableWord, BitVec.getLsbD_and, getLsbD_irqMask _ hb]
    case frStatus =>
      simp only [readReg, frStatusWord_eq_bits, BitVec.getLsbD_or, hbit]
      split <;> simp_all

end Sys2Proof.Machine
end

section
/-! `IRQ_STATUS` (10_state.md R29): a service invocation sets bits, a HOST write to its offset clears them, and every
other step but reset leaves the register as it is. -/

namespace Sys2Proof.Machine

variable {s : State}

/-! ### Steps that leave the register -/

/-- The outcome leaves `IRQ_STATUS` as it is in `s`. -/
abbrev KeepsStatus (s : State) (o : Host.Outcome State Fault Refusal) : Prop :=
  Leaves (fun t => t.irqStatus = s.irqStatus) o

theorem sendStart_irqStatus (i : Engine) (a l : Word) (cb : Callback) (s : State) :
    (sendStart i a l cb s).state.irqStatus = s.irqStatus := by
  unfold sendStart
  dsimp only
  split
  · split <;> simp [Flow.state, sendAccepted]
  · simp [Flow.state, sendAccepted]

/-- No command touches the register. -/
theorem exec_keepsStatus (c : Instr) (s : State) : KeepsStatus s (exec c s) := by
  cases c with
  | init ch over8 =>
    show KeepsStatus s (execInit ch over8 s)
    unfold execInit
    repeat' split
    all_goals rfl
  | submitSend ch hostcb =>
    show KeepsStatus s (execSubmitSend ch hostcb s)
    unfold execSubmitSend
    split
    · rfl
    split
    · rfl
    · exact sendStart_irqStatus ..
  | submitRecv ch hostcb =>
    show KeepsStatus s (execSubmitRecv ch hostcb s)
    unfold execSubmitRecv
    repeat' split
    all_goals rfl
  | sendByte ch data =>
    show KeepsStatus s (execSendByte ch data s)
    unfold execSendByte
    repeat' split
    all_goals rfl
  | getByte ch =>
    show KeepsStatus s (execGetByte ch s)
    unfold execGetByte
    repeat' split
    all_goals rfl
  | framerStart ch =>
    show KeepsStatus s (execFramerStart ch s)
    unfold execFramerStart
    repeat' split
    all_goals rfl
  | sendFrame ch =>
    show KeepsStatus s (execSendFrame ch s)
    unfold execSendFrame
    repeat' split
    all_goals rfl

theorem pollStep_keepsStatus (s : State) : KeepsStatus s (pollStep s) := by
  unfold pollStep
  split
  · trivial
  · unfold pollSendByte
    repeat' split
    all_goals rfl
  · unfold pollGetByte
    repeat' split
    all_goals rfl
  · unfold pollSendFrame frameBytePushed
    repeat' split
    all_goals trivial

theorem lineTxStep_keepsStatus (i : Engine) (s : State) : KeepsStatus s (lineTxStep i s) := by
  unfold lineTxStep
  repeat' split
  all_goals trivial

theorem lineRxStep_keepsStatus (i : Engine) (b : Byte) (s : State) : KeepsStatus s (lineRxStep i b s) := by
  unfold lineRxStep lineRx
  repeat' split
  all_goals trivial

theorem writeReg_irqStatus {r : Reg} (hr : r ≠ .irqStatus) (v : Word) (s : State) :
    (writeReg r v s).irqStatus = s.irqStatus := by
  cases r
  case irqStatus => exact absurd rfl hr
  all_goals rfl

/-! ### Every step -/

/-- What a step leaves in `IRQ_STATUS` (10_state.md R29, 20_memory.md R69). -/
inductive StatusEffect (s : State) : Action → Word → Prop
  | kept (a : Action) : StatusEffect s a s.irqStatus
  | served (i : Engine) (irq : Word) (h : ∀ b, s.irqStatus.getLsbD b = true → irq.getLsbD b = true) :
    StatusEffect s (.svc i) irq
  | acknowledged (v : Word) : StatusEffect s (.host (.regWrite .w32 0x018#10 v)) (s.irqStatus &&& ~~~v)

theorem StatusEffect.of_eq {a : Action} {irq : Word} (h : irq = s.irqStatus) : StatusEffect s a irq := h ▸ .kept a

theorem Leaves.mono {P Q : State → Prop} {o : Host.Outcome State Fault Refusal} (h : Leaves P o)
    (hpq : ∀ t, P t → Q t) : Leaves Q o := by
  cases o with
  | next t => exact hpq t h
  | fault f => trivial
  | refused r => trivial

theorem KeepsStatus.effect {o : Host.Outcome State Fault Refusal} (h : KeepsStatus s o) (a : Action) :
    Leaves (fun t => StatusEffect s a t.irqStatus) o :=
  h.mono fun _ => .of_eq

/-- `IRQ_STATUS` is at no other offset (10_state.md R22, R23). -/
theorem off_of_regAt_irqStatus {p : Params} {off : Nat} (h : regAt p off = .irqStatus) : off = 0x018 := by
  unfold regAt at h
  split at h
  · unfold globalReg at h
    split at h <;> cases h
    rfl
  split at h
  · split at h
    · unfold channelReg at h
      split at h <;> cases h
    · cases h
  · cases h

theorem regWrite_statusEffect (w : Width) (off : BitVec 10) (v : Word) (s : State) :
    Leaves (fun t => StatusEffect s (.host (.regWrite w off v)) t.irqStatus) (regWrite w off v s) := by
  unfold regWrite
  split
  · rename_i hok
    have hw : w = .w32 := of_decide_eq_true (Bool.and_eq_true_iff.mp hok).1
    split
    · refine KeepsStatus.effect ?_ _
      unfold command
      split
      · exact exec_keepsStatus _ s
      · rfl
    · by_cases hreg : regAt s.par off.toNat = .irqStatus
      · have hoff : off = 0x018#10 := BitVec.eq_of_toNat_eq (off_of_regAt_irqStatus hreg)
        rw [hreg, hw, hoff]
        exact .acknowledged v
      · exact .of_eq (writeReg_irqStatus hreg v s)
  · exact .kept _

theorem hostStep_statusEffect (st : HostStmt) (s : State) :
    Leaves (fun t => StatusEffect s (.host st) t.irqStatus) (hostStep st s) := by
  unfold hostStep
  split
  · cases st with
    | regRead w off =>
      refine .of_eq ?_
      unfold regRead
      split <;> rfl
    | regWrite w off v => exact regWrite_statusEffect w off v s
    | memRead a =>
      refine KeepsStatus.effect (o := hostMemRead a s) ?_ _
      unfold hostMemRead
      repeat' split
      all_goals trivial
    | memWrite a b =>
      refine KeepsStatus.effect (o := hostMemWrite a b s) ?_ _
      unfold hostMemWrite
      repeat' split
      all_goals trivial
  · trivial

theorem act_statusEffect {a : Action} (ha : a ≠ .reset) (s : State) :
    Leaves (fun t => StatusEffect s a t.irqStatus) (act a s) := by
  cases a with
  | host st => exact hostStep_statusEffect st s
  | poll => exact (pollStep_keepsStatus s).effect _
  | svc i =>
    show Leaves _ (seqStep i s)
    unfold seqStep
    split
    · exact .served i _ (OnlyAdds.serve i s).irqStatus
    · trivial
  | lineTx i => exact (lineTxStep_keepsStatus i s).effect _
  | lineRx i b => exact (lineRxStep_keepsStatus i b s).effect _
  | reset => exact absurd rfl ha

theorem getLsbD_and_not (x v : Word) (b : Nat) : (x &&& ~~~v).getLsbD b = (x.getLsbD b && !v.getLsbD b) := by
  by_cases hb : b < 32
  · simp [hb]
  · simp [BitVec.getLsbD_of_ge _ _ (Nat.le_of_not_lt hb)]

/-- A step taken is its action, after the agenda has moved on. -/
theorem Takes.act {s t : State} {a : Action} (h : Takes s a t) : ∃ rest, act a (s.setAgenda rest) = .next t := by
  obtain ⟨rest, hagenda, hstep⟩ := h
  exact ⟨rest, (step_of_agenda hagenda).symm.trans hstep⟩

/-- Settles O54: of the effects only `served` sets a bit, and only `acknowledged` clears one, where it writes 1. -/
theorem statusBitsAreSetBySeqAndClearedByHost : Obligations.StatusBitsAreSetBySeqAndClearedByHost := by
  intro s t a b htakes ha
  obtain ⟨rest, hact⟩ := htakes.act
  have heffect := (act_statusEffect ha (s.setAgenda rest)).of_next hact
  generalize t.irqStatus = irq at heffect ⊢
  cases heffect with
  | kept => exact ⟨fun h0 h1 => absurd (h0.symm.trans h1) nofun, fun h1 h0 => absurd (h0.symm.trans h1) nofun⟩
  | served i _ h => exact ⟨fun _ _ => ⟨i, rfl⟩, fun h1 h0 => absurd (h0.symm.trans (h b h1)) nofun⟩
  | acknowledged v =>
    rw [setAgenda_irqStatus, getLsbD_and_not]
    exact ⟨fun h0 h1 => by simp [h0] at h1, fun h1 h0 => ⟨v, rfl, by simpa [h1] using h0⟩⟩

end Sys2Proof.Machine
end

section
/-! The memory map of the HOST (20_memory.md R60 to R70): register accesses, ownership, and what a refused or admitted
access of system memory does. -/

namespace Sys2Proof.Machine

variable {s : State}

/-! ### Faults and channels -/

theorem records_raise (f : ModelFault) (s : State) : Records f s (raise f s) := by
  intro g
  rw [raise_faults]
  split
  · rename_i hmem
    exact ⟨.inl, fun h => h.elim id (· ▸ hmem)⟩
  · simp

theorem onlyFaults_raise (f : ModelFault) (s : State) : OnlyFaults f s (raise f s) := ⟨rfl, records_raise f s⟩

theorem otherChannels_updChan (i : Engine) (f : Channel → Channel) (s : State) : OtherChannels i s (s.updChan i f) :=
  fun _ hj => chan_updChan_ne s f hj

/-! ### SUBMIT_SEND of a refused byte -/

/-- The operands that pass the submits' validation (41_transfer_engine.md R120); `validate_ok` is the converse. -/
theorem validate_eq_ok {p : Params} {ch : Nat} {addr len : Word} {i : Engine} (hi : chanMap p ch = some i)
    (haddr : addr ≠ 0#32) (hlen : len ≠ 0#32) (hfit : addr.toNat + len.toNat ≤ 2 ^ 32) :
    validate p ch addr len = .ok i := by
  have hstays : leavesMemory addr.toNat len.toNat = false := decide_eq_false (Nat.not_lt.mpr hfit)
  simp [validate, haddr, hi, hlen, hstays]

/-- A transmit descriptor populated and the transmitter enabled: what SUBMIT_SEND does before it reads
(41_transfer_engine.md R121). -/
def sendPopulated (i : Engine) (addr len : Word) (cb : Callback) (s : State) : State :=
  (s.updTxd i fun _ => submitted addr len cb).updCr i fun c => { c with te := true }

theorem sendPopulated_eq (i : Engine) (addr len : Word) (cb : Callback) (s : State) :
    sendPopulated i addr len cb s =
      s.updChan i fun c => { c with cr := { c.cr with te := true }, txd := submitted addr len cb } := by
  rw [sendPopulated, updTxd_eq, updCr_eq, updChan_updChan]

/-- With room in the FIFO and the first byte refused, SUBMIT_SEND ends where it reads (20_memory.md R66). -/
theorem sendStart_refused {i : Engine} {addr : Word} (len : Word) (cb : Callback) (hroom : txe s i = true)
    (hrefused : readAdmitted s.par addr.toNat = false) :
    sendStart i addr len cb s = .stop (raise (.busError addr.toNat) (sendPopulated i addr len cb s)) := by
  have htxe : txe (sendPopulated i addr len cb s) i = true := by simpa [sendPopulated_eq, txe] using hroom
  have hread : memRead addr.toNat (sendPopulated i addr len cb s) = .error (.busError addr.toNat) :=
    memRead_error.mpr ⟨hrefused, rfl⟩
  unfold sendPopulated at htxe hread ⊢
  simp only [sendStart, htxe, hread, if_true]

/-- Settles O15: the command passes its checks and stops at the read, with the descriptor populated. -/
theorem submitSendOfARefusedByteFaults : Obligations.SubmitSendOfARefusedByteFaults := by
  intro s ch hostcb i hi haddr hlen hfit hready hroom hrefused
  have hexec : exec (.submitSend ch hostcb) s =
      .next (raise (.busError s.arg0.toNat) (sendPopulated i s.arg0 s.arg1 (hostCallback hostcb) s)) := by
    simp [exec, execSubmitSend, validate_eq_ok hi haddr hlen hfit, hready,
      sendStart_refused s.arg1 (hostCallback hostcb) (decide_eq_true hroom) hrefused, Flow.toStep, Flow.state]
  rw [sendPopulated_eq] at hexec
  refine ⟨_, hexec, records_raise _ _, rfl, fun j hj => ?_, ?_⟩
  · rw [raise_chan, chan_updChan_ne _ _ hj]
  · rw [raise_chan, chan_updChan_self]
    rfl

/-! ### Register accesses -/

theorem act_host_of_idle (h : s.cmdState = .idle) (st : HostStmt) : act (.host st) s = hostStmt st s := if_pos h

theorem regAccessOk_iff {w : Width} {off : BitVec 10} : regAccessOk w off = true ↔ w = .w32 ∧ off.toNat % 4 = 0 := by
  simp [regAccessOk]

/-- An aligned read of a word (20_memory.md R70). -/
theorem regRead_aligned {off : BitVec 10} (h : off.toNat % 4 = 0) (s : State) :
    regRead .w32 off s = s.setHostData (readReg (regAt s.par off.toNat) s) :=
  if_pos (regAccessOk_iff.mpr ⟨rfl, h⟩)

/-- Any other access is a bus error at its address (20_memory.md R63). -/
theorem regRead_improper {w : Width} {off : BitVec 10} (h : ¬ regAccessOk w off = true) (s : State) :
    regRead w off s = raise (.busError (s.par.base.toNat + off.toNat)) s := if_neg h

theorem regWrite_improper {w : Width} {off : BitVec 10} (h : ¬ regAccessOk w off = true) (v : Word) (s : State) :
    regWrite w off v s = .next (raise (.busError (s.par.base.toNat + off.toNat)) s) := if_neg h

/-- An aligned write of a word to a register other than `CMD` (20_memory.md R69). -/
theorem regWrite_aligned {off : BitVec 10} (h : off.toNat % 4 = 0) (hcmd : regAt s.par off.toNat ≠ .cmd) (v : Word) :
    regWrite .w32 off v s = .next (writeReg (regAt s.par off.toNat) v s) := by
  unfold regWrite
  rw [if_pos (regAccessOk_iff.mpr ⟨rfl, h⟩)]
  split
  · contradiction
  · rfl

/-- No register shows what the HOST holds. -/
theorem readReg_setHostData (r : Reg) (v : Word) (s : State) : readReg r (s.setHostData v) = readReg r s := by
  cases r <;> rfl

/-- Settles O43: a read changes only what the HOST holds, which no register shows. -/
theorem registerReadsAreIdempotent : Obligations.RegisterReadsAreIdempotent := by
  intro s off hidle
  constructor
  · intro haligned
    have hread : ∀ u : State, u.cmdState = .idle → act (.host (.regRead .w32 off)) u =
        .next (u.setHostData (readReg (regAt u.par off.toNat) u)) := fun u hu => by
      rw [act_host_of_idle hu, hostStmt, regRead_aligned haligned]
    refine ⟨_, hread s hidle, rfl, (hread _ ?_).trans ?_⟩
    · exact hidle
    · rw [readReg_setHostData, setHostData_par]
      rfl
  · intro w v himproper
    have hok : ¬ regAccessOk w off = true := by
      rw [regAccessOk_iff, not_and_or]
      exact himproper
    refine ⟨⟨_, ?_, onlyFaults_raise _ s⟩, _, ?_, onlyFaults_raise _ s⟩
    · rw [act_host_of_idle hidle, hostStmt, regRead_improper hok]
    · rw [act_host_of_idle hidle, hostStmt, regWrite_improper hok]

/-- A write to a register that the HOST cannot write is ignored (20_memory.md R69). -/
theorem writeReg_ignored {r : Reg} (hsr : ∀ i, r ≠ .sr i) (h0 : r ≠ .arg0) (h1 : r ≠ .arg1) (h2 : r ≠ .arg2)
    (hstatus : r ≠ .irqStatus) (henable : r ≠ .irqEnable) (v : Word) (s : State) : writeReg r v s = s := by
  cases r
  case sr i => exact absurd rfl (hsr i)
  case arg0 => exact absurd rfl h0
  case arg1 => exact absurd rfl h1
  case arg2 => exact absurd rfl h2
  case irqStatus => exact absurd rfl hstatus
  case irqEnable => exact absurd rfl henable
  all_goals rfl

/-- Settles O44: an aligned write is `writeReg` at the register of its offset. -/
theorem registerWritesTakeTheirEffect : Obligations.RegisterWritesTakeTheirEffect := by
  intro s v hidle
  have hwrite : ∀ {off : BitVec 10}, off.toNat % 4 = 0 → regAt s.par off.toNat ≠ .cmd →
      act (.host (.regWrite .w32 off v)) s = .next (writeReg (regAt s.par off.toNat) v s) := fun haligned hcmd =>
    (act_host_of_idle hidle _).trans (regWrite_aligned haligned hcmd v)
  refine ⟨hwrite (off := 0x004#10) rfl nofun, hwrite (off := 0x008#10) rfl nofun, hwrite (off := 0x00C#10) rfl nofun,
    ⟨_, hwrite (off := 0x01C#10) rfl nofun, rfl, fun b hb => ?enable⟩,
    ⟨_, hwrite (off := 0x018#10) rfl nofun, rfl, fun b _ => getLsbD_and_not s.irqStatus v b⟩,
    fun off haligned => ⟨fun i hsr => ?sr, fun hsr hcmd h0 h1 h2 hstatus henable => ?ignored⟩⟩
  case enable =>
    show (v &&& irqMask s.par).getLsbD b = _
    rw [BitVec.getLsbD_and, getLsbD_irqMask _ hb]
  case sr =>
    have hclear := hwrite haligned (hsr ▸ nofun)
    rw [hsr] at hclear
    exact ⟨_, hclear, otherChannels_updChan i _ s, rfl, chan_updChan_self s i _⟩
  case ignored => rw [hwrite haligned hcmd, writeReg_ignored hsr h0 h1 h2 hstatus henable]

/-! ### Ownership -/

theorem inRange_iff {base size a : Nat} : inRange base size a = true ↔ base ≤ a ∧ a < base + size := decide_eq_true_iff

theorem owns_iff {d : Descriptor} {a : Nat} :
    d.owns a = true ↔ d.state = .busy ∧ d.addr.toNat ≤ a ∧ a < d.addr.toNat + d.len.toNat := by
  simp [Descriptor.owns, inRange_iff]

theorem framerOwns_iff {a : Nat} :
    framerOwns s a = true ↔ s.fr.active = true ∧
      ((s.fr.hdrAddr.toNat ≤ a ∧ a < s.fr.hdrAddr.toNat + s.par.hdrLen) ∨
        (s.fr.payAddr.toNat ≤ a ∧ a < s.fr.payAddr.toNat + s.fr.payCap.toNat)) := by
  simp [framerOwns, inRange_iff]

theorem anyChan_iff {q : Channel → Bool} :
    s.anyChan q = true ↔ ∃ j : Engine, j.val < s.par.numChannels ∧ q (s.chan j) = true := by
  simp [State.anyChan, State.hasChan]

theorem ownedForWrite_iff {a : Nat} :
    ownedForWrite s a = true ↔
      (∃ j : Engine, j.val < s.par.numChannels ∧
        ((s.chan j).txd.owns a = true ∨ (s.chan j).rxd.owns a = true)) ∨ framerOwns s a = true := by
  simp [ownedForWrite, anyChan_iff]

theorem ownedForRead_iff {a : Nat} :
    ownedForRead s a = true ↔
      (∃ j : Engine, j.val < s.par.numChannels ∧ (s.chan j).rxd.owns a = true) ∨ framerOwns s a = true := by
  simp [ownedForRead, anyChan_iff]

/-! ### HOST loads and stores outside the window -/

section
variable {a : Word} (hwin : inWindow s.par a.toNat = false)
include hwin

theorem hostMemRead_owned (h : ownedForRead s a.toNat = true) :
    hostMemRead a s = .next (raise (.ownershipViolation a.toNat) s) := by
  simp [hostMemRead, hwin, h]

theorem hostMemRead_free (h : ownedForRead s a.toNat = false) (hadm : refusesRead s.par a.toNat = false) :
    hostMemRead a s = .next (s.setHostData ((s.mem.read a.toNat).setWidth 32)) := by
  simp [hostMemRead, hwin, h, hadm]

theorem hostMemWrite_owned (b : Byte) (h : ownedForWrite s a.toNat = true) :
    hostMemWrite a b s = .next (raise (.ownershipViolation a.toNat) s) := by
  simp [hostMemWrite, hwin, h]

theorem hostMemWrite_free (b : Byte) (h : ownedForWrite s a.toNat = false) (hadm : refusesWrite s.par a.toNat = false) :
    hostMemWrite a b s = .next (s.setMem (s.mem.write a.toNat b)) := by
  simp [hostMemWrite, hwin, h, hadm]

end

/-- Settles O45: the buffers named are those of `ownedForWrite` and `ownedForRead`, and a byte in none is stored or loaded
as memory has it. -/
theorem ownershipBreachesAreRecorded : Obligations.OwnershipBreachesAreRecorded := by
  intro s i a b hidle hi hwin inTx inRx inFr
  refine ⟨fun hbreach => ?store, fun hbreach => ?load, fun hrx hfr hadm => ?loaded, fun hwf hchan hfr hadm => ?stored⟩
  case store =>
    have howned : ownedForWrite s a.toNat = true := by
      rw [ownedForWrite_iff]
      rcases hbreach with htx | hrx | hfr
      · exact .inl ⟨i, hi, .inl (owns_iff.mpr htx)⟩
      · exact .inl ⟨i, hi, .inr (owns_iff.mpr hrx)⟩
      · exact .inr (framerOwns_iff.mpr hfr)
    exact ⟨_, (act_host_of_idle hidle _).trans (hostMemWrite_owned hwin b howned), onlyFaults_raise _ s⟩
  case load =>
    have howned : ownedForRead s a.toNat = true := by
      rw [ownedForRead_iff]
      rcases hbreach with hrx | hfr
      · exact .inl ⟨i, hi, owns_iff.mpr hrx⟩
      · exact .inr (framerOwns_iff.mpr hfr)
    exact ⟨_, (act_host_of_idle hidle _).trans (hostMemRead_owned hwin howned), onlyFaults_raise _ s⟩
  case loaded =>
    have hfree : ownedForRead s a.toNat = false := by
      rw [← Bool.not_eq_true, ownedForRead_iff]
      rintro (⟨j, hj, h⟩ | h)
      · simp [hrx j hj] at h
      · simp [hfr] at h
    exact (act_host_of_idle hidle _).trans (hostMemRead_free hwin hfree hadm)
  case stored =>
    have hfree : ownedForWrite s a.toNat = false := by
      rw [← Bool.not_eq_true, ownedForWrite_iff]
      rintro (⟨j, hj, h⟩ | h)
      · simp [hchan j hj] at h
      · simp [hfr] at h
    exact ⟨_, (act_host_of_idle hidle _).trans (hostMemWrite_free hwin b hfree hadm), rfl, Memory.read_write hwf.1 _ b⟩

end Sys2Proof.Machine
end

section
/-! Who writes system memory (20_memory.md R60, R64): a HOST store, and the receive branch of a service invocation at its
cursor. Every other step leaves the memory as it is. -/

namespace Sys2Proof.Machine

variable {s : State}

/-! ### Commands, polls and the lines -/

/-- What a command's first step never writes, even where it raises (`CommandFrame`, Safety.lean, is for one that does
not). -/
structure CommandKeeps (s t : State) : Prop where
  par : t.par = s.par
  mem : t.mem = s.mem
  arg0 : t.arg0 = s.arg0
  arg1 : t.arg1 = s.arg1
  arg2 : t.arg2 = s.arg2
  rdata : t.rdata = s.rdata
  irqStatus : t.irqStatus = s.irqStatus
  irqEnable : t.irqEnable = s.irqEnable
  hostData : t.hostData = s.hostData
  agenda : t.agenda = s.agenda

theorem sendStart_keeps (i : Engine) (addr len : Word) (cb : Callback) (s : State) :
    CommandKeeps s (sendStart i addr len cb s).state := by
  unfold sendStart
  dsimp only
  split
  · split <;> constructor <;> simp [Flow.state, sendAccepted]
  · constructor <;> simp [Flow.state, sendAccepted]

theorem exec_keeps (c : Instr) (s : State) : Leaves (CommandKeeps s) (exec c s) := by
  unfold exec execInit execSubmitSend execSubmitRecv execSendByte execGetByte execFramerStart execSendFrame
  cases c
  case submitSend ch hostcb =>
    dsimp only
    split
    · constructor <;> rfl
    split
    · constructor <;> rfl
    · exact sendStart_keeps ..
  all_goals
    dsimp only
    repeat' split
    all_goals constructor <;> rfl

/-- The outcome leaves system memory as it is in `s`. -/
abbrev KeepsMemory (s : State) (o : Host.Outcome State Fault Refusal) : Prop := Leaves (fun t => t.mem = s.mem) o

theorem command_keepsMemory (w : Word) (s : State) : KeepsMemory s (command w s) := by
  unfold command
  split
  · exact (exec_keeps _ s).mono fun _ h => h.mem
  · rfl

theorem pollStep_keepsMemory (s : State) : KeepsMemory s (pollStep s) := by
  unfold pollStep pollSendByte pollGetByte pollSendFrame frameBytePushed
  repeat' split
  all_goals trivial

theorem lineTxStep_keepsMemory (i : Engine) (s : State) : KeepsMemory s (lineTxStep i s) := by
  unfold lineTxStep
  repeat' split
  all_goals trivial

theorem lineRxStep_keepsMemory (i : Engine) (b : Byte) (s : State) : KeepsMemory s (lineRxStep i b s) := by
  unfold lineRxStep lineRx
  repeat' split
  all_goals trivial

/-! ### The service invocation -/

theorem dispatch_mem (id : Word) (p : List Byte) (s : State) : (dispatch id p s).mem = s.mem := by
  unfold dispatch
  repeat' split
  all_goals rfl

theorem headerParsed_mem (i : Engine) (h : List Byte) (s : State) : (headerParsed i h s).mem = s.mem := by
  unfold headerParsed headerAccepted
  dsimp only
  split
  · rfl
  split
  · rfl
  split
  · exact dispatch_mem ..
  · rfl

theorem framerOnRx_mem (i : Engine) (s : State) : (framerOnRx i s).state.mem = s.mem := by
  unfold framerOnRx headerDone payloadDone
  split <;> split
  · rfl
  · exact headerParsed_mem ..
  · rfl
  · exact dispatch_mem ..

theorem callback_mem (i : Engine) (bit : Nat) (cb : Callback) (s : State) : (callback i bit cb s).state.mem = s.mem := by
  cases cb
  case framer => exact framerOnRx_mem i s
  all_goals rfl

theorem rxAdvance_mem (i : Engine) (s : State) : (rxAdvance i s).state.mem = s.mem := by
  unfold rxAdvance
  dsimp only
  split
  · exact callback_mem ..
  · rfl

/-- What the receive branch of channel `i` can leave in memory: nothing new, or a byte at the armed cursor
(41_transfer_engine.md R127). -/
inductive ReceiveStores (s : State) (i : Engine) : Memory → Prop
  | nothing : ReceiveStores s i s.mem
  | byte (b : Byte) (source : (s.chan i).cr.rxneie = true) :
    ReceiveStores s i (s.mem.write (s.chan i).rxd.cursorAddr b)

theorem rxBranch_stores (i : Engine) (s : State) : ReceiveStores s i (rxBranch i s).state.mem := by
  unfold rxBranch
  split
  · exact .nothing
  rename_i b _ _
  split
  · rename_i source
    split
    · rcases memWrite_cases (s.chan i).rxd.cursorAddr b (rxDrop i s) with ⟨-, hwrite⟩ | ⟨-, hwrite⟩
      · rw [hwrite]
        exact (rxAdvance_mem i _).symm ▸ .byte b source
      · rw [hwrite]
        exact .nothing
    · exact .nothing
  · exact .nothing

/-- The transmit branch leaves the receive direction as it is (41_transfer_engine.md R126). -/
theorem TransmitLeaves.receive {i : Engine} {c : Channel} {irq : Word} (h : TransmitLeaves i s c irq) :
    c.rxd = (s.chan i).rxd ∧ c.cr.rxneie = (s.chan i).cr.rxneie := by
  cases h <;> exact ⟨rfl, rfl⟩

/-- No transmit completion runs the parser (`hcb`), so the receive branch finds its descriptor as the invocation did. -/
theorem serve_stores (i : Engine) (hcb : (s.chan i).txd.cb ≠ .framer) : ReceiveStores s i (serve i s).state.mem := by
  unfold serve
  rcases txBranch_cases i s hcb with ⟨c, irq, hleaves⟩ | ⟨-, -, -, -, hstop⟩
  · rw [txBranch_leaves hleaves]
    obtain ⟨hrxd, hsource⟩ := hleaves.receive
    have hchan : State.chan { s.updChan i (fun _ => c) with irqStatus := irq } i = c := chan_updChan_self s i fun _ => c
    have hrx := rxBranch_stores i { s.updChan i (fun _ => c) with irqStatus := irq }
    show ReceiveStores s i (rxBranch i _).state.mem
    generalize (rxBranch i _).state.mem = m at hrx ⊢
    cases hrx with
    | nothing => exact .nothing
    | byte b source =>
      rw [hchan] at source ⊢
      rw [hrxd]
      exact .byte b (hsource ▸ source)
  · rw [hstop]
    exact .nothing

/-! ### Every step -/

/-- What a step leaves in system memory. -/
inductive MemoryEffect (s : State) : Action → Memory → Prop
  | kept (a : Action) : MemoryEffect s a s.mem
  | stored (y : Word) (b : Byte) : MemoryEffect s (.host (.memWrite y b)) (s.mem.write y.toNat b)
  | received (i : Engine) (m : Memory) (h : ReceiveStores s i m) : MemoryEffect s (.svc i) m

theorem KeepsMemory.effect {o : Host.Outcome State Fault Refusal} (h : KeepsMemory s o) (a : Action) :
    Leaves (fun t => MemoryEffect s a t.mem) o :=
  h.mono fun _ ht => ht ▸ .kept a

theorem writeReg_mem (r : Reg) (v : Word) (s : State) : (writeReg r v s).mem = s.mem := by
  cases r <;> rfl

theorem hostStep_memoryEffect (st : HostStmt) (s : State) :
    Leaves (fun t => MemoryEffect s (.host st) t.mem) (hostStep st s) := by
  unfold hostStep
  split
  · cases st with
    | regRead w off =>
      refine KeepsMemory.effect (o := .next (regRead w off s)) ?_ _
      unfold regRead
      split <;> rfl
    | regWrite w off v =>
      refine KeepsMemory.effect (o := regWrite w off v s) ?_ _
      unfold regWrite
      split
      · split
        · exact command_keepsMemory v s
        · exact writeReg_mem _ v s
      · rfl
    | memRead a =>
      refine KeepsMemory.effect (o := hostMemRead a s) ?_ _
      unfold hostMemRead
      repeat' split
      all_goals trivial
    | memWrite a b =>
      show Leaves _ (hostMemWrite a b s)
      unfold hostMemWrite
      split
      · exact .kept _
      split
      · exact .kept _
      split
      · trivial
      · exact .stored a b
  · trivial

theorem act_memoryEffect (hcb : ∀ i, (s.chan i).txd.cb ≠ .framer) (a : Action) :
    Leaves (fun t => MemoryEffect s a t.mem) (act a s) := by
  cases a with
  | host st => exact hostStep_memoryEffect st s
  | poll => exact (pollStep_keepsMemory s).effect _
  | svc i =>
    show Leaves _ (seqStep i s)
    unfold seqStep
    split
    · exact .received i _ (serve_stores i (hcb i))
    · trivial
  | lineTx i => exact (lineTxStep_keepsMemory i s).effect _
  | lineRx i b => exact (lineRxStep_keepsMemory i b s).effect _
  | reset => exact .kept _

/-- A byte that a write changes is the one written. -/
theorem Memory.eq_of_read_write_ne {m : Memory} (hm : m.wf) {a x : Nat} {b : Byte}
    (h : (m.write a b).read x ≠ m.read x) : x = a :=
  by_contra fun hx => h (Memory.read_write_other hm b hx)

/-- Settles O55: a step writes at most one byte, and `MemoryEffect` says whose and where. -/
theorem onlyStoresAndReceivesChangeMemory : Obligations.OnlyStoresAndReceivesChangeMemory := by
  intro s t a x hinv htakes hchanged
  obtain ⟨rest, hact⟩ := htakes.act
  have hcb : ∀ i, (s.chan i).txd.cb ≠ .framer := fun i => (hinv.bounded.channels i).txCallback
  have heffect := (act_memoryEffect (s := s.setAgenda rest) hcb a).of_next hact
  generalize t.mem = m at heffect hchanged
  cases heffect with
  | kept => exact absurd rfl hchanged
  | stored y b => exact .inl ⟨y, b, rfl, Memory.eq_of_read_write_ne hinv.bounded.memory hchanged⟩
  | received i _ h =>
    cases h with
    | nothing => exact absurd rfl hchanged
    | byte b source => exact .inr ⟨i, rfl, source, Memory.eq_of_read_write_ne hinv.bounded.memory hchanged⟩

end Sys2Proof.Machine
end

section
/-! The command word (30_encoding.md R80 to R82, R88, R89): a word is made up again of its fields, the decoder reads the
fields that the encoder writes, and the formats' reserved bits are masks. -/

namespace Sys2Proof

open Sys2Proof.Machine Sys2Proof.Laws

variable {w : Word} {i : Instr}

/-! ### Decoding by rows -/

/-- The decoder's answers that are commands: one row of the opcode map each (30_encoding.md R82, R88). -/
inductive DecodesTo (w : Word) : Instr → Prop
  | init (op : fieldOp w = 0x1#4) (legal : legalR w = true) : DecodesTo w (.init (fieldCh w) (fieldF w))
  | submitSend (op : fieldOp w = 0x2#4) (legal : legalR w = true) : DecodesTo w (.submitSend (fieldCh w) (fieldF w))
  | submitRecv (op : fieldOp w = 0x3#4) (legal : legalR w = true) : DecodesTo w (.submitRecv (fieldCh w) (fieldF w))
  | sendByte (op : fieldOp w = 0x4#4) (legal : legalB w = true) : DecodesTo w (.sendByte (fieldCh w) (fieldData w))
  | getByte (op : fieldOp w = 0x5#4) (legal : legalS w = true) : DecodesTo w (.getByte (fieldCh w))
  | framerStart (op : fieldOp w = 0x6#4) (legal : legalS w = true) : DecodesTo w (.framerStart (fieldCh w))
  | sendFrame (op : fieldOp w = 0x7#4) (legal : legalS w = true) : DecodesTo w (.sendFrame (fieldCh w))

theorem ifLegal_eq_ok {legal : Bool} {c : Instr} : ifLegal legal w c = .ok i ↔ legal = true ∧ c = i := by
  cases legal <;> simp [ifLegal]

theorem decode_eq_ok_iff : decode w = .ok i ↔ DecodesTo w i := by
  constructor
  · intro h
    unfold decode at h
    split at h
    case h_8 => cases h
    all_goals
      rename_i op
      obtain ⟨legal, rfl⟩ := ifLegal_eq_ok.mp h
      constructor <;> assumption
  · intro h
    cases h with
    | init op legal | submitSend op legal | submitRecv op legal | sendByte op legal | getByte op legal
    | framerStart op legal | sendFrame op legal => simp [decode, op, legal, ifLegal]

/-! ### A word is its fields -/

theorem legalB_iff : legalB w = true ↔ w.extractLsb' 24 8 = 0#8 ∧ w.extractLsb' 8 8 = 0#8 := by
  simp [legalB]

theorem fieldCh_lt (w : Word) : fieldCh w < 16 := BitVec.isLt _

@[simp] theorem ofNat_fieldCh (w : Word) : BitVec.ofNat 4 (fieldCh w) = w.extractLsb' 4 4 := BitVec.ofNat_toNat ..

@[simp] theorem flagBit_fieldF (w : Word) : flagBit (fieldF w) = w.extractLsb' 8 1 := by
  ext k hk
  obtain rfl : k = 0 := by omega
  simp [flagBit, fieldF]

/-- Format R leaves no bit out (30_encoding.md R81). -/
theorem encodeR_fields {op : BitVec 4} (hop : fieldOp w = op) (legal : legalR w = true) :
    encodeR op (fieldCh w) (fieldF w) = w := by
  have hzero : 0#23 = w.extractLsb' 9 23 := (beq_iff_eq.mp legal).symm
  rw [encodeR, ← hop, fieldOp, ofNat_fieldCh, flagBit_fieldF, hzero]
  simp only [BitVec.extractLsb'_append_extractLsb'_eq_extractLsb', BitVec.extractLsb'_eq_self]

/-- Format B leaves no bit out (30_encoding.md R81). -/
theorem encodeB_fields {op : BitVec 4} (hop : fieldOp w = op) (legal : legalB w = true) :
    encodeB op (fieldCh w) (fieldData w) = w := by
  obtain ⟨hhigh, hmid⟩ := legalB_iff.mp legal
  have hfields : w.extractLsb' 24 8 ++ fieldData w ++ w.extractLsb' 8 8 ++ w.extractLsb' 4 4 ++ fieldOp w = w := by
    simp only [fieldData, fieldOp, BitVec.extractLsb'_append_extractLsb'_eq_extractLsb', BitVec.extractLsb'_eq_self]
  rwa [hhigh, hmid, ← ofNat_fieldCh, hop] at hfields

/-- Format S leaves no bit out (30_encoding.md R81). -/
theorem encodeS_fields {op : BitVec 4} (hop : fieldOp w = op) (legal : legalS w = true) :
    encodeS op (fieldCh w) = w := by
  have hzero : 0#24 = w.extractLsb' 8 24 := (beq_iff_eq.mp legal).symm
  rw [encodeS, ← hop, fieldOp, ofNat_fieldCh, hzero]
  simp only [BitVec.extractLsb'_append_extractLsb'_eq_extractLsb', BitVec.extractLsb'_eq_self]

theorem DecodesTo.wellFormed (h : DecodesTo w i) : i.wellFormed = true := by
  cases h <;> exact decide_eq_true (fieldCh_lt w)

theorem DecodesTo.encode_eq (h : DecodesTo w i) : encode i = w := by
  cases h with
  | init op legal | submitSend op legal | submitRecv op legal => exact encodeR_fields op legal
  | sendByte op legal => exact encodeB_fields op legal
  | getByte op legal | framerStart op legal | sendFrame op legal => exact encodeS_fields op legal

/-- Settles O2: a command's row fixes the reserved bits, and the other bits are the fields that the encoder writes. -/
theorem encodeOfDecodeIsTheWord : Obligations.EncodeOfDecodeIsTheWord := fun _ _ h =>
  have hrow := decode_eq_ok_iff.mp h
  ⟨hrow.wellFormed, hrow.encode_eq⟩

/-! ### The fields of an encoded command -/

theorem encode_fields (i : Instr) : EncodeFields.Statement i := by
  cases i with
  | init ch over8 => exact EncodeFields.init ch over8
  | submitSend ch hostcb => exact EncodeFields.submitSend ch hostcb
  | submitRecv ch hostcb => exact EncodeFields.submitRecv ch hostcb
  | sendByte ch data => exact EncodeFields.sendByte ch data
  | getByte ch => exact EncodeFields.getByte ch
  | framerStart ch => exact EncodeFields.framerStart ch
  | sendFrame ch => exact EncodeFields.sendFrame ch

/-- The fields above `CH`; `low_field` and `second_field` are the two below. -/
theorem upper_field {n : Nat} (x : BitVec n) (c op : BitVec 4) (k len : Nat) :
    (x ++ c ++ op).extractLsb' (8 + k) len = x.extractLsb' k len := by
  rw [BitVec.extractLsb'_append_eq_of_le (by omega), BitVec.extractLsb'_append_eq_of_le (by omega)]
  congr 1
  omega

@[simp] theorem legalR_encodeR (op : BitVec 4) (ch : Nat) (f : Bool) : legalR (encodeR op ch f) = true :=
  beq_iff_eq.mpr ((upper_field (0#23 ++ flagBit f) _ _ 1 23).trans BitVec.extractLsb'_append_eq_left)

@[simp] theorem fieldF_encodeR (op : BitVec 4) (ch : Nat) (f : Bool) : fieldF (encodeR op ch f) = f := by
  have hflag : (encodeR op ch f).extractLsb' 8 1 = flagBit f :=
    (upper_field (0#23 ++ flagBit f) _ _ 0 1).trans BitVec.extractLsb'_append_eq_right
  rw [fieldF, BitVec.getLsbD_eq_extractLsb', hflag]
  cases f <;> rfl

theorem upper_encodeB (op : BitVec 4) (ch : Nat) (data : Byte) (k len : Nat) :
    (encodeB op ch data).extractLsb' (8 + k) len = (0#8 ++ data ++ 0#8).extractLsb' k len := upper_field ..

@[simp] theorem legalB_encodeB (op : BitVec 4) (ch : Nat) (data : Byte) : legalB (encodeB op ch data) = true :=
  legalB_iff.mpr
    ⟨(upper_encodeB op ch data 16 8).trans
        ((BitVec.extractLsb'_append_eq_of_le (by decide)).trans BitVec.extractLsb'_append_eq_left),
      (upper_encodeB op ch data 0 8).trans BitVec.extractLsb'_append_eq_right⟩

@[simp] theorem fieldData_encodeB (op : BitVec 4) (ch : Nat) (data : Byte) : fieldData (encodeB op ch data) = data :=
  (upper_encodeB op ch data 8 8).trans
    ((BitVec.extractLsb'_append_eq_of_le (by decide)).trans BitVec.extractLsb'_append_eq_right)

@[simp] theorem legalS_encodeS (op : BitVec 4) (ch : Nat) : legalS (encodeS op ch) = true :=
  beq_iff_eq.mpr ((upper_field 0#24 _ _ 0 24).trans BitVec.extractLsb'_eq_self)

theorem decode_encode (h : i.wellFormed = true) : decode (encode i) = .ok i := by
  obtain ⟨hop, hch⟩ := encode_fields i h
  cases i
  all_goals
    simp only [encode, opNumber, Instr.ch] at hop hch
    simp [decode, encode, hop, hch, ifLegal]

/-! ### The bytes of a word -/

theorem tableByte_toNat (w : Word) (k : Nat) : tableByte w.toNat k = w.extractLsb' (8 * k) 8 := by
  simp [tableByte, BitVec.extractLsb', Nat.shiftRight_eq_div_pow]

/-- A register's four bytes, taken and put together again (20_memory.md R62). -/
theorem wordOfBytes_tableBytes (w : Word) :
    wordOfBytes (tableByte w.toNat 0) (tableByte w.toNat 1) (tableByte w.toNat 2) (tableByte w.toNat 3) = w := by
  simp only [wordOfBytes, tableByte_toNat, Nat.reduceMul, BitVec.extractLsb'_append_extractLsb'_eq_extractLsb',
    BitVec.extractLsb'_eq_self]

theorem toNat_mod_word (w : Word) : w.toNat % 2 ^ 32 = w.toNat := Nat.mod_eq_of_lt w.isLt

theorem decodeTableWord_toNat (h : decode w = .ok i) : decodeTableWord 32 w.toNat = some i := by
  simp only [decodeTableWord, tableBytes, toNat_mod_word, decodeBytes, wordOfBytes_tableBytes, h]

/-- Settles O1: the encoder's fields are those the decoder reads, and a word is its four bytes. -/
theorem decodeOfEncodeIsTheInstruction : Obligations.DecodeOfEncodeIsTheInstruction := fun _ h =>
  ⟨decode_encode h, decodeTableWord_toNat (decode_encode h)⟩

end Sys2Proof
end

section
/-! The opcode map (30_encoding.md R82) and the reserved bits (R84) as masks over the word. -/

namespace Sys2Proof

open Sys2Proof.Machine

variable {w : Word} {i : Instr}

/-! ### Fields under a mask -/

/-- A field is zero exactly where the word is zero under the field's mask. -/
theorem extractLsb'_eq_zero_iff (w : Word) (start len : Nat) :
    w.extractLsb' start len = 0#len ↔ w &&& (BitVec.allOnes len).setWidth 32 <<< start = 0#32 := by
  constructor
  · intro h
    ext b hb
    have hfield : b - start < len → w.getLsbD (start + (b - start)) = false := by
      simpa using congrArg (·.getLsbD (b - start)) h
    suffices w[b] = true → start ≤ b → len ≤ b - start by simpa
    intro hw hle
    by_contra hlt
    have hzero := hfield (by omega)
    rw [Nat.add_sub_cancel' hle, BitVec.getLsbD_eq_getElem hb, hw] at hzero
    cases hzero
  · intro h
    ext k hk
    have hmasked : w.getLsbD (start + k) = true → start + k < 32 → k < 32 → len ≤ k := by
      simpa using congrArg (·.getLsbD (start + k)) h
    suffices w.getLsbD (start + k) ≠ true by simpa
    intro hw
    have hlt := BitVec.lt_of_getLsbD hw
    exact absurd (hmasked hw hlt (by omega)) (by omega)

theorem legalR_iff_mask : legalR w = true ↔ w &&& 0xFFFFFE00#32 = 0#32 :=
  beq_iff_eq.trans (extractLsb'_eq_zero_iff w 9 23)

theorem legalS_iff_mask : legalS w = true ↔ w &&& 0xFFFFFF00#32 = 0#32 :=
  beq_iff_eq.trans (extractLsb'_eq_zero_iff w 8 24)

theorem legalB_iff_mask : legalB w = true ↔ w &&& 0xFF00FF00#32 = 0#32 := by
  have hmask : 0xFF00FF00#32 = 0xFF000000#32 ||| 0x0000FF00#32 := rfl
  rw [legalB_iff, hmask, BitVec.and_or_distrib_left, BitVec.or_eq_zero_iff]
  exact and_congr (extractLsb'_eq_zero_iff w 24 8) (extractLsb'_eq_zero_iff w 8 8)

/-- Field `OP` under its mask. -/
theorem and_opMask (w : Word) : w &&& 0xF#32 = (fieldOp w).setWidth 32 := by
  apply BitVec.eq_of_toNat_eq
  have hmod : w.toNat &&& 15 = w.toNat % 16 := Nat.and_two_pow_sub_one_eq_mod w.toNat 4
  suffices w.toNat &&& 15 = w.toNat % 16 % 4294967296 by simpa [fieldOp]
  omega

theorem and_opMask_eq_iff {op : BitVec 4} : w &&& 0xF#32 = op.setWidth 32 ↔ fieldOp w = op := by
  rw [and_opMask]
  refine ⟨fun h => ?_, fun h => h ▸ rfl⟩
  simpa using congrArg (BitVec.setWidth 4) h

/-! ### The rows -/

/-- The match column of the opcode map, 0 for an illegal word (30_encoding.md R82). -/
def rowMatch : CmdOp → Word
  | .illegal => 0x0#32
  | .init => 0x1#32
  | .submitSend => 0x2#32
  | .submitRecv => 0x3#32
  | .sendByte => 0x4#32
  | .getByte => 0x5#32
  | .framerStart => 0x6#32
  | .sendFrame => 0x7#32

/-- The bits that the row's format requires to be 0 (30_encoding.md R81); with `OP` they are the row's mask. -/
def rowReserved : CmdOp → Word
  | .illegal => 0x0#32
  | .init | .submitSend | .submitRecv => 0xFFFFFE00#32
  | .sendByte => 0xFF00FF00#32
  | .getByte | .framerStart | .sendFrame => 0xFFFFFF00#32

/-- A word decodes to a command of the row that has its `OP` and whose reserved bits it leaves 0 (30_encoding.md R84). -/
theorem decodes_to_row_iff {op : CmdOp} (hop : op ≠ .illegal) :
    (∃ i, decode w = .ok i ∧ opOf i = op) ↔ w &&& 0xF#32 = rowMatch op ∧ w &&& rowReserved op = 0#32 := by
  simp only [decode_eq_ok_iff]
  constructor
  · rintro ⟨i, hi, rfl⟩
    cases hi with
    | init op legal | submitSend op legal | submitRecv op legal =>
      exact ⟨and_opMask_eq_iff.mpr op, legalR_iff_mask.mp legal⟩
    | sendByte op legal => exact ⟨and_opMask_eq_iff.mpr op, legalB_iff_mask.mp legal⟩
    | getByte op legal | framerStart op legal | sendFrame op legal =>
      exact ⟨and_opMask_eq_iff.mpr op, legalS_iff_mask.mp legal⟩
  · rintro ⟨hmatch, hreserved⟩
    cases op with
    | illegal => exact absurd rfl hop
    | init => exact ⟨_, .init (and_opMask_eq_iff.mp hmatch) (legalR_iff_mask.mpr hreserved), rfl⟩
    | submitSend => exact ⟨_, .submitSend (and_opMask_eq_iff.mp hmatch) (legalR_iff_mask.mpr hreserved), rfl⟩
    | submitRecv => exact ⟨_, .submitRecv (and_opMask_eq_iff.mp hmatch) (legalR_iff_mask.mpr hreserved), rfl⟩
    | sendByte => exact ⟨_, .sendByte (and_opMask_eq_iff.mp hmatch) (legalB_iff_mask.mpr hreserved), rfl⟩
    | getByte => exact ⟨_, .getByte (and_opMask_eq_iff.mp hmatch) (legalS_iff_mask.mpr hreserved), rfl⟩
    | framerStart => exact ⟨_, .framerStart (and_opMask_eq_iff.mp hmatch) (legalS_iff_mask.mpr hreserved), rfl⟩
    | sendFrame => exact ⟨_, .sendFrame (and_opMask_eq_iff.mp hmatch) (legalS_iff_mask.mpr hreserved), rfl⟩

theorem or_and_absorb (x y : Word) : (x ||| y) &&& x = x := by
  ext k hk
  simpa using .inl

/-- A mask of two parts, of which one holds all of the match. -/
theorem and_or_eq_iff {m a b : Word} (ha : m &&& a = m) (hb : m &&& b = 0#32) :
    w &&& (a ||| b) = m ↔ w &&& a = m ∧ w &&& b = 0#32 := by
  constructor
  · rintro rfl
    rw [BitVec.and_assoc, or_and_absorb] at ha
    rw [BitVec.and_assoc, BitVec.or_comm, or_and_absorb] at hb
    exact ⟨ha, hb⟩
  · rintro ⟨hw, hzero⟩
    rw [BitVec.and_or_distrib_left, hw, hzero, BitVec.or_zero]

theorem selects_row_iff (w : Word) {op : CmdOp} (hop : op ≠ .illegal) :
    w &&& (0xF#32 ||| rowReserved op) = rowMatch op ↔ ∃ i, decode w = .ok i ∧ opOf i = op := by
  rw [decodes_to_row_iff hop]
  exact and_or_eq_iff (by cases op <;> rfl) (by cases op <;> rfl)

/-- A reserved `OP` selects no row (30_encoding.md R85). -/
theorem decode_reservedOpcode (h : w &&& 0xF#32 = 0#32 ∨ 8#32 ≤ w &&& 0xF#32) :
    decode w = .error (.reservedOpcode (fieldOp w)) := by
  rw [and_opMask] at h
  unfold decode
  split
  case h_8 => rfl
  all_goals
    rename_i hop
    exact absurd h (hop ▸ by decide)

/-- Settles O3: each row's mask is `OP` and its format's reserved bits. -/
theorem wordSelectsItsTableRow : Obligations.WordSelectsItsTableRow := by
  refine ⟨fun op m k h => ?_, fun w h => ⟨_, decode_reservedOpcode h⟩⟩
  have hrow : op ≠ .illegal ∧ m = rowMatch op ∧ k = 0xF#32 ||| rowReserved op := by
    simp only [List.mem_cons, Prod.mk.injEq, List.not_mem_nil, or_false] at h
    obtain ⟨rfl, rfl, rfl⟩ | ⟨rfl, rfl, rfl⟩ | ⟨rfl, rfl, rfl⟩ | ⟨rfl, rfl, rfl⟩ | ⟨rfl, rfl, rfl⟩ |
      ⟨rfl, rfl, rfl⟩ | ⟨rfl, rfl, rfl⟩ := h
    all_goals exact ⟨nofun, rfl, rfl⟩
  obtain ⟨hop, rfl, rfl⟩ := hrow
  exact fun w => selects_row_iff w hop

/-- Settles O4: each word is closed, so the decoder is evaluated. -/
theorem vectorWordsDecode : Obligations.VectorWordsDecode := by
  unfold Obligations.VectorWordsDecode
  decide

end Sys2Proof
end

section
/-! The HOST's write of a command word to `CMD` (30_encoding.md R84, R88), and what the commands it starts leave as it was
(R83, R86). -/

namespace Sys2Proof.Machine

variable {s : State} {w : Word}

/-! ### The CMD write -/

theorem opOf_ne_illegal (i : Instr) : opOf i ≠ .illegal := by
  cases i <;> nofun

theorem command_of_ok {i : Instr} (h : decode w = .ok i) (s : State) : command w s = exec i s := by
  simp only [command, h]

theorem command_of_error {e : Illegal} (h : decode w = .error e) (s : State) : command w s = .next (execIllegal s) := by
  simp only [command, h]

/-- `CMD` is at offset 0 for all parameters (10_state.md R22), so a pending write to it runs its word. -/
theorem step_cmdWrite {rest : List Action} (hagenda : s.agenda = cmdWrite w :: rest) (hidle : s.cmdState = .idle) :
    step s = command w { s with agenda := rest } :=
  (step_of_agenda hagenda).trans (act_host_of_idle (s := s.setAgenda rest) hidle _)

theorem tableWord_toNat (w : Word) : tableWord 32 w.toNat = w := by
  simp only [tableWord, toNat_mod_word, wordOfBytes_tableBytes]

/-- Settles O6: the pending write is run as a command, and the placed word is the one that was asked for. -/
theorem stepRunsTheDecodedCommand : Obligations.StepRunsTheDecodedCommand := by
  refine ⟨fun s w rest i hagenda hidle hdecode => ?_, fun s i hwf => ?_⟩
  · rw [step_cmdWrite hagenda hidle, command_of_ok hdecode]
  · have hagenda : (s.withFetchWord 32 (encode i).toNat).agenda = cmdWrite (encode i) :: s.agenda :=
      congrArg (cmdWrite · :: s.agenda) (tableWord_toNat _)
    rw [step_cmdWrite hagenda rfl, command_of_ok (decode_encode hwf)]
    rfl

/-- A word without a row of the opcode map is illegal (30_encoding.md R86). -/
theorem decode_error_of_no_row
    (h : ∀ op, op ≠ .illegal → w &&& 0xF#32 = rowMatch op → w &&& rowReserved op ≠ 0#32) :
    ∃ e, decode w = .error e := by
  cases hdecode : decode w with
  | error e => exact ⟨e, rfl⟩
  | ok i =>
    obtain ⟨hmatch, hreserved⟩ := (decodes_to_row_iff (opOf_ne_illegal i)).mp ⟨i, hdecode, rfl⟩
    exact absurd hreserved (h _ (opOf_ne_illegal i) hmatch)

/-- Settles O5: the word matches a row in no more than `OP`, so it does not decode. -/
theorem illegalWordOnlyReportsInvalidArgument : Obligations.IllegalWordOnlyReportsInvalidArgument := by
  intro s w rest hagenda hidle hclauses
  obtain ⟨e, hillegal⟩ : ∃ e, decode w = .error e := by
    refine decode_error_of_no_row fun op hop hmatch => ?_
    rw [hmatch] at hclauses
    cases op with
    | illegal => exact absurd rfl hop
    | init | submitSend | submitRecv | sendByte | getByte | framerStart | sendFrame =>
      simpa [rowMatch, rowReserved] using hclauses
  exact ⟨_, (step_cmdWrite hagenda hidle).trans (command_of_error hillegal _), rfl⟩

/-! ### Everything a command's step can do -/

/-- The states that a command's step on channel `i` leaves once its checks have passed. -/
inductive Accepted (i : Engine) (s : State) : Instr → State → Prop
  | init (ch : Nat) (over8 : Bool) (d : Nat × Nat) :
    Accepted i s (.init ch over8) (finish .init .ok (s.updChan i (initChannel over8 d)))
  | submitSend (ch : Nat) (hostcb : Bool) :
    Accepted i s (.submitSend ch hostcb) (sendStart i s.arg0 s.arg1 (hostCallback hostcb) s).state
  | submitRecv (ch : Nat) (hostcb : Bool) :
    Accepted i s (.submitRecv ch hostcb)
      (finish .submitRecv .ok (armReceive i s.arg0 s.arg1 (hostCallback hostcb) s))
  | sendByte (ch : Nat) (data : Byte) :
    Accepted i s (.sendByte ch data) ((holdTx i s).setCmdState (.sendByte i data 0))
  | getByte (ch : Nat) : Accepted i s (.getByte ch) ((holdRx i s).setCmdState (.getByte i 0))
  | framerStart (ch : Nat) :
    Accepted i s (.framerStart ch) (finish .framerStart .ok (framerBegin i s.arg0 s.arg1 s.arg2 s))
  | sendFrame (ch : Nat) :
    Accepted i s (.sendFrame ch)
      ((holdTx i s).setCmdState (.sendFrame i (headerEncode s.par s.arg2 s.arg1) s.arg0 s.arg1 0 0))

/-- The outcomes of a command's step: a failing check is reported, or the command is accepted on the channel that its
channel id maps to. -/
inductive CommandOutcome (s : State) (c : Instr) : Host.Outcome State Fault Refusal → Prop
  | reports (code : ResultCode) : CommandOutcome s c (.next (finish (opOf c) code s))
  | accepts {i : Engine} {t : State} (mapped : chanMap s.par c.ch = some i) (effect : Accepted i s c t) :
    CommandOutcome s c (.next t)

/-- Each command runs its checks in turn and is accepted when the last one passes. -/
theorem exec_outcome (c : Instr) (s : State) : CommandOutcome s c (exec c s) := by
  cases c with
  | init ch over8 =>
    show CommandOutcome s _ (execInit ch over8 s)
    unfold execInit
    split
    · exact .reports _
    rename_i i hi
    split
    · exact .reports _
    split
    · exact .reports _
    · exact .accepts hi (.init ..)
  | submitSend ch hostcb =>
    show CommandOutcome s _ (execSubmitSend ch hostcb s)
    unfold execSubmitSend
    split
    · exact .reports _
    rename_i i hvalid
    split
    · exact .reports _
    · exact .accepts (validate_ok hvalid).2.1 (.submitSend ..)
  | submitRecv ch hostcb =>
    show CommandOutcome s _ (execSubmitRecv ch hostcb s)
    unfold execSubmitRecv
    split
    · exact .reports _
    rename_i i hvalid
    split
    · exact .reports _
    · exact .accepts (validate_ok hvalid).2.1 (.submitRecv ..)
  | sendByte ch data =>
    show CommandOutcome s _ (execSendByte ch data s)
    unfold execSendByte
    split
    · exact .reports _
    rename_i i hi
    split
    · exact .reports _
    · exact .accepts hi (.sendByte ..)
  | getByte ch =>
    show CommandOutcome s _ (execGetByte ch s)
    unfold execGetByte
    split
    · exact .reports _
    rename_i i hi
    split
    · exact .reports _
    · exact .accepts hi (.getByte ..)
  | framerStart ch =>
    show CommandOutcome s _ (execFramerStart ch s)
    unfold execFramerStart
    split
    · exact .reports _
    split
    · exact .reports _
    rename_i i hi
    split
    · exact .reports _
    split
    · exact .reports _
    · exact .accepts hi (.framerStart ..)
  | sendFrame ch =>
    show CommandOutcome s _ (execSendFrame ch s)
    unfold execSendFrame
    split
    · exact .reports _
    split
    · exact .reports _
    rename_i i hi
    split
    · exact .reports _
    split
    · exact .reports _
    · exact .accepts hi (.sendFrame ..)

/-- Settles O7: an accepted command and one that reports both have a next state. -/
theorem everyCommandTakesAStep : Obligations.EveryCommandTakesAStep := by
  intro c s
  have houtcome := exec_outcome c s
  generalize exec c s = o at houtcome
  cases houtcome with
  | reports code => exact ⟨_, rfl⟩
  | accepts mapped effect => exact ⟨_, rfl⟩

/-! ### What an accepted command leaves as it was -/

theorem otherChannels_sendStart (i : Engine) (addr len : Word) (cb : Callback) (s : State) :
    OtherChannels i s (sendStart i addr len cb s).state := by
  intro j hj
  unfold sendStart
  dsimp only
  split
  · split <;> simp [Flow.state, sendAccepted, chan_updCr, chan_updTxd, chan_txPush, hj]
  · simp [Flow.state, sendAccepted, chan_updCr, chan_updTxd, hj]

theorem sendStart_fr_cmdState (i : Engine) (addr len : Word) (cb : Callback) (s : State) :
    (sendStart i addr len cb s).state.fr = s.fr ∧ (sendStart i addr len cb s).state.cmdState = s.cmdState := by
  unfold sendStart
  dsimp only
  split
  · split <;> simp [Flow.state, sendAccepted]
  · simp [Flow.state, sendAccepted]

theorem Accepted.otherChannels {i : Engine} {c : Instr} {t : State} (h : Accepted i s c t) : OtherChannels i s t := by
  intro j hj
  cases h with
  | init ch over8 d => exact chan_updChan_ne s _ hj
  | submitSend ch hostcb => exact otherChannels_sendStart _ _ _ _ _ j hj
  | submitRecv ch hostcb => exact (chan_armReceive ..).trans (if_neg hj)
  | sendByte ch data => simp [holdTx, chan_updCr, chan_updTxd, hj]
  | getByte ch => simp [holdRx, chan_updCr, chan_updRxd, hj]
  | framerStart ch => exact (chan_armReceive ..).trans (if_neg hj)
  | sendFrame ch => simp [holdTx, chan_updCr, chan_updTxd, hj]

theorem Accepted.fr {i : Engine} {c : Instr} {t : State} (h : Accepted i s c t) (hc : opOf c ≠ .framerStart) :
    t.fr = s.fr := by
  cases h with
  | submitSend ch hostcb => exact (sendStart_fr_cmdState ..).1
  | framerStart ch => exact absurd rfl hc
  | init | submitRecv | sendByte | getByte | sendFrame => rfl

theorem Accepted.cmdState {i : Engine} {c : Instr} {t : State} (h : Accepted i s c t) (hsend : opOf c ≠ .sendByte)
    (hget : opOf c ≠ .getByte) (hframe : opOf c ≠ .sendFrame) : t.cmdState = s.cmdState := by
  cases h with
  | submitSend ch hostcb => exact (sendStart_fr_cmdState ..).2
  | sendByte ch data => exact absurd rfl hsend
  | getByte ch => exact absurd rfl hget
  | sendFrame ch => exact absurd rfl hframe
  | init | submitRecv | framerStart => rfl

/-- Settles O9: `exec_keeps` for what no command writes; a report writes no channel, `FR` or `CMDSTATE`, and an accepted
command only its own channel's. -/
theorem commandFrameHolds : Obligations.CommandFrameHolds := by
  intro c s t hexec
  have hkeeps : CommandKeeps s t := (exec_keeps c s).of_next hexec
  have houtcome := exec_outcome c s
  rw [hexec] at houtcome
  refine ⟨fun a => hkeeps.mem ▸ rfl, hkeeps.par, hkeeps.arg0, hkeeps.arg1, hkeeps.arg2, hkeeps.rdata, hkeeps.irqStatus,
    hkeeps.irqEnable, hkeeps.hostData, hkeeps.agenda, ?_⟩
  cases houtcome with
  | reports code => exact ⟨fun _ _ => rfl, fun _ => rfl, fun _ _ _ => rfl⟩
  | accepts mapped effect =>
    exact ⟨fun j hj => effect.otherChannels j fun e => hj (e ▸ mapped), effect.fr, effect.cmdState⟩

end Sys2Proof.Machine
end

section
/-! The line side of a channel's FIFOs (40_serial_fifo.md R102 to R105): when a line step is enabled, and what it does to
the FIFO, `OVR` and the history. -/

namespace Sys2Proof.Machine

variable {s t : State} {i : Engine} {b : Byte}

theorem hasChan_iff : s.hasChan i = true ↔ i.val < s.par.numChannels := decide_eq_true_iff

theorem lineTxActive_iff : lineTxActive s i = true ↔ (s.chan i).cr.ue = true ∧ (s.chan i).cr.te = true :=
  Bool.and_eq_true_iff

theorem lineRxActive_iff : lineRxActive s i = true ↔ (s.chan i).cr.ue = true ∧ (s.chan i).cr.re = true :=
  Bool.and_eq_true_iff

theorem rxRoom_iff : rxRoom s i = true ↔ (s.chan i).rxf.length < s.par.rxDepth := decide_eq_true_iff

/-! ### The transmit step -/

/-- A line transmit step needs a channel, the transmit side and a byte, and it sends the oldest one (R103). -/
theorem lineTxStep_eq_next_iff :
    lineTxStep i s = .next t ↔ ∃ b later, (s.chan i).txf = b :: later ∧ i.val < s.par.numChannels ∧
      (s.chan i).cr.ue = true ∧ (s.chan i).cr.te = true ∧ emit (.wireOut i b) (txDrop i s) = t := by
  unfold lineTxStep
  cases htxf : (s.chan i).txf with
  | nil => simp
  | cons b later =>
    dsimp only
    split <;> rename_i henabled <;> rw [Bool.and_eq_true_iff, hasChan_iff, lineTxActive_iff] at henabled
    · simp [henabled]
    · simp only [reduceCtorEq, false_iff]
      rintro ⟨_, _, -, hi, hue, hte, -⟩
      exact henabled ⟨hi, hue, hte⟩

/-- Settles O39: the step and its enabledness are `lineTxStep_eq_next_iff`, and the byte's own effect is `txDrop`'s. -/
theorem lineTransmitSendsTheOldestByte : Obligations.LineTransmitSendsTheOldestByte := by
  intro s i hi
  have hsend : ∀ b later, (s.chan i).txf = b :: later → (s.chan i).cr.ue = true → (s.chan i).cr.te = true →
      act (.lineTx i) s = .next (emit (.wireOut i b) (txDrop i s)) := fun b later htxf hue hte =>
    lineTxStep_eq_next_iff.mpr ⟨b, later, htxf, hi, hue, hte, rfl⟩
  refine ⟨⟨?enabled, ?takes⟩, fun b later htxf hue hte => ⟨_, hsend b later htxf hue hte, ?channel, rfl, ?others⟩⟩
  case enabled =>
    rintro ⟨t, hstep⟩
    obtain ⟨b, later, htxf, -, hue, hte, -⟩ := lineTxStep_eq_next_iff.mp hstep
    exact ⟨hue, hte, htxf ▸ List.cons_ne_nil b later⟩
  case takes =>
    rintro ⟨hue, hte, hne⟩
    obtain ⟨b, later, htxf⟩ := List.exists_cons_of_ne_nil hne
    exact ⟨_, hsend b later htxf hue hte⟩
  case channel => rw [emit_chan, chan_txDrop, if_pos rfl, htxf, List.tail_cons]
  case others => exact fun _ hj => (chan_txDrop ..).trans (if_neg hj)

/-! ### The receive step -/

theorem act_lineRx (hi : i.val < s.par.numChannels) (b : Byte) : act (.lineRx i b) s = .next (lineRx i b s) :=
  if_pos (hasChan_iff.mpr hi)

section
variable (hue : (s.chan i).cr.ue = true) (hre : (s.chan i).cr.re = true)
include hue hre

theorem lineRx_of_room (h : (s.chan i).rxf.length < s.par.rxDepth) (b : Byte) :
    lineRx i b s = emit (.wireIn i b true) (rxPush i b s) := by
  rw [lineRx, if_pos (lineRxActive_iff.mpr ⟨hue, hre⟩), if_pos (rxRoom_iff.mpr h)]

theorem lineRx_of_full (h : s.par.rxDepth ≤ (s.chan i).rxf.length) (b : Byte) :
    lineRx i b s = emit (.wireIn i b false) (s.updChan i fun c => { c with ovr := true }) := by
  rw [lineRx, if_pos (lineRxActive_iff.mpr ⟨hue, hre⟩), if_neg (rxRoom_iff.not.mpr (Nat.not_lt.mpr h))]

end

theorem lineRx_of_off (h : (s.chan i).cr.ue = false ∨ (s.chan i).cr.re = false) (b : Byte) :
    lineRx i b s = emit (.wireIn i b false) s :=
  if_neg fun hactive => by
    obtain ⟨hue, hre⟩ := lineRxActive_iff.mp hactive
    simp [hue, hre] at h

/-- Settles O40: the step is `lineRx`, and its clauses are the branches of `lineRx`. -/
theorem lineReceiveKeepsOrDiscardsTheByte : Obligations.LineReceiveKeepsOrDiscardsTheByte := by
  intro s i b hi
  rw [act_lineRx hi b]
  refine ⟨fun hue hre hroom => ?kept, fun hue hre hfull => ?overrun, fun hoff => ?lost⟩
  case kept =>
    rw [lineRx_of_room hue hre hroom]
    refine ⟨_, rfl, ?_, fun j hj => ?_, rfl⟩
    · rw [emit_chan, chan_rxPush, if_pos rfl]
    · rw [emit_chan, chan_rxPush, if_neg hj]
  case overrun =>
    rw [lineRx_of_full hue hre hfull]
    refine ⟨_, rfl, ?_, fun j hj => ?_, rfl⟩
    · rw [emit_chan, chan_updChan_self]
    · rw [emit_chan, chan_updChan_ne s _ hj]
  case lost =>
    rw [lineRx_of_off hoff]
    rfl

end Sys2Proof.Machine
end

section
/-! What no step but reset turns off: the enables of a channel and the started parser (40_serial_fifo.md R102; 10_state.md
R24, R30). Every operation that writes `CR` sets these bits or leaves them, and so does every composition of them. -/

namespace Sys2Proof.Machine

variable {s t u : State}

/-- The enables that `c` has on are on in `d` (10_state.md R24). -/
structure Control.StaysOn (c d : Control) : Prop where
  ue : c.ue = true → d.ue = true
  te : c.te = true → d.te = true
  re : c.re = true → d.re = true

/-- Every channel enable, and `FR.ACTIVE`, that is on in `s` is on in `t`. -/
structure StaysOn (s t : State) : Prop where
  channels : ∀ i, (s.chan i).cr.StaysOn (t.chan i).cr
  active : s.fr.active = true → t.fr.active = true

namespace StaysOn

theorem refl (s : State) : StaysOn s s := ⟨fun _ => ⟨id, id, id⟩, id⟩

/-- Operations that write no channel and no `FR.ACTIVE`. -/
theorem of_eq (h : StaysOn s t) (hc : u.chans = t.chans) (hf : u.fr.active = t.fr.active) : StaysOn s u where
  channels i := chan_congr hc i ▸ h.channels i
  active hs := hf ▸ h.active hs

theorem updChan (h : StaysOn s t) (i : Engine) {f : Channel → Channel}
    (hf : (t.chan i).cr.StaysOn (f (t.chan i)).cr) : StaysOn s (t.updChan i f) where
  channels j := by
    rw [chan_updChan]
    split
    · rename_i hj
      obtain ⟨hue, hte, hre⟩ := h.channels j
      rw [hj] at hue hte hre ⊢
      exact ⟨hf.ue ∘ hue, hf.te ∘ hte, hf.re ∘ hre⟩
    · exact h.channels j
  active := h.active

/-- A change of the channel that leaves `CR` as it is. -/
theorem updStorage (h : StaysOn s t) (i : Engine) {f : Channel → Channel} (hf : (f (t.chan i)).cr = (t.chan i).cr) :
    StaysOn s (t.updChan i f) :=
  h.updChan i (hf ▸ ⟨id, id, id⟩)

theorem updCr (h : StaysOn s t) (i : Engine) {f : Control → Control}
    (hf : (t.chan i).cr.StaysOn (f (t.chan i).cr)) : StaysOn s (t.updCr i f) := h.updChan i hf

theorem updTxd (h : StaysOn s t) (i : Engine) (f : Descriptor → Descriptor) : StaysOn s (t.updTxd i f) :=
  h.updStorage i rfl

theorem updRxd (h : StaysOn s t) (i : Engine) (f : Descriptor → Descriptor) : StaysOn s (t.updRxd i f) :=
  h.updStorage i rfl

theorem txPush (h : StaysOn s t) (i : Engine) (b : Byte) : StaysOn s (txPush i b t) := h.updStorage i rfl

theorem txDrop (h : StaysOn s t) (i : Engine) : StaysOn s (txDrop i t) := h.updStorage i rfl

theorem rxPush (h : StaysOn s t) (i : Engine) (b : Byte) : StaysOn s (rxPush i b t) := h.updStorage i rfl

theorem rxDrop (h : StaysOn s t) (i : Engine) : StaysOn s (rxDrop i t) := h.updStorage i rfl

theorem updFr (h : StaysOn s t) {f : FrameContext → FrameContext}
    (hf : t.fr.active = true → (f t.fr).active = true) : StaysOn s (t.updFr f) :=
  ⟨h.channels, hf ∘ h.active⟩

theorem clearOvr (h : StaysOn s t) (i : Engine) (v : Word) : StaysOn s (clearOvr i v t) := h.updStorage i rfl

theorem raise (h : StaysOn s t) (f : ModelFault) : StaysOn s (raise f t) := h.of_eq rfl rfl

theorem emit (h : StaysOn s t) (e : Event) : StaysOn s (emit e t) := h.of_eq rfl rfl

theorem finish (h : StaysOn s t) (op : CmdOp) (code : ResultCode) : StaysOn s (finish op code t) := h.of_eq rfl rfl

theorem setCmdState (h : StaysOn s t) (c : CmdState) : StaysOn s (t.setCmdState c) := h.of_eq rfl rfl

theorem setMem (h : StaysOn s t) (m : Memory) : StaysOn s (t.setMem m) := h.of_eq rfl rfl

theorem setRdata (h : StaysOn s t) (v : Word) : StaysOn s (t.setRdata v) := h.of_eq rfl rfl

theorem setHostData (h : StaysOn s t) (v : Word) : StaysOn s (t.setHostData v) := h.of_eq rfl rfl

theorem setIrq (h : StaysOn s t) (b : Nat) : StaysOn s (setIrq b t) := h.of_eq rfl rfl

/-! ### The shared operations -/

theorem armReceive (h : StaysOn s t) (i : Engine) (addr len : Word) (cb : Callback) :
    StaysOn s (armReceive i addr len cb t) :=
  (h.updRxd i _).updCr i ⟨id, id, fun _ => rfl⟩

theorem framerBegin (h : StaysOn s t) (i : Engine) (hdr pay cap : Word) : StaysOn s (framerBegin i hdr pay cap t) :=
  (h.updFr fun _ => rfl).armReceive i _ _ _

theorem holdTx (h : StaysOn s t) (i : Engine) : StaysOn s (holdTx i t) :=
  (h.updTxd i _).updCr i ⟨id, fun _ => rfl, id⟩

theorem holdRx (h : StaysOn s t) (i : Engine) : StaysOn s (holdRx i t) :=
  (h.updRxd i _).updCr i ⟨id, id, fun _ => rfl⟩

theorem endTx (h : StaysOn s t) (op : CmdOp) (i : Engine) (code : ResultCode) : StaysOn s (endTx op i code t) :=
  ((h.updTxd i _).setCmdState .idle).finish op code

theorem endRx (h : StaysOn s t) (op : CmdOp) (i : Engine) (code : ResultCode) : StaysOn s (endRx op i code t) :=
  ((h.updRxd i _).setCmdState .idle).finish op code

theorem sendAccepted (h : StaysOn s t) (i : Engine) : StaysOn s (sendAccepted i t) :=
  (h.updCr i ⟨id, id, id⟩).finish _ _

theorem sendStart (h : StaysOn s t) (i : Engine) (addr len : Word) (cb : Callback) :
    StaysOn s (sendStart i addr len cb t).state := by
  have hpopulated : StaysOn s (sendPopulated i addr len cb t) := (h.updTxd i _).updCr i ⟨id, fun _ => rfl, id⟩
  unfold Machine.sendStart
  dsimp only
  split
  · split
    · exact hpopulated.raise _
    · exact ((hpopulated.txPush i _).updTxd i _).sendAccepted i
  · exact hpopulated.sendAccepted i

/-! ### The service invocation -/

/-- The parser's action arms a receive and leaves `FR.ACTIVE` (`FramerOut`), or raises before it writes. -/
theorem framerOnRx (h : StaysOn s t) (i : Engine) : StaysOn s (framerOnRx i t).state := by
  cases hrun : Machine.framerOnRx i t with
  | go u =>
    have hout := framerOnRx_out hrun
    refine ⟨fun j => ?_, fun hs => hout.active.trans (h.active hs)⟩
    rcases hout.arm with ⟨-, hchan⟩ | ⟨-, -, -, hchan⟩
    all_goals
      rw [Flow.state, hchan]
      exact (h.armReceive i _ _ _).channels j
  | stop u =>
    unfold Machine.framerOnRx headerDone payloadDone at hrun
    split at hrun <;> split at hrun <;> cases hrun
    all_goals exact h.raise _

theorem callback (h : StaysOn s t) (i : Engine) (bit : Nat) (cb : Callback) :
    StaysOn s (callback i bit cb t).state := by
  cases cb with
  | none => exact h
  | host => exact h.setIrq bit
  | framer => exact h.framerOnRx i

theorem txBranch (h : StaysOn s t) (i : Engine) : StaysOn s (txBranch i t).state := by
  unfold Machine.txBranch
  split
  · split
    · split
      · exact h.raise _
      · exact (h.txPush i _).updTxd i _
    · exact ((h.updCr i ⟨id, id, id⟩).updTxd i _).callback i _ _
  · exact h

theorem rxAdvance (h : StaysOn s t) (i : Engine) : StaysOn s (rxAdvance i t).state := by
  unfold Machine.rxAdvance
  dsimp only
  split
  · exact (((h.updRxd i _).updCr i ⟨id, id, id⟩).updRxd i _).callback i _ _
  · exact h.updRxd i _

theorem rxBranch (h : StaysOn s t) (i : Engine) : StaysOn s (rxBranch i t).state := by
  unfold Machine.rxBranch
  split
  · exact h
  rename_i b _ _
  split
  · split
    · rcases memWrite_cases (t.chan i).rxd.cursorAddr b (Machine.rxDrop i t) with ⟨-, hwrite⟩ | ⟨-, hwrite⟩
      · rw [hwrite]
        exact ((h.rxDrop i).setMem _).rxAdvance i
      · rw [hwrite]
        exact (h.rxDrop i).raise _
    · exact h.raise _
  · exact h

theorem serve (h : StaysOn s t) (i : Engine) : StaysOn s (serve i t).state := by
  have htx := h.txBranch i
  unfold Machine.serve
  cases hrun : Machine.txBranch i t with
  | go u =>
    rw [hrun] at htx
    exact htx.rxBranch i
  | stop u =>
    rw [hrun] at htx
    exact htx

end StaysOn

/-! ### Every step -/

theorem Accepted.staysOn {i : Engine} {c : Instr} (h : Accepted i s c t) : StaysOn s t := by
  have hrefl := StaysOn.refl s
  cases h with
  | init ch over8 d => exact (hrefl.updChan i ⟨fun _ => rfl, id, id⟩).finish _ _
  | submitSend ch hostcb => exact hrefl.sendStart i _ _ _
  | submitRecv ch hostcb => exact (hrefl.armReceive i _ _ _).finish _ _
  | sendByte ch data => exact (hrefl.holdTx i).setCmdState _
  | getByte ch => exact (hrefl.holdRx i).setCmdState _
  | framerStart ch => exact (hrefl.framerBegin i _ _ _).finish _ _
  | sendFrame ch => exact (hrefl.holdTx i).setCmdState _

theorem exec_staysOn (c : Instr) (s : State) : Leaves (StaysOn s) (exec c s) := by
  have houtcome := exec_outcome c s
  generalize exec c s = o at houtcome
  cases houtcome with
  | reports code => exact (StaysOn.refl s).finish _ code
  | accepts mapped effect => exact effect.staysOn

theorem writeReg_staysOn (r : Reg) (v : Word) (s : State) : StaysOn s (writeReg r v s) := by
  cases r
  case sr i => exact (StaysOn.refl s).clearOvr i v
  all_goals exact (StaysOn.refl s).of_eq rfl rfl

theorem hostStep_staysOn (st : HostStmt) (s : State) : Leaves (StaysOn s) (hostStep st s) := by
  have hrefl := StaysOn.refl s
  unfold hostStep
  split
  · cases st with
    | regRead w off =>
      show StaysOn s (regRead w off s)
      unfold regRead
      split
      · exact hrefl.setHostData _
      · exact hrefl.raise _
    | regWrite w off v =>
      show Leaves _ (regWrite w off v s)
      unfold regWrite
      split
      · split
        · unfold command
          split
          · exact exec_staysOn _ s
          · exact hrefl.finish _ _
        · exact writeReg_staysOn _ v s
      · exact hrefl.raise _
    | memRead a =>
      show Leaves _ (hostMemRead a s)
      unfold hostMemRead
      split
      · exact hrefl.raise _
      split
      · exact hrefl.raise _
      split
      · trivial
      · exact hrefl.setHostData _
    | memWrite a b =>
      show Leaves _ (hostMemWrite a b s)
      unfold hostMemWrite
      split
      · exact hrefl.raise _
      split
      · exact hrefl.raise _
      split
      · trivial
      · exact hrefl.setMem _
  · trivial

theorem frameBytePushed_staysOn (i : Engine) (hb : List Byte) (pay len : Word) (pos : Nat) (b : Byte) (s : State) :
    StaysOn s (frameBytePushed i hb pay len pos b s) := by
  have hpushed := (StaysOn.refl s).txPush i b
  unfold frameBytePushed
  split
  · exact hpushed.endTx _ i _
  · exact hpushed.setCmdState _

theorem pollStep_staysOn (s : State) : Leaves (StaysOn s) (pollStep s) := by
  have hrefl := StaysOn.refl s
  unfold pollStep
  split
  case h_1 => trivial
  case h_2 i b k _ =>
    show StaysOn s (pollSendByte i b k s)
    unfold pollSendByte
    split
    · exact (hrefl.txPush i b).endTx _ i _
    split
    · exact hrefl.endTx _ i _
    · exact hrefl.setCmdState _
  case h_3 i k _ =>
    show StaysOn s (pollGetByte i k s)
    unfold pollGetByte
    split
    · exact ((hrefl.rxDrop i).setRdata _).endRx _ i _
    split
    · exact hrefl.endRx _ i _
    · exact hrefl.setCmdState _
  case h_4 i hb pay len pos k _ =>
    unfold pollSendFrame
    split
    · split
      · split
        · trivial
        · exact frameBytePushed_staysOn ..
      · split
        · exact hrefl.raise _
        · exact frameBytePushed_staysOn ..
    split
    · exact hrefl.endTx _ i _
    · exact hrefl.setCmdState _

theorem lineRx_staysOn (i : Engine) (b : Byte) (s : State) : StaysOn s (lineRx i b s) := by
  have hrefl := StaysOn.refl s
  unfold lineRx
  split
  · split
    · exact (hrefl.rxPush i b).emit _
    · exact (StaysOn.updStorage hrefl i rfl).emit _
  · exact hrefl.emit _

theorem act_staysOn {a : Action} (ha : a ≠ .reset) (s : State) : Leaves (StaysOn s) (act a s) := by
  have hrefl := StaysOn.refl s
  cases a with
  | host st => exact hostStep_staysOn st s
  | poll => exact pollStep_staysOn s
  | svc i =>
    show Leaves _ (seqStep i s)
    unfold seqStep
    split
    · exact hrefl.serve i
    · trivial
  | lineTx i =>
    show Leaves _ (lineTxStep i s)
    unfold lineTxStep
    split
    · trivial
    split
    · exact (hrefl.txDrop i).emit _
    · trivial
  | lineRx i b =>
    show Leaves _ (lineRxStep i b s)
    unfold lineRxStep
    split
    · exact lineRx_staysOn i b s
    · trivial
  | reset => exact absurd rfl ha

/-- Settles O52: moving the agenda on changes no enable, and the action keeps each. -/
theorem onlyResetDisablesALine : Obligations.OnlyResetDisablesALine := by
  intro s t a i htakes ha
  obtain ⟨rest, hact⟩ := htakes.act
  obtain ⟨hchannels, hactive⟩ := (act_staysOn ha (s.setAgenda rest)).of_next hact
  obtain ⟨hue, hte, hre⟩ := hchannels i
  exact ⟨hue, hte, hre, hactive⟩

end Sys2Proof.Machine
end

section
/-! The commands that end at once (41_transfer_engine.md R120 to R123): their checks in order, and an accepted submit as
one update of its channel. -/

namespace Sys2Proof.Machine

variable {s t : State} {i : Engine} {c : Instr} {ch : Nat} {code : ResultCode}

/-! ### Commands that end at once -/

theorem endsAtOnce_of_exec (h : exec c s = .next (finish (opOf c) code s)) : EndsAtOnce c code s := ⟨_, h, rfl⟩

theorem sendStart_events (i : Engine) (addr len : Word) (cb : Callback) (s : State) :
    (sendStart i addr len cb s).state.events = s.events ∨
      (sendStart i addr len cb s).state.events = s.events ++ [.cmdDone .submitSend .ok] := by
  unfold sendStart
  dsimp only
  split
  · split <;> simp [Flow.state, sendAccepted]
  · simp [Flow.state, sendAccepted]

/-- An accepted command ends with OK, or its first step does not end it. -/
theorem Accepted.events (h : Accepted i s c t) :
    t.events = s.events ∨ t.events = s.events ++ [.cmdDone (opOf c) .ok] := by
  cases h with
  | submitSend ch hostcb => exact sendStart_events ..
  | init | submitRecv | framerStart => exact .inr rfl
  | sendByte | getByte | sendFrame => exact .inl rfl

/-- Settles O8: an accepted command reports no error, and one that reports does nothing else. -/
theorem failedCommandChangesOnlyItsResult : Obligations.FailedCommandChangesOnlyItsResult := by
  intro c s t op code hexec hdone hfailed
  have houtcome := exec_outcome c s
  rw [hexec] at houtcome
  cases houtcome with
  | reports code' =>
    obtain ⟨rfl, rfl⟩ : opOf c = op ∧ code' = code := by simpa using hdone
    rfl
  | accepts mapped effect =>
    rcases effect.events with h | h <;> rw [hdone] at h
    · simp at h
    · obtain ⟨-, hok⟩ : op = opOf c ∧ code = .ok := by simpa using h
      exact absurd hok hfailed

/-! ### The submits' validation -/

theorem validate_null (p : Params) (ch : Nat) (len : Word) : validate p ch 0#32 len = .error .nullReference := if_pos rfl

theorem validate_unmapped {p : Params} {addr : Word} (haddr : addr ≠ 0#32) (h : chanMap p ch = none) (len : Word) :
    validate p ch addr len = .error .invalidChannel := by
  simp [validate, haddr, h]

theorem validate_badLength {p : Params} {addr len : Word} (haddr : addr ≠ 0#32) (hi : chanMap p ch = some i)
    (hlen : len = 0#32 ∨ 2 ^ 32 < addr.toNat + len.toNat) : validate p ch addr len = .error .invalidArgument := by
  have hbad : len = 0#32 ∨ leavesMemory addr.toNat len.toNat = true := hlen.imp_right decide_eq_true
  simp only [validate, haddr, hi, hbad, if_true, if_false]

/-- Both submits report the first check that fails. -/
theorem submits_end_of_invalid (hostcb : Bool) (h : validate s.par ch s.arg0 s.arg1 = .error code) :
    EndsAtOnce (.submitSend ch hostcb) code s ∧ EndsAtOnce (.submitRecv ch hostcb) code s :=
  ⟨endsAtOnce_of_exec (by simp [exec, execSubmitSend, h, opOf]),
    endsAtOnce_of_exec (by simp [exec, execSubmitRecv, h, opOf])⟩

/-- Settles O13: the validation's three failures, then a Busy descriptor once it passes. -/
theorem submitsValidateInOrder : Obligations.SubmitsValidateInOrder := by
  intro s ch hostcb
  refine ⟨fun hnull => ?null, fun haddr hunmapped => ?unmapped, fun i haddr hi => ⟨fun hbad => ?length,
    fun hlen hfit => ⟨fun hbusy => ?sendBusy, fun hbusy => ?recvBusy⟩⟩⟩
  case null => exact submits_end_of_invalid hostcb (hnull ▸ validate_null _ _ _)
  case unmapped => exact submits_end_of_invalid hostcb (validate_unmapped haddr hunmapped _)
  case length => exact submits_end_of_invalid hostcb (validate_badLength haddr hi hbad)
  case sendBusy =>
    exact endsAtOnce_of_exec (by simp [exec, execSubmitSend, validate_eq_ok hi haddr hlen hfit, hbusy, opOf])
  case recvBusy =>
    exact endsAtOnce_of_exec (by simp [exec, execSubmitRecv, validate_eq_ok hi haddr hlen hfit, hbusy, opOf])

/-! ### Accepted submits -/

/-- A command that ended with OK after one update of its channel. -/
theorem endsOk_of_updChan (i : Engine) (op : CmdOp) (f : Channel → Channel) (s : State) :
    EndsOk i op s (finish op .ok (s.updChan i f)) where
  frame := by constructor <;> intros <;> rfl
  others := otherChannels_updChan i f s
  result := rfl
  events := rfl
  fr := rfl
  cmdState := rfl

@[simp] theorem toStep_go (s : State) : (Flow.go s).toStep = .next s := rfl

@[simp] theorem toStep_stop (s : State) : (Flow.stop s).toStep = .next s := rfl

theorem txe_iff : txe s i = true ↔ (s.chan i).txf.length < s.par.txDepth := decide_eq_true_iff

/-- The channel that an accepted SUBMIT_SEND leaves, with its cursor after the bytes `pushed`
(41_transfer_engine.md R121). -/
def sendSubmitted (addr len : Word) (cb : Callback) (cur : Word) (pushed : List Byte) (c : Channel) : Channel :=
  { c with
    cr := { c.cr with te := true, txeie := true }
    txd := { submitted addr len cb with cur := cur }
    txf := c.txf ++ pushed }

theorem sendStart_room {addr : Word} (hroom : (s.chan i).txf.length < s.par.txDepth)
    (hadmitted : readAdmitted s.par addr.toNat = true) (len : Word) (cb : Callback) :
    sendStart i addr len cb s =
      .go (finish .submitSend .ok (s.updChan i (sendSubmitted addr len cb 1#32 [s.mem.read addr.toNat]))) := by
  have htxe : txe (sendPopulated i addr len cb s) i = true := by simpa [sendPopulated_eq, txe] using hroom
  have hread : memRead addr.toNat (sendPopulated i addr len cb s) = .ok (s.mem.read addr.toNat) :=
    memRead_ok.mpr ⟨hadmitted, rfl⟩
  unfold sendPopulated at htxe hread
  simp only [sendStart, htxe, hread, if_true]
  unfold sendSubmitted
  simp [sendAccepted, txPush, updTxd_eq, updCr_eq]

theorem sendStart_full (hfull : ¬ (s.chan i).txf.length < s.par.txDepth) (addr len : Word) (cb : Callback) :
    sendStart i addr len cb s =
      .go (finish .submitSend .ok (s.updChan i (sendSubmitted addr len cb 0#32 []))) := by
  have htxe : ¬ txe (sendPopulated i addr len cb s) i = true := by simpa [sendPopulated_eq, txe] using hfull
  unfold sendPopulated at htxe
  simp only [sendStart, htxe]
  unfold sendSubmitted
  simp [sendAccepted, updTxd_eq, updCr_eq, submitted]

section
variable (hi : chanMap s.par ch = some i) (haddr : s.arg0 ≠ 0#32) (hlen : s.arg1 ≠ 0#32)
  (hfit : s.arg0.toNat + s.arg1.toNat ≤ 2 ^ 32)
include hi haddr hlen hfit

theorem exec_submitSend_ready (hready : (s.chan i).txd.state = .ready) (hostcb : Bool) :
    exec (.submitSend ch hostcb) s = (sendStart i s.arg0 s.arg1 (hostCallback hostcb) s).toStep := by
  simp [exec, execSubmitSend, validate_eq_ok hi haddr hlen hfit, hready]

theorem exec_submitRecv_ready (hready : (s.chan i).rxd.state = .ready) (hostcb : Bool) :
    exec (.submitRecv ch hostcb) s =
      .next (finish .submitRecv .ok (armReceive i s.arg0 s.arg1 (hostCallback hostcb) s)) := by
  simp [exec, execSubmitRecv, validate_eq_ok hi haddr hlen hfit, hready]

end

/-- Settles O14: room in the FIFO decides whether the first byte is read and pushed. -/
theorem submitSendStartsTheTransfer : Obligations.SubmitSendStartsTheTransfer := by
  intro s ch hostcb i hi haddr hlen hfit hready hadmitted
  have hexec := exec_submitSend_ready hi haddr hlen hfit hready hostcb
  by_cases hroom : (s.chan i).txf.length < s.par.txDepth
  · rw [sendStart_room hroom (hadmitted hroom), toStep_go] at hexec
    refine ⟨_, hexec, endsOk_of_updChan i _ _ s, ?_⟩
    rw [finish_chan, chan_updChan_self, if_pos hroom, if_pos hroom]
    rfl
  · rw [sendStart_full hroom, toStep_go] at hexec
    refine ⟨_, hexec, endsOk_of_updChan i _ _ s, ?_⟩
    rw [finish_chan, chan_updChan_self, if_neg hroom, if_neg hroom]
    rfl

theorem armReceive_eq (i : Engine) (addr len : Word) (cb : Callback) (s : State) :
    armReceive i addr len cb s =
      s.updChan i fun c => { c with cr := { c.cr with re := true, rxneie := true }, rxd := submitted addr len cb } := by
  rw [armReceive, updRxd_eq, updCr_eq, updChan_updChan]

/-- Settles O16: the command's effect is `armReceive`. -/
theorem submitRecvArmsTheReceive : Obligations.SubmitRecvArmsTheReceive := by
  intro s ch hostcb i hi haddr hlen hfit hready
  have hexec := exec_submitRecv_ready hi haddr hlen hfit hready hostcb
  rw [armReceive_eq] at hexec
  refine ⟨_, hexec, endsOk_of_updChan i _ _ s, ?_⟩
  rw [finish_chan, chan_updChan_self]
  rfl

end Sys2Proof.Machine
end

section
/-! SEND_BYTE and GET_BYTE (41_transfer_engine.md R130 to R132): the start step, the poll that moves the byte, and the
polls that wait until the bound. -/

namespace Sys2Proof.Machine

variable {s t : State} {i : Engine} {ch : Nat} {b : Byte} {k : Nat}

/-! ### The start steps -/

/-- Settles O19: the branches of the two start steps before a direction is held. -/
theorem byteCommandsRejectInOrder : Obligations.ByteCommandsRejectInOrder := by
  intro s ch data
  refine ⟨fun hunmapped => ⟨?_, ?_⟩, fun i hi => ⟨fun hbusy => ?_, fun hbusy => ?_⟩⟩ <;> apply endsAtOnce_of_exec
  · simp [exec, execSendByte, hunmapped, opOf]
  · simp [exec, execGetByte, hunmapped, opOf]
  · simp [exec, execSendByte, hi, hbusy, opOf]
  · simp [exec, execGetByte, hi, hbusy, opOf]

/-- A blocking command that started with one update of its channel. -/
theorem starts_of_updChan (i : Engine) (cmd : CmdState) (f : Channel → Channel) (s : State) :
    Starts i cmd s ((s.updChan i f).setCmdState cmd) where
  frame := by constructor <;> intros <;> rfl
  others := otherChannels_updChan i f s
  result := rfl
  events := rfl
  fr := rfl
  cmdState := rfl

theorem holdTx_eq (i : Engine) (s : State) :
    holdTx i s = s.updChan i fun c => { c with cr := { c.cr with te := true }, txd := c.txd.hold } := by
  rw [holdTx, updTxd_eq, updCr_eq, updChan_updChan]

theorem holdRx_eq (i : Engine) (s : State) :
    holdRx i s = s.updChan i fun c => { c with cr := { c.cr with re := true }, rxd := c.rxd.hold } := by
  rw [holdRx, updRxd_eq, updCr_eq, updChan_updChan]

theorem exec_sendByte_ready (hi : chanMap s.par ch = some i) (hready : (s.chan i).txd.state = .ready) (data : Byte) :
    exec (.sendByte ch data) s = .next ((holdTx i s).setCmdState (.sendByte i data 0)) := by
  simp [exec, execSendByte, hi, hready]

theorem exec_getByte_ready (hi : chanMap s.par ch = some i) (hready : (s.chan i).rxd.state = .ready) :
    exec (.getByte ch) s = .next ((holdRx i s).setCmdState (.getByte i 0)) := by
  simp [exec, execGetByte, hi, hready]

/-! ### The polls -/

theorem endTx_eq (op : CmdOp) (i : Engine) (code : ResultCode) (s : State) :
    endTx op i code s = finish op code ((s.setCmdState .idle).updChan i fun c => { c with txd := c.txd.restore }) := rfl

theorem endRx_eq (op : CmdOp) (i : Engine) (code : ResultCode) (s : State) :
    endRx op i code s = finish op code ((s.setCmdState .idle).updChan i fun c => { c with rxd := c.rxd.restore }) := rfl

theorem endTx_writes (op : CmdOp) (i : Engine) (code : ResultCode) (s : State) :
    endTx op i code s =
      { s with
        result := code, events := s.events ++ [.cmdDone op code], cmdState := .idle
        chans := (endTx op i code s).chans } := rfl

theorem endRx_writes (op : CmdOp) (i : Engine) (code : ResultCode) (s : State) :
    endRx op i code s =
      { s with
        result := code, events := s.events ++ [.cmdDone op code], cmdState := .idle
        chans := (endRx op i code s).chans } := rfl

theorem otherChannels_endTx (op : CmdOp) (i : Engine) (code : ResultCode) (s : State) :
    OtherChannels i s (endTx op i code s) := fun j hj => by
  rw [endTx_eq, finish_chan, chan_updChan_ne _ _ hj, setCmdState_chan]

theorem otherChannels_endRx (op : CmdOp) (i : Engine) (code : ResultCode) (s : State) :
    OtherChannels i s (endRx op i code s) := fun j hj => by
  rw [endRx_eq, finish_chan, chan_updChan_ne _ _ hj, setCmdState_chan]

theorem chan_endTx_self (op : CmdOp) (i : Engine) (code : ResultCode) (s : State) :
    (endTx op i code s).chan i = { s.chan i with txd := (s.chan i).txd.restore } := by
  rw [endTx_eq, finish_chan, chan_updChan_self, setCmdState_chan]

theorem chan_endRx_self (op : CmdOp) (i : Engine) (code : ResultCode) (s : State) :
    (endRx op i code s).chan i = { s.chan i with rxd := (s.chan i).rxd.restore } := by
  rw [endRx_eq, finish_chan, chan_updChan_self, setCmdState_chan]

theorem act_poll_sendByte (h : s.cmdState = .sendByte i b k) : act .poll s = .next (pollSendByte i b k s) := by
  simp only [act, pollStep, h]

theorem act_poll_getByte (h : s.cmdState = .getByte i k) : act .poll s = .next (pollGetByte i k s) := by
  simp only [act, pollStep, h]

theorem pollSendByte_room (h : (s.chan i).txf.length < s.par.txDepth) (b : Byte) (k : Nat) :
    pollSendByte i b k s =
      finish .sendByte .ok
        ((s.setCmdState .idle).updChan i fun c => { c with txd := c.txd.restore, txf := c.txf ++ [b] }) := by
  rw [pollSendByte, if_pos (txe_iff.mpr h), endTx_eq]
  exact congrArg _ (updChan_updChan (s.setCmdState .idle) i (fun c => { c with txf := c.txf ++ [b] }) _)

theorem pollGetByte_byte {later : List Byte} (h : (s.chan i).rxf = b :: later) (k : Nat) :
    pollGetByte i k s =
      finish .getByte .ok
        (((s.setCmdState .idle).setRdata (b.setWidth 32)).updChan i fun c =>
          { c with rxd := c.rxd.restore, rxf := c.rxf.tail }) := by
  simp only [pollGetByte, h, endRx_eq]
  exact congrArg _ (updChan_updChan ((s.setCmdState .idle).setRdata _) i (fun c => { c with rxf := c.rxf.tail }) _)

/-- Settles O17: the start step holds the transmit direction, and the poll with room pushes and gives it back. -/
theorem sendByteDeliversItsByte : Obligations.SendByteDeliversItsByte := by
  refine ⟨fun s ch data i hi hready => ?start, fun s i data k hcmd hroom => ?poll⟩
  case start =>
    rw [exec_sendByte_ready hi hready, holdTx_eq]
    refine ⟨_, rfl, starts_of_updChan i _ _ s, ?_⟩
    rw [setCmdState_chan, chan_updChan_self]
    rfl
  case poll =>
    rw [act_poll_sendByte hcmd, pollSendByte_room hroom]
    refine ⟨_, rfl, endsOk_of_updChan i _ _ (s.setCmdState .idle), ?_⟩
    rw [finish_chan, chan_updChan_self]
    rfl

/-- Settles O18: the start step holds the receive direction, and the poll with a byte takes it and gives it back. -/
theorem getByteReturnsTheOldestByte : Obligations.GetByteReturnsTheOldestByte := by
  refine ⟨fun s ch i hi hready => ?start, fun s i k b later hcmd hrxf => ?poll⟩
  case start =>
    rw [exec_getByte_ready hi hready, holdRx_eq]
    refine ⟨_, rfl, starts_of_updChan i _ _ s, ?_⟩
    rw [setCmdState_chan, chan_updChan_self]
    rfl
  case poll =>
    rw [act_poll_getByte hcmd, pollGetByte_byte hrxf]
    refine ⟨_, rfl, endsOk_of_updChan i _ _ ((s.setCmdState .idle).setRdata (b.setWidth 32)), ?_⟩
    rw [finish_chan, chan_updChan_self]
    show ({ s.chan i with rxd := _, rxf := (s.chan i).rxf.tail } : Channel) = _
    rw [hrxf]
    rfl

/-! ### Polls that wait -/

theorem act_poll_sendByte_full (hcmd : s.cmdState = .sendByte i b k) (hfull : s.par.txDepth ≤ (s.chan i).txf.length) :
    act .poll s =
      .next (if k + 1 = s.par.spinBound then endTx .sendByte i .timeout s
        else s.setCmdState (.sendByte i b (k + 1))) := by
  rw [act_poll_sendByte hcmd, pollSendByte, if_neg (txe_iff.not.mpr (Nat.not_lt.mpr hfull))]

theorem act_poll_getByte_empty (hcmd : s.cmdState = .getByte i k) (hempty : (s.chan i).rxf = []) :
    act .poll s =
      .next (if k + 1 = s.par.spinBound then endRx .getByte i .timeout s else s.setCmdState (.getByte i (k + 1))) := by
  rw [act_poll_getByte hcmd]
  simp only [pollGetByte, hempty]

/-! ### Polls that stand back to back in the agenda -/

section
variable {cmd : Nat → CmdState} {ended : Nat → List Action → State} {n : Nat} {rest : List Action}
  (hstart : s.cmdState = cmd 0) (hagenda : s.agenda = List.replicate n .poll ++ rest)
  (hpoll : ∀ k l, act .poll ((s.setCmdState (cmd k)).setAgenda l) =
    .next (if k + 1 = n then ended k l else (s.setCmdState (cmd (k + 1))).setAgenda l))
include hstart hagenda hpoll

/-- Where every poll but number `n` only counts, `cmd k` being the command after `k` of them. -/
theorem runFor_polls_waiting {k : Nat} (hk : k < n) :
    runFor k s = .next ((s.setCmdState (cmd k)).setAgenda (List.replicate (n - k) .poll ++ rest)) := by
  induction k with
  | zero =>
    rw [Nat.sub_zero, ← hagenda, ← hstart]
    rfl
  | succ k ih =>
    have hpending : List.replicate (n - k) Action.poll ++ rest =
        .poll :: (List.replicate (n - (k + 1)) .poll ++ rest) := by
      rw [show n - k = n - (k + 1) + 1 by omega]
      rfl
    rw [runFor_add (ih (by omega)), hpending]
    exact runFor_succ ((step_of_agenda rfl).trans ((hpoll k _).trans (congrArg _ (if_neg (Nat.ne_of_lt hk)))))

theorem runFor_polls_last (hn : 1 ≤ n) : runFor n s = .next (ended (n - 1) rest) := by
  obtain ⟨k, rfl⟩ := Nat.exists_eq_add_of_le' hn
  rw [runFor_add (runFor_polls_waiting hstart hagenda hpoll k.lt_succ_self), Nat.add_sub_cancel_left]
  exact runFor_succ ((step_of_agenda rfl).trans ((hpoll k rest).trans (congrArg _ (if_pos rfl))))

end

/-- Settles O20: a poll of a full FIFO counts or, at the bound, ends; and the bound is reached by counting. -/
theorem sendByteTimesOutAfterSpinBound : Obligations.SendByteTimesOutAfterSpinBound := by
  refine ⟨fun s i data k hcmd hfull => ⟨fun hk => ?waits, fun hk => ?timeout⟩,
    fun s i data rest hbound hcmd hfull hagenda => ?run⟩
  case waits =>
    rw [act_poll_sendByte_full hcmd hfull, if_neg hk]
    rfl
  case timeout =>
    rw [act_poll_sendByte_full hcmd hfull, if_pos hk]
    exact ⟨_, rfl, otherChannels_endTx _ _ _ _, endTx_writes .., chan_endTx_self ..⟩
  case run =>
    have hpoll := fun k l => act_poll_sendByte_full (s := (s.setCmdState (.sendByte i data k)).setAgenda l) rfl hfull
    exact ⟨fun k hk => ⟨_, runFor_polls_waiting (cmd := .sendByte i data) hcmd hagenda hpoll hk, rfl, rfl, rfl⟩,
      _, runFor_polls_last (cmd := .sendByte i data) hcmd hagenda hpoll hbound, otherChannels_endTx _ _ _ _,
      endTx_writes .., chan_endTx_self ..⟩

/-- Settles O21: a poll of an empty FIFO counts or, at the bound, ends; and the bound is reached by counting. -/
theorem getByteTimesOutAfterSpinBound : Obligations.GetByteTimesOutAfterSpinBound := by
  refine ⟨fun s i k hcmd hempty => ⟨fun hk => ?waits, fun hk => ?timeout⟩,
    fun s i rest hbound hcmd hempty hagenda => ?run⟩
  case waits =>
    rw [act_poll_getByte_empty hcmd hempty, if_neg hk]
    rfl
  case timeout =>
    rw [act_poll_getByte_empty hcmd hempty, if_pos hk]
    exact ⟨_, rfl, otherChannels_endRx _ _ _ _, endRx_writes .., chan_endRx_self ..⟩
  case run =>
    have hpoll := fun k l => act_poll_getByte_empty (s := (s.setCmdState (.getByte i k)).setAgenda l) rfl hempty
    exact ⟨fun k hk => ⟨_, runFor_polls_waiting (cmd := .getByte i) hcmd hagenda hpoll hk, rfl, rfl, rfl⟩,
      _, runFor_polls_last (cmd := .getByte i) hcmd hagenda hpoll hbound, otherChannels_endRx _ _ _ _,
      endRx_writes .., chan_endRx_self ..⟩

end Sys2Proof.Machine
end

section
/-! What a service invocation or a line step leaves as it was (41_transfer_engine.md R124, R125; 40_serial_fifo.md R103,
R104), and what the agents can do while a command blocks (41_transfer_engine.md R130). -/

namespace Sys2Proof.Machine

variable {s t u : State} {i : Engine} {b : Byte}

/-- A bit of `IRQ_STATUS` set. -/
theorem getLsbD_or_bit (x : Word) (n : Nat) {b : Nat} (hb : b < 32) :
    (x ||| (1#32 <<< n)).getLsbD b = (x.getLsbD b || b == n) := by
  have hbit : (1#32 <<< n).getLsbD b = (b == n) := by
    rw [show 1#32 <<< n = bitAt n true from rfl, getLsbD_bitAt _ hb, Bool.and_true]
    rfl
  rw [BitVec.getLsbD_or, hbit]

/-! ### The receive branch and the parser's action -/

/-- What the receive side of an invocation of channel `i` leaves as it was: the other channels, the channel's transmit
direction, and `TXC[i]`. -/
structure KeepsTransmit (i : Engine) (s t : State) : Prop where
  others : OtherChannels i s t
  source : (t.chan i).cr.txeie = (s.chan i).cr.txeie
  txd : (t.chan i).txd = (s.chan i).txd
  txf : (t.chan i).txf = (s.chan i).txf
  txc : t.irqStatus.getLsbD (txcBit i) = s.irqStatus.getLsbD (txcBit i)

namespace KeepsTransmit

theorem refl (i : Engine) (s : State) : KeepsTransmit i s s := ⟨fun _ _ => rfl, rfl, rfl, rfl, rfl⟩

/-- Operations that write no channel and not `IRQ_STATUS`. -/
theorem of_eq (h : KeepsTransmit i s t) (hc : u.chans = t.chans) (hirq : u.irqStatus = t.irqStatus) :
    KeepsTransmit i s u := by
  obtain ⟨others, source, txd, txf, txc⟩ := h
  have hchan := chan_congr hc
  exact ⟨fun j hj => (hchan j).trans (others j hj), hchan i ▸ source, hchan i ▸ txd, hchan i ▸ txf, hirq ▸ txc⟩

theorem updChan (h : KeepsTransmit i s t) {f : Channel → Channel}
    (hsource : (f (t.chan i)).cr.txeie = (t.chan i).cr.txeie) (htxd : (f (t.chan i)).txd = (t.chan i).txd)
    (htxf : (f (t.chan i)).txf = (t.chan i).txf) : KeepsTransmit i s (t.updChan i f) where
  others j hj := (chan_updChan_ne t f hj).trans (h.others j hj)
  source := by rw [chan_updChan_self, hsource, h.source]
  txd := by rw [chan_updChan_self, htxd, h.txd]
  txf := by rw [chan_updChan_self, htxf, h.txf]
  txc := h.txc

theorem updRxd (h : KeepsTransmit i s t) (f : Descriptor → Descriptor) : KeepsTransmit i s (t.updRxd i f) :=
  h.updChan rfl rfl rfl

theorem rxDrop (h : KeepsTransmit i s t) : KeepsTransmit i s (rxDrop i t) := h.updChan rfl rfl rfl

theorem raise (h : KeepsTransmit i s t) (f : ModelFault) : KeepsTransmit i s (raise f t) := h.of_eq rfl rfl

theorem setMem (h : KeepsTransmit i s t) (m : Memory) : KeepsTransmit i s (t.setMem m) := h.of_eq rfl rfl

theorem setIrq (h : KeepsTransmit i s t) {b : Nat} (hb : txcBit i ≠ b) : KeepsTransmit i s (setIrq b t) := by
  obtain ⟨others, source, txd, txf, txc⟩ := h
  have hlt : txcBit i < 32 := by unfold txcBit; omega
  exact ⟨others, source, txd, txf, by rw [setIrq_irqStatus, getLsbD_or_bit _ _ hlt, txc, beq_false_of_ne hb, Bool.or_false]⟩

theorem armReceive (h : KeepsTransmit i s t) (addr len : Word) (cb : Callback) :
    KeepsTransmit i s (armReceive i addr len cb t) := by
  rw [armReceive_eq]
  exact h.updChan rfl rfl rfl

theorem frameRejected (h : KeepsTransmit i s t) (code : ResultCode) : KeepsTransmit i s (frameRejected code t) :=
  (h.of_eq (u := t.updFr _) rfl rfl).setIrq (by unfold txcBit frameErrBit; omega)

theorem dispatch (h : KeepsTransmit i s t) (id : Word) (p : List Byte) : KeepsTransmit i s (dispatch id p t) := by
  unfold Machine.dispatch
  split
  · split
    · exact h.frameRejected _
    · exact (h.of_eq (u := State.updFr (emit _ t) _) rfl rfl).setIrq (by unfold txcBit frameDoneBit; omega)
  · exact h.frameRejected _

theorem headerParsed (h : KeepsTransmit i s t) (bytes : List Byte) : KeepsTransmit i s (headerParsed i bytes t) := by
  unfold Machine.headerParsed headerAccepted
  split
  · exact (h.frameRejected _).armReceive _ _ _
  split
  · exact (h.frameRejected _).armReceive _ _ _
  dsimp only
  split
  · exact ((h.of_eq (u := t.updFr _) rfl rfl).dispatch _ _).armReceive _ _ _
  · exact ((h.of_eq (u := t.updFr _) rfl rfl).armReceive _ _ _).of_eq rfl rfl

theorem payloadParsed (h : KeepsTransmit i s t) (p : List Byte) : KeepsTransmit i s (payloadParsed i p t) :=
  ((h.dispatch _ p).armReceive _ _ _).of_eq rfl rfl

theorem framerOnRx (h : KeepsTransmit i s t) : KeepsTransmit i s (framerOnRx i t).state := by
  unfold Machine.framerOnRx headerDone payloadDone
  split <;> split
  · exact h.raise _
  · exact h.headerParsed _
  · exact h.raise _
  · exact h.payloadParsed _

theorem callback (h : KeepsTransmit i s t) (cb : Callback) : KeepsTransmit i s (callback i (rxcBit i) cb t).state := by
  cases cb with
  | none => exact h
  | host => exact h.setIrq (by unfold txcBit rxcBit; omega)
  | framer => exact h.framerOnRx

theorem rxAdvance (h : KeepsTransmit i s t) : KeepsTransmit i s (rxAdvance i t).state := by
  unfold Machine.rxAdvance rxComplete
  dsimp only
  split
  · exact (((h.updRxd _).updChan rfl rfl rfl).updRxd _).callback _
  · exact h.updRxd _

theorem rxBranch (h : KeepsTransmit i s t) : KeepsTransmit i s (rxBranch i t).state := by
  unfold Machine.rxBranch
  split
  · exact h
  rename_i b _ _
  split
  · split
    · rcases memWrite_cases (t.chan i).rxd.cursorAddr b (Machine.rxDrop i t) with ⟨-, hwrite⟩ | ⟨-, hwrite⟩
      · rw [hwrite]
        exact (h.rxDrop.setMem _).rxAdvance
      · rw [hwrite]
        exact h.rxDrop.raise _
    · exact h.raise _
  · exact h

end KeepsTransmit

/-! ### The other channels -/

theorem OtherChannels.trans (h : OtherChannels i s t) (g : OtherChannels i t u) : OtherChannels i s u :=
  fun j hj => (g j hj).trans (h j hj)

theorem otherChannels_callback (i : Engine) (bit : Nat) (cb : Callback) (s : State) :
    OtherChannels i s (callback i bit cb s).state := by
  cases cb with
  | none | host => exact fun _ _ => rfl
  | framer => exact (KeepsTransmit.refl i s).framerOnRx.others

theorem otherChannels_txBranch (i : Engine) (s : State) : OtherChannels i s (txBranch i s).state := by
  unfold txBranch
  split
  · split
    · split
      · exact fun _ _ => rfl
      · exact fun j hj => by rw [Flow.state, chan_updTxd, if_neg hj, chan_txPush, if_neg hj]
    · exact ((otherChannels_updChan i _ s).trans (otherChannels_updChan i _ _)).trans (otherChannels_callback i _ _ _)
  · exact fun _ _ => rfl

theorem otherChannels_serve (i : Engine) (s : State) : OtherChannels i s (serve i s).state := by
  have htx := otherChannels_txBranch i s
  unfold serve
  cases hrun : txBranch i s with
  | go u =>
    rw [hrun] at htx
    exact htx.trans (KeepsTransmit.refl i u).rxBranch.others
  | stop u =>
    rw [hrun] at htx
    exact htx

/-! ### Service and line steps -/

theorem act_svc_eq_next_iff :
    act (.svc i) s = .next t ↔ i.val < s.par.numChannels ∧ serviceRequest s i = true ∧ (serve i s).state = t := by
  show seqStep i s = .next t ↔ _
  unfold seqStep
  split <;> rename_i h <;> rw [Bool.and_eq_true_iff, hasChan_iff] at h
  · simp [h, Flow.toStep]
  · simp only [reduceCtorEq, false_iff]
    exact fun ⟨hi, hrequest, _⟩ => h ⟨hi, hrequest⟩

theorem act_lineRx_eq_next_iff :
    act (.lineRx i b) s = .next t ↔ i.val < s.par.numChannels ∧ lineRx i b s = t := by
  show lineRxStep i b s = .next t ↔ _
  unfold lineRxStep
  split <;> rename_i h <;> rw [hasChan_iff] at h <;> simp [h]

theorem lineRx_frame (i : Engine) (b : Byte) (s : State) :
    OtherChannels i s (lineRx i b s) ∧ ServiceFrame s (lineRx i b s) := by
  unfold lineRx
  split
  · split
    · exact ⟨fun j hj => (chan_rxPush ..).trans (if_neg hj), by constructor <;> rfl⟩
    · exact ⟨fun j hj => by rw [emit_chan, chan_updChan_ne s _ hj], by constructor <;> rfl⟩
  · exact ⟨fun _ _ => rfl, by constructor <;> rfl⟩

/-- A step of the SEQ or of a LINE on channel `i` writes no other channel, and nothing that `ServiceFrame` names. -/
theorem service_or_line_frame {a : Action} (ha : a = .svc i ∨ a = .lineTx i ∨ ∃ b, a = .lineRx i b)
    (hact : act a s = .next t) : OtherChannels i s t ∧ ServiceFrame s t := by
  rcases ha with rfl | rfl | ⟨b, rfl⟩
  · obtain ⟨-, -, rfl⟩ := act_svc_eq_next_iff.mp hact
    exact ⟨otherChannels_serve i s, serviceFrame_serve i s⟩
  · obtain ⟨b, later, -, -, -, -, rfl⟩ := lineTxStep_eq_next_iff.mp hact
    exact ⟨fun j hj => (chan_txDrop ..).trans (if_neg hj), by constructor <;> rfl⟩
  · obtain ⟨-, rfl⟩ := act_lineRx_eq_next_iff.mp hact
    exact lineRx_frame i b s

/-- Settles O56: moving the agenda on changes no other field, and the action keeps the rest. -/
theorem serviceAndLineStepsWriteOneChannel : Obligations.ServiceAndLineStepsWriteOneChannel := by
  intro s t a i htakes ha
  obtain ⟨rest, hact⟩ := htakes.act
  obtain ⟨hothers, hframe⟩ := service_or_line_frame ha hact
  exact ⟨hothers, hframe.result, hframe.arg0, hframe.arg1, hframe.arg2, hframe.rdata, hframe.irqEnable, hframe.cmdState⟩

/-! ### While a command blocks -/

/-- A poll of SEND_FRAME stops only where the header bytes end early (00_scope.md R15 (b)). -/
theorem pollSendFrame_takes_a_step {hb : List Byte} (hlen : hb.length = s.par.hdrLen) (pay len : Word) (pos k : Nat) :
    ∃ t, pollSendFrame i hb pay len pos k s = .next t := by
  unfold pollSendFrame
  split
  · split
    · rename_i hpos
      rw [List.getElem?_eq_getElem (hlen ▸ hpos)]
      exact ⟨_, rfl⟩
    · split <;> exact ⟨_, rfl⟩
  · split <;> exact ⟨_, rfl⟩

theorem pollStep_takes_a_step (hblocks : s.cmdState ≠ .idle)
    (hheader : ∀ i hb pay len pos k, s.cmdState = .sendFrame i hb pay len pos k → hb.length = s.par.hdrLen) :
    ∃ t, act .poll s = .next t := by
  cases hcmd : s.cmdState with
  | idle => exact absurd hcmd hblocks
  | sendByte i b k => exact ⟨_, act_poll_sendByte hcmd⟩
  | getByte i k => exact ⟨_, act_poll_getByte hcmd⟩
  | sendFrame i hb pay len pos k =>
    obtain ⟨t, hpoll⟩ := pollSendFrame_takes_a_step (i := i) (hheader _ _ _ _ _ _ hcmd) pay len pos k
    exact ⟨t, by simp only [act, pollStep, hcmd, hpoll]⟩

/-- Settles O46: only the HOST's statements and the poll look at `CMDSTATE`, and only the poll and reset write it while a
command blocks. -/
theorem hostIsHeldWhileACommandBlocks : Obligations.HostIsHeldWhileACommandBlocks := by
  intro s _
  refine ⟨fun hblocks st => if_neg hblocks, fun hidle => ?idle, pollStep_takes_a_step,
    fun hblocks a t hact hpoll hreset => ?kept, fun c i b => ⟨?svc, ?lineTx, ?lineRx⟩⟩
  case idle => simp only [act, pollStep, hidle]
  case kept =>
    cases a with
    | host st => exact absurd (hact.symm.trans (if_neg hblocks)) nofun
    | poll => exact absurd rfl hpoll
    | svc i => exact (service_or_line_frame (.inl rfl) hact).2.cmdState
    | lineTx i => exact (service_or_line_frame (.inr (.inl rfl)) hact).2.cmdState
    | lineRx i b => exact (service_or_line_frame (.inr (.inr ⟨b, rfl⟩)) hact).2.cmdState
    | reset => exact absurd rfl hreset
  case svc =>
    have henabled : ∀ s : State, (∃ t, act (.svc i) s = .next t) ↔
        i.val < s.par.numChannels ∧ serviceRequest s i = true := by simp [act_svc_eq_next_iff]
    exact (henabled _).trans (henabled s).symm
  case lineTx =>
    have henabled : ∀ s : State, (∃ t, act (.lineTx i) s = .next t) ↔ ∃ b later, (s.chan i).txf = b :: later ∧
        i.val < s.par.numChannels ∧ (s.chan i).cr.ue = true ∧ (s.chan i).cr.te = true := by
      simp [act, lineTxStep_eq_next_iff]
    exact (henabled _).trans (henabled s).symm
  case lineRx =>
    have henabled : ∀ s : State, (∃ t, act (.lineRx i b) s = .next t) ↔ i.val < s.par.numChannels := by
      simp [act_lineRx_eq_next_iff]
    exact (henabled _).trans (henabled s).symm

end Sys2Proof.Machine
end

section
/-! The service invocation (41_transfer_engine.md R124 to R128): what the transmit branch leaves, then each branch of the
receive, and so what the step does. -/

namespace Sys2Proof.Machine

variable {s : State} {i : Engine} {c : Channel} {irq : Word} {b : Byte} {later : List Byte}

/-! ### After the transmit branch -/

/-- The state after a transmit branch that left `c` and `irq` (`TransmitLeaves`, Safety.lean). -/
def transmitted (i : Engine) (c : Channel) (irq : Word) (s : State) : State :=
  { s.updChan i (fun _ => c) with irqStatus := irq }

@[simp] theorem transmitted_chan_self (i : Engine) (c : Channel) (irq : Word) (s : State) :
    (transmitted i c irq s).chan i = c := chan_updChan_self s i fun _ => c

theorem otherChannels_transmitted (i : Engine) (c : Channel) (irq : Word) (s : State) :
    OtherChannels i s (transmitted i c irq s) := fun _ hj => chan_updChan_ne s (fun _ => c) hj

theorem serviceFrame_transmitted (i : Engine) (c : Channel) (irq : Word) (s : State) :
    ServiceFrame s (transmitted i c irq s) := by constructor <;> rfl

theorem serve_of_leaves (h : TransmitLeaves i s c irq) : serve i s = rxBranch i (transmitted i c irq s) := by
  rw [serve, txBranch_leaves h]
  rfl

/-- The transmit branch leaves the receive FIFO as it is; `TransmitLeaves.receive` is the descriptor and its source. -/
theorem TransmitLeaves.rxf (h : TransmitLeaves i s c irq) : c.rxf = (s.chan i).rxf := by
  cases h <;> rfl

/-! ### The receive branch, case by case -/

/-- Nothing for the receive branch to do (41_transfer_engine.md R127). -/
theorem rxBranch_idle (h : (s.chan i).rxf = [] ∨ (s.chan i).cr.rxneie = false) : rxBranch i s = .go s := by
  unfold rxBranch
  split
  · rfl
  · rename_i hrxf
    rw [if_neg]
    simpa [hrxf] using h

section
variable (hrxf : (s.chan i).rxf = b :: later) (hsource : (s.chan i).cr.rxneie = true)
include hrxf hsource

theorem rxBranch_broken (h : (s.chan i).rxd.len ≤ (s.chan i).rxd.cur) :
    rxBranch i s = .stop (raise (.invariantBroken i) s) := by
  simp only [rxBranch, hrxf, hsource, BitVec.not_lt.mpr h, if_true, if_false]

theorem rxBranch_refused (h : (s.chan i).rxd.cur < (s.chan i).rxd.len)
    (hrefused : writeAdmitted s.par (s.chan i).rxd.cursorAddr = false) :
    rxBranch i s = .stop (raise (.busError (s.chan i).rxd.cursorAddr) (rxDrop i s)) := by
  simp [rxBranch, hrxf, hsource, h, memWrite, hrefused, Flow.andThen]

theorem rxBranch_stores_byte (h : (s.chan i).rxd.cur < (s.chan i).rxd.len)
    (hadmitted : writeAdmitted s.par (s.chan i).rxd.cursorAddr = true) :
    rxBranch i s = rxAdvance i ((rxDrop i s).setMem (s.mem.write (s.chan i).rxd.cursorAddr b)) := by
  simp [rxBranch, hrxf, hsource, h, memWrite, hadmitted, Flow.andThen]

end

theorem rxAdvance_more (h : (s.chan i).rxd.cur.toNat + 1 < (s.chan i).rxd.len.toNat) :
    rxAdvance i s = .go (s.updRxd i Descriptor.advance) := by
  have hmore : ¬ (s.chan i).rxd.cur + 1#32 = (s.chan i).rxd.len := by bv_omega
  simp [rxAdvance, chan_updRxd, Descriptor.advance, hmore]

/-- A receive that completes: its source off and its descriptor Ready (41_transfer_engine.md R127). -/
def receiveCompleted (i : Engine) (s : State) : State :=
  s.updChan i fun c => { c with cr := { c.cr with rxneie := false }, rxd := c.rxd.complete }

theorem receiveCompleted_chan_self (i : Engine) (s : State) :
    (receiveCompleted i s).chan i =
      { s.chan i with cr := { (s.chan i).cr with rxneie := false }, rxd := (s.chan i).rxd.complete } :=
  chan_updChan_self s i _

theorem otherChannels_receiveCompleted (i : Engine) (s : State) : OtherChannels i s (receiveCompleted i s) :=
  otherChannels_updChan i _ s

theorem serviceFrame_receiveCompleted (i : Engine) (s : State) : ServiceFrame s (receiveCompleted i s) := by
  constructor <;> rfl

/-- The last byte: the descriptor completes and its callback runs. -/
theorem rxAdvance_last (h : (s.chan i).rxd.cur.toNat + 1 = (s.chan i).rxd.len.toNat) :
    rxAdvance i s = callback i (rxcBit i) (s.chan i).rxd.cb (receiveCompleted i s) := by
  have hlast : (s.chan i).rxd.cur + 1#32 = (s.chan i).rxd.len := by bv_omega
  simp [receiveCompleted, rxAdvance, rxComplete, updRxd_eq, updCr_eq, Descriptor.advance, Descriptor.complete, hlast]

/-- A callback other than the parser's (41_transfer_engine.md R128). -/
theorem callback_bit {cb : Callback} (h : cb ≠ .framer) (i : Engine) (bit : Nat) (s : State) :
    callback i bit cb s =
      .go { s with irqStatus := if cb = .host then s.irqStatus ||| (1#32 <<< bit) else s.irqStatus } := by
  cases cb with
  | none | host => rfl
  | framer => exact absurd rfl h

theorem getLsbD_callback_bit (cb : Callback) (x : Word) (bit : Nat) {k : Nat} (hk : k < 32) :
    (if cb = .host then x ||| (1#32 <<< bit) else x).getLsbD k = (x.getLsbD k || (cb == .host && k == bit)) := by
  split <;> rename_i hhost
  · simp [getLsbD_or_bit _ _ hk, hhost]
  · simp [hhost]

/-! ### The step -/

theorem serviceRequest_iff :
    serviceRequest s i = true ↔ (s.chan i).cr.ue = true ∧
      (((s.chan i).txf.length < s.par.txDepth ∧ (s.chan i).cr.txeie = true) ∨
        ((s.chan i).rxf ≠ [] ∧ (s.chan i).cr.rxneie = true)) := by
  simp [serviceRequest, txe, rxne, List.length_pos_iff]

theorem act_svc_of_request (hi : i.val < s.par.numChannels) (h : serviceRequest s i = true) :
    act (.svc i) s = (serve i s).toStep :=
  act_svc_eq_next_iff.mpr ⟨hi, h, rfl⟩

section
variable (hi : i.val < s.par.numChannels) (hue : (s.chan i).cr.ue = true)
include hi hue

/-- With nothing for the receive branch, the step is the transmit branch. -/
theorem act_svc_transmit (hroom : (s.chan i).txf.length < s.par.txDepth) (hsource : (s.chan i).cr.txeie = true)
    (hidle : (s.chan i).rxf = [] ∨ (s.chan i).cr.rxneie = false) (h : TransmitLeaves i s c irq) :
    act (.svc i) s = .next (transmitted i c irq s) := by
  have hidle' : ((transmitted i c irq s).chan i).rxf = [] ∨ ((transmitted i c irq s).chan i).cr.rxneie = false := by
    rwa [transmitted_chan_self, h.rxf, h.receive.2]
  rw [act_svc_of_request hi (serviceRequest_iff.mpr ⟨hue, .inl ⟨hroom, hsource⟩⟩), serve_of_leaves h,
    rxBranch_idle hidle', toStep_go]

/-- With a receive byte waiting, the step is the receive branch after whatever the transmit branch left. -/
theorem act_svc_receive (hrxf : (s.chan i).rxf = b :: later) (hsource : (s.chan i).cr.rxneie = true)
    (h : TransmitLeaves i s c irq) : act (.svc i) s = (rxBranch i (transmitted i c irq s)).toStep := by
  have hwaiting : (s.chan i).rxf ≠ [] := hrxf ▸ List.cons_ne_nil b later
  rw [act_svc_of_request hi (serviceRequest_iff.mpr ⟨hue, .inr ⟨hwaiting, hsource⟩⟩), serve_of_leaves h]

end

/-- The state in which the receive branch, after the transmit branch, has stored byte `b` and not yet moved its cursor. -/
def byteStored (i : Engine) (c : Channel) (irq : Word) (b : Byte) (s : State) : State :=
  (rxDrop i (transmitted i c irq s)).setMem (s.mem.write (s.chan i).rxd.cursorAddr b)

theorem byteStored_chan_self (i : Engine) (c : Channel) (irq : Word) (b : Byte) (s : State) :
    (byteStored i c irq b s).chan i = { c with rxf := c.rxf.tail } := by
  rw [byteStored, setMem_chan, chan_rxDrop, if_pos rfl, transmitted_chan_self]

theorem otherChannels_byteStored (i : Engine) (c : Channel) (irq : Word) (b : Byte) (s : State) :
    OtherChannels i s (byteStored i c irq b s) := fun j hj => by
  rw [byteStored, setMem_chan, chan_rxDrop, if_neg hj, otherChannels_transmitted i c irq s j hj]

theorem serviceFrame_byteStored (i : Engine) (c : Channel) (irq : Word) (b : Byte) (s : State) :
    ServiceFrame s (byteStored i c irq b s) := by constructor <;> rfl

section
variable (hi : i.val < s.par.numChannels) (hue : (s.chan i).cr.ue = true) (hrxf : (s.chan i).rxf = b :: later)
  (hsource : (s.chan i).cr.rxneie = true) (h : TransmitLeaves i s c irq)
include hi hue hrxf hsource h

theorem act_svc_broken (hover : (s.chan i).rxd.len ≤ (s.chan i).rxd.cur) :
    act (.svc i) s = .next (raise (.invariantBroken i) (transmitted i c irq s)) := by
  obtain ⟨hrxd, hrxneie⟩ := h.receive
  have hbranch := rxBranch_broken (s := transmitted i c irq s) (i := i) (b := b) (later := later)
  simp only [transmitted_chan_self, h.rxf, hrxd, hrxneie] at hbranch
  rw [act_svc_receive hi hue hrxf hsource h, hbranch hrxf hsource hover, toStep_stop]

theorem act_svc_refused (hleft : (s.chan i).rxd.cur < (s.chan i).rxd.len)
    (hrefused : writeAdmitted s.par (s.chan i).rxd.cursorAddr = false) :
    act (.svc i) s =
      .next (raise (.busError (s.chan i).rxd.cursorAddr) (rxDrop i (transmitted i c irq s))) := by
  obtain ⟨hrxd, hrxneie⟩ := h.receive
  have hbranch := rxBranch_refused (s := transmitted i c irq s) (i := i) (b := b) (later := later)
  simp only [transmitted_chan_self, h.rxf, hrxd, hrxneie] at hbranch
  rw [act_svc_receive hi hue hrxf hsource h, hbranch hrxf hsource hleft hrefused, toStep_stop]

theorem act_svc_stores_byte (hleft : (s.chan i).rxd.cur < (s.chan i).rxd.len)
    (hadmitted : writeAdmitted s.par (s.chan i).rxd.cursorAddr = true) :
    act (.svc i) s = (rxAdvance i (byteStored i c irq b s)).toStep := by
  obtain ⟨hrxd, hrxneie⟩ := h.receive
  have hbranch := rxBranch_stores_byte (s := transmitted i c irq s) (i := i) (b := b) (later := later)
  simp only [transmitted_chan_self, h.rxf, hrxd, hrxneie] at hbranch
  rw [act_svc_receive hi hue hrxf hsource h, hbranch hrxf hsource hleft hadmitted]
  rfl

end

/-! ### The transmit obligations -/

/-- Settles O29: an admitted read moves one byte (`TransmitLeaves.moved`), and a refused one ends the invocation. -/
theorem transmitBranchMovesOneByte : Obligations.TransmitBranchMovesOneByte := by
  intro s i hi hue hroom hsource hleft
  refine ⟨fun hidle hadmitted => ?moved, fun hrefused => ?refused⟩
  case moved =>
    exact ⟨_, act_svc_transmit hi hue hroom hsource hidle (.moved hroom hsource hleft hadmitted),
      serviceFrame_transmitted .., otherChannels_transmitted _ _ _ _, fun _ => rfl, rfl, rfl, rfl, rfl,
      transmitted_chan_self ..⟩
  case refused =>
    have hstop : serve i s = .stop (raise (.busError (s.chan i).txd.cursorAddr) s) := by
      simp [serve, txBranch, txe_iff.mpr hroom, hsource, hleft, memRead, hrefused, Flow.andThen]
    rw [act_svc_of_request hi (serviceRequest_iff.mpr ⟨hue, .inl ⟨hroom, hsource⟩⟩), hstop, toStep_stop]
    exact ⟨_, rfl, onlyFaults_raise _ s⟩

/-- With its source off the transmit branch does nothing. -/
theorem serve_of_source_off (h : (s.chan i).cr.txeie = false) : serve i s = rxBranch i s := by
  simp [serve, txBranch, h, Flow.andThen]

/-- Settles O30: the completion is `TransmitLeaves.completed`, and with the source off only the receive branch runs. -/
theorem transmitCompletionIsOnce : Obligations.TransmitCompletionIsOnce := by
  refine ⟨fun s i hi hue hroom hsource hdone hcb hidle => ?completes, fun s t i hoff hact => ?once⟩
  case completes =>
    refine ⟨_, act_svc_transmit hi hue hroom hsource hidle (.completed hroom hsource hdone hcb),
      serviceFrame_transmitted .., otherChannels_transmitted _ _ _ _, fun _ => rfl, rfl, rfl, rfl,
      fun b hb => getLsbD_callback_bit _ _ _ hb, transmitted_chan_self ..⟩
  case once =>
    obtain ⟨-, -, rfl⟩ := act_svc_eq_next_iff.mp hact
    rw [serve_of_source_off hoff]
    have hkeeps := (KeepsTransmit.refl i s).rxBranch
    exact ⟨hkeeps.source.trans hoff, hkeeps.txd, hkeeps.txf, hkeeps.txc⟩

/-! ### The receive obligations -/

/-- Settles O31: the three ways the receive branch ends before the last byte, each after the transmit branch. -/
theorem receiveBranchStoresOneByte : Obligations.ReceiveBranchStoresOneByte := by
  intro s i b later c irq hmem hi hue hrxf hsource hleaves
  have hrxd := hleaves.receive.1
  have htail : c.rxf.tail = later := by rw [hleaves.rxf, hrxf, List.tail_cons]
  refine ⟨fun hmore hadmitted => ?stored, fun hleft hrefused => ?refused, fun hover => ?broken⟩
  case stored =>
    have hleft : (s.chan i).rxd.cur < (s.chan i).rxd.len := by bv_omega
    have hchan := byteStored_chan_self i c irq b s
    have hadvance : rxAdvance i (byteStored i c irq b s) = _ := rxAdvance_more (by rw [hchan, hrxd]; exact hmore)
    rw [act_svc_stores_byte hi hue hrxf hsource hleaves hleft hadmitted, hadvance, toStep_go]
    refine ⟨_, rfl, (serviceFrame_byteStored i c irq b s).trans (by constructor <;> rfl),
      (otherChannels_byteStored i c irq b s).trans (otherChannels_updChan i _ _), rfl, rfl, rfl, rfl,
      Memory.read_write hmem.1 _ b, ?_⟩
    rw [chan_updRxd, if_pos rfl, hchan, htail, hrxd]
    rfl
  case refused =>
    rw [act_svc_refused hi hue hrxf hsource hleaves hleft hrefused]
    refine ⟨_, rfl, records_raise _ _, fun j hj => ?_, rfl, ?_⟩
    · rw [raise_chan, chan_rxDrop, if_neg hj, otherChannels_transmitted i c irq s j hj]
    · rw [raise_chan, chan_rxDrop, if_pos rfl, transmitted_chan_self, htail]
  case broken =>
    rw [act_svc_broken hi hue hrxf hsource hleaves hover]
    exact ⟨_, rfl, records_raise _ _, otherChannels_transmitted i c irq s, rfl, transmitted_chan_self i c irq s⟩

/-- Settles O32: the completion is `rxAdvance_last`, and its callback runs on the completed state. -/
theorem receiveCompletionRunsItsCallback : Obligations.ReceiveCompletionRunsItsCallback := by
  intro s i b later c irq hmem hi hue hrxf hsource hlast hleaves hadmitted
  have hrxd := hleaves.receive.1
  have htail : c.rxf.tail = later := by rw [hleaves.rxf, hrxf, List.tail_cons]
  have hleft : (s.chan i).rxd.cur < (s.chan i).rxd.len := by bv_omega
  have hchan := byteStored_chan_self i c irq b s
  have hact := act_svc_stores_byte hi hue hrxf hsource hleaves hleft hadmitted
  rw [rxAdvance_last (by rw [hchan, hrxd]; exact hlast), hchan, hrxd] at hact
  refine ⟨receiveCompleted i (byteStored i c irq b s),
    (serviceFrame_byteStored i c irq b s).trans (serviceFrame_receiveCompleted i _),
    (otherChannels_byteStored i c irq b s).trans (otherChannels_receiveCompleted i _), rfl, rfl, rfl, rfl,
    Memory.read_write hmem.1 _ b, ?_, fun hcb => ?_, fun hcb => ?_, fun hcb => ?_⟩
  · rw [receiveCompleted_chan_self, hchan, htail, hrxd]
    rfl
  all_goals
    rw [hact, hcb]
    rfl

end Sys2Proof.Machine
end

section
/-! A receive whose bytes arrive and are served one by one (41_transfer_engine.md R129): one round for each byte, and the
state after any number of rounds. -/

namespace Sys2Proof.Machine

variable {s : State} {i : Engine} {b : Byte} {rest : List Action}

/-- The FIFOs hold a byte each at least (10_state.md). -/
theorem Params.wf.depths {p : Params} (h : p.wf) : 1 ≤ p.txDepth ∧ 1 ≤ p.rxDepth := by
  obtain ⟨-, -, -, -, -, htx, hrx, -⟩ := h
  exact ⟨htx, hrx⟩

theorem setAgenda_of_agenda_eq {l : List Action} (h : s.agenda = l) : s.setAgenda l = s := by
  rw [← h]
  rfl

/-! ### Bytes stored one after another -/

/-- Memory with the bytes of a list stored from address `a` on. -/
def Memory.writeBytes : Memory → Nat → List Byte → Memory
  | m, _, [] => m
  | m, a, b :: bytes => Memory.writeBytes (m.write a b) (a + 1) bytes

theorem Memory.writeBytes_concat (m : Memory) (a : Nat) (bytes : List Byte) (b : Byte) :
    m.writeBytes a (bytes ++ [b]) = (m.writeBytes a bytes).write (a + bytes.length) b := by
  induction bytes generalizing m a with
  | nil => rfl
  | cons x bytes ih =>
    have hlast : a + 1 + bytes.length = a + (x :: bytes).length := by simp only [List.length_cons]; omega
    rw [List.cons_append, Memory.writeBytes, ih, hlast, Memory.writeBytes]

theorem Memory.read_writeBytes {m : Memory} (hm : m.Pairwise (fun x y => x.1 < y.1)) (a : Nat) (bytes : List Byte)
    (x : Nat) : (m.writeBytes a bytes).read x = if a ≤ x then bytes[x - a]?.getD (m.read x) else m.read x := by
  induction bytes generalizing m a with
  | nil => simp [Memory.writeBytes]
  | cons b bytes ih =>
    rw [Memory.writeBytes, ih (Memory.pairwise_write hm a b), Memory.read_write hm]
    rcases Nat.lt_trichotomy x a with h | rfl | h
    · simp [Nat.not_le.mpr h, Nat.not_le.mpr (Nat.lt_succ_of_lt h), Nat.ne_of_lt h]
    · simp
    · have hindex : x - a = x - (a + 1) + 1 := by omega
      simp [Nat.succ_le_of_lt h, Nat.le_of_lt h, Nat.ne_of_gt h, hindex]

theorem Memory.read_writeBytes_outside {m : Memory} (hm : m.wf) {a x : Nat} {bytes : List Byte}
    (h : x < a ∨ a + bytes.length ≤ x) : (m.writeBytes a bytes).read x = m.read x := by
  rw [Memory.read_writeBytes hm.1]
  split
  · rw [List.getElem?_eq_none (by omega), Option.getD_none]
  · rfl

theorem bufferBytes_writeBytes {m : Memory} (hm : m.wf) (a : Nat) (bytes : List Byte) :
    bufferBytes (m.writeBytes a bytes) a bytes.length = bytes := by
  refine List.ext_getElem (by simp [bufferBytes]) fun k _ hk => ?_
  simp [bufferBytes, Memory.read_writeBytes hm.1, hk]

/-- Two states that the same steps of the SEQ and the LINES could leave are equal where what those steps write is. -/
theorem ServiceFrame.eq_of_eq {t u : State} (h : ServiceFrame s t) (g : ServiceFrame s u) (mem : t.mem = u.mem)
    (irqStatus : t.irqStatus = u.irqStatus) (chan : ∀ j, t.chan j = u.chan j) (fr : t.fr = u.fr)
    (events : t.events = u.events) (faults : t.faults = u.faults) : t = u :=
  State.ext_chan (h.par.trans g.par.symm) mem (h.arg0.trans g.arg0.symm) (h.arg1.trans g.arg1.symm)
    (h.arg2.trans g.arg2.symm) (h.result.trans g.result.symm) (h.rdata.trans g.rdata.symm) irqStatus
    (h.irqEnable.trans g.irqEnable.symm) chan fr (h.cmdState.trans g.cmdState.symm) events faults
    (h.hostData.trans g.hostData.symm) (h.agenda.trans g.agenda.symm)

/-! ### One round -/

/-- What a receive served byte by byte needs of channel `i`, and what each round but the last keeps. -/
structure Receiving (i : Engine) (s : State) : Prop where
  hasChan : i.val < s.par.numChannels
  depth : 1 ≤ s.par.rxDepth
  ue : (s.chan i).cr.ue = true
  re : (s.chan i).cr.re = true
  source : (s.chan i).cr.rxneie = true
  transmitOff : (s.chan i).cr.txeie = false
  empty : (s.chan i).rxf = []

/-- Byte `b` has arrived, gone through the FIFO and been stored; the cursor has not moved. -/
def arrived (i : Engine) (b : Byte) (s : State) : State :=
  emit (.wireIn i b true) (s.setMem (s.mem.write (s.chan i).rxd.cursorAddr b))

theorem serviceFrame_arrived (i : Engine) (b : Byte) (s : State) : ServiceFrame s (arrived i b s) := by
  constructor <;> rfl

/-- A byte pushed to the empty FIFO and popped again leaves the channel as it was. -/
theorem byteStored_rxPush (hempty : (s.chan i).rxf = []) (b : Byte) :
    byteStored i { s.chan i with rxf := [b] } s.irqStatus b (emit (.wireIn i b true) (rxPush i b s)) = arrived i b s := by
  have haddr : ((emit (.wireIn i b true) (rxPush i b s)).chan i).rxd.cursorAddr = (s.chan i).rxd.cursorAddr := by
    rw [emit_chan, chan_rxPush, if_pos rfl]
  have hframe : ServiceFrame s (byteStored i { s.chan i with rxf := [b] } s.irqStatus b
      (emit (.wireIn i b true) (rxPush i b s))) :=
    ServiceFrame.trans (by constructor <;> rfl) (serviceFrame_byteStored ..)
  refine hframe.eq_of_eq (serviceFrame_arrived i b s) (congrArg (s.mem.write · b) haddr) ?irq (fun j => ?_) ?fr ?events ?faults
  case irq | fr | events | faults => simp [byteStored, transmitted, arrived]
  by_cases hj : j = i
  · rw [hj, byteStored_chan_self]
    exact congrArg (fun l => { s.chan i with rxf := l }) hempty.symm
  · rw [otherChannels_byteStored _ _ _ _ _ j hj, emit_chan, chan_rxPush, if_neg hj]
    rfl

theorem Receiving.setAgenda (h : Receiving i s) (l : List Action) : Receiving i (s.setAgenda l) :=
  ⟨h.hasChan, h.depth, h.ue, h.re, h.source, h.transmitOff, h.empty⟩

theorem Receiving.act_lineRx (h : Receiving i s) (b : Byte) :
    act (.lineRx i b) s = .next (emit (.wireIn i b true) (rxPush i b s)) := by
  have hroom : (s.chan i).rxf.length < s.par.rxDepth := by
    rw [h.empty]
    exact h.depth
  rw [Machine.act_lineRx h.hasChan, lineRx_of_room h.ue h.re hroom]

theorem Receiving.act_svc (h : Receiving i s) (b : Byte) (hleft : (s.chan i).rxd.cur < (s.chan i).rxd.len)
    (hadmitted : writeAdmitted s.par (s.chan i).rxd.cursorAddr = true) :
    act (.svc i) (emit (.wireIn i b true) (rxPush i b s)) = (rxAdvance i (arrived i b s)).toStep := by
  have hchan : (emit (.wireIn i b true) (rxPush i b s)).chan i = { s.chan i with rxf := [b] } := by
    rw [emit_chan, chan_rxPush, if_pos rfl, h.empty, List.nil_append]
  have hleaves := TransmitLeaves.nothing (i := i) (s := emit (.wireIn i b true) (rxPush i b s))
    (.inr (by rw [hchan]; exact h.transmitOff))
  refine (act_svc_stores_byte (s := emit _ (rxPush i b s)) (b := b) (later := []) h.hasChan ?_ ?_ ?_ hleaves ?_ ?_).trans ?_
  all_goals rw [hchan]
  · exact h.ue
  · exact h.source
  · exact hleft
  · exact hadmitted
  · rw [emit_irqStatus, rxPush_irqStatus, byteStored_rxPush h.empty]

/-- One byte arrives and is served. -/
theorem runFor_arrive_serve (h : Receiving i s) (hagenda : s.agenda = .lineRx i b :: .svc i :: rest)
    (hleft : (s.chan i).rxd.cur < (s.chan i).rxd.len) (hadmitted : writeAdmitted s.par (s.chan i).rxd.cursorAddr = true) :
    runFor 2 s = (rxAdvance i (arrived i b (s.setAgenda rest))).toStep := by
  rw [runFor_succ ((step_of_agenda hagenda).trans ((h.setAgenda _).act_lineRx b))]
  exact runFor_succ ((step_of_agenda rfl).trans ((h.setAgenda rest).act_svc b hleft hadmitted))

/-! ### Any number of rounds -/

/-- The state after the bytes of a list, fewer than the receive's length, have arrived and been served. -/
def received (i : Engine) (bytes : List Byte) (s : State) : State :=
  State.updRxd
    { s with
      mem := s.mem.writeBytes (s.chan i).rxd.addr.toNat bytes
      events := s.events ++ bytes.map fun b => .wireIn i b true }
    i fun d => { d with cur := BitVec.ofNat 32 bytes.length }

theorem received_chan_self (i : Engine) (bytes : List Byte) (s : State) :
    (received i bytes s).chan i =
      { s.chan i with rxd := { (s.chan i).rxd with cur := BitVec.ofNat 32 bytes.length } } := by
  rw [received, chan_updRxd, if_pos rfl]
  rfl

theorem otherChannels_received (i : Engine) (bytes : List Byte) (s : State) : OtherChannels i s (received i bytes s) :=
  fun j hj => by
    rw [received, chan_updRxd, if_neg hj]
    rfl

theorem serviceFrame_received (i : Engine) (bytes : List Byte) (s : State) : ServiceFrame s (received i bytes s) := by
  constructor <;> rfl

theorem receiving_received (h : Receiving i s) (bytes : List Byte) : Receiving i (received i bytes s) := by
  obtain ⟨hi, hdepth, hue, hre, hsource, hoff, hempty⟩ := h
  have hchan := received_chan_self i bytes s
  exact ⟨hi, hdepth, hchan ▸ hue, hchan ▸ hre, hchan ▸ hsource, hchan ▸ hoff, hchan ▸ hempty⟩

theorem cursorAddr_received {bytes : List Byte} (h : bytes.length < 2 ^ 32) (i : Engine) (s : State) :
    ((received i bytes s).chan i).rxd.cursorAddr = (s.chan i).rxd.addr.toNat + bytes.length := by
  rw [received_chan_self]
  exact congrArg _ (Nat.mod_eq_of_lt h)

theorem received_nil (hcur : (s.chan i).rxd.cur = 0#32) : received i [] s = s := by
  refine (serviceFrame_received i [] s).eq_of_eq (.refl s) ?_ ?_ (fun j => ?chan) ?_ ?_ ?_
  case chan =>
    by_cases hj : j = i
    · rw [hj, received_chan_self]
      exact congrArg (fun n => { s.chan i with rxd := { (s.chan i).rxd with cur := n } }) hcur.symm
    · exact otherChannels_received i _ s j hj
  all_goals simp [received, Memory.writeBytes]

/-- One more byte: stored at the cursor, and the cursor moved on. -/
theorem received_concat {bytes : List Byte} (h : bytes.length < 2 ^ 32) (i : Engine) (b : Byte) (s : State) :
    (arrived i b (received i bytes s)).updRxd i Descriptor.advance = received i (bytes ++ [b]) s := by
  have hmem : (received i bytes s).mem.write ((received i bytes s).chan i).rxd.cursorAddr b =
      s.mem.writeBytes (s.chan i).rxd.addr.toNat (bytes ++ [b]) := by
    rw [cursorAddr_received h, Memory.writeBytes_concat]
    rfl
  have hevents : s.events ++ (bytes.map fun b => .wireIn i b true) ++ [.wireIn i b true] =
      s.events ++ (bytes ++ [b]).map fun b => .wireIn i b true := by
    rw [List.map_append, List.append_assoc]
    rfl
  have hframe : ServiceFrame s ((arrived i b (received i bytes s)).updRxd i Descriptor.advance) := by
    exact ((serviceFrame_received i bytes s).trans (serviceFrame_arrived i b _)).trans (by constructor <;> rfl)
  refine hframe.eq_of_eq (serviceFrame_received i _ s) hmem ?irq (fun j => ?_) ?fr hevents ?faults
  case irq | fr | faults => simp [received, arrived]
  by_cases hj : j = i
  · rw [hj, chan_updRxd, if_pos rfl, received_chan_self, arrived, emit_chan, setMem_chan, received_chan_self]
    simp [Descriptor.advance, BitVec.ofNat_add]
  · rw [chan_updRxd, if_neg hj, otherChannels_received i _ s j hj]
    exact otherChannels_received i bytes s j hj

theorem arriveAndServe_append (i : Engine) (bytes more : List Byte) (rest : List Action) :
    arriveAndServe i (bytes ++ more) ++ rest = arriveAndServe i bytes ++ (arriveAndServe i more ++ rest) := by
  simp [arriveAndServe]

theorem arriveAndServe_concat (i : Engine) (bytes : List Byte) (b : Byte) (rest : List Action) :
    arriveAndServe i (bytes ++ [b]) ++ rest = arriveAndServe i bytes ++ (.lineRx i b :: .svc i :: rest) :=
  arriveAndServe_append i bytes [b] rest

/-- The round of one more byte, up to its cursor. -/
theorem runFor_received_arrive {bytes : List Byte} (h : Receiving i s)
    (hrun : runFor (2 * bytes.length) s = .next (received i bytes (s.setAgenda (.lineRx i b :: .svc i :: rest))))
    (hleft : bytes.length < (s.chan i).rxd.len.toNat)
    (hadmitted : writeAdmitted s.par ((s.chan i).rxd.addr.toNat + bytes.length) = true) :
    runFor (2 * (bytes.length + 1)) s = (rxAdvance i (arrived i b (received i bytes (s.setAgenda rest)))).toStep := by
  have hbits : bytes.length < 2 ^ 32 := by omega
  rw [Nat.mul_add, runFor_add hrun]
  refine runFor_arrive_serve (receiving_received (h.setAgenda _) bytes) rfl ?_ ?_
  · rw [received_chan_self, BitVec.lt_def]
    exact (Nat.mod_eq_of_lt hbits).trans_lt hleft
  · rw [cursorAddr_received hbits]
    exact hadmitted

theorem runFor_received {bytes : List Byte} (h : Receiving i s) (hcur : (s.chan i).rxd.cur = 0#32)
    (hfew : bytes.length < (s.chan i).rxd.len.toNat)
    (hadmitted : ∀ k, k < bytes.length → writeAdmitted s.par ((s.chan i).rxd.addr.toNat + k) = true)
    (hagenda : s.agenda = arriveAndServe i bytes ++ rest) :
    runFor (2 * bytes.length) s = .next (received i bytes (s.setAgenda rest)) := by
  induction bytes using List.reverseRecOn generalizing rest with
  | nil =>
    rw [setAgenda_of_agenda_eq (l := rest) hagenda, received_nil hcur]
    rfl
  | append_singleton bytes b ih =>
    have hlen : (bytes ++ [b]).length = bytes.length + 1 := List.length_append
    rw [hlen] at hfew hadmitted ⊢
    have hbits : bytes.length < 2 ^ 32 := by omega
    have hrun := ih (by omega) (fun k hk => hadmitted k (by omega)) (hagenda.trans (arriveAndServe_concat i bytes b rest))
    rw [runFor_received_arrive h hrun (by omega) (hadmitted _ (by omega)), rxAdvance_more, toStep_go,
      received_concat hbits]
    rw [arrived, emit_chan, setMem_chan, received_chan_self]
    exact (congrArg (· + 1) (Nat.mod_eq_of_lt hbits)).trans_lt hfew

/-- A completion resets the cursor, wherever the last byte moved it. -/
theorem receiveCompleted_updRxd_advance (i : Engine) (s : State) :
    receiveCompleted i (s.updRxd i Descriptor.advance) = receiveCompleted i s := by
  rw [receiveCompleted, updRxd_eq, updChan_updChan]
  rfl

/-- The last byte completes the receive and runs its callback. -/
theorem runFor_received_last {bytes : List Byte} (h : Receiving i s) (hcur : (s.chan i).rxd.cur = 0#32)
    (hcb : (s.chan i).rxd.cb ≠ .framer) (hlen : bytes.length = (s.chan i).rxd.len.toNat) (hne : bytes ≠ [])
    (hadmitted : ∀ k, k < bytes.length → writeAdmitted s.par ((s.chan i).rxd.addr.toNat + k) = true)
    (hagenda : s.agenda = arriveAndServe i bytes ++ rest) :
    runFor (2 * bytes.length) s =
      .next { receiveCompleted i (received i bytes (s.setAgenda rest)) with
        irqStatus := if (s.chan i).rxd.cb = .host then s.irqStatus ||| (1#32 <<< rxcBit i) else s.irqStatus } := by
  obtain rfl | ⟨bytes, b, rfl⟩ := bytes.eq_nil_or_concat'
  · exact absurd rfl hne
  · have hsucc : (bytes ++ [b]).length = bytes.length + 1 := List.length_append
    rw [hsucc] at hlen hadmitted ⊢
    have hbits : bytes.length < 2 ^ 32 := by omega
    have hrun := runFor_received h hcur (by omega) (fun k hk => hadmitted k (by omega))
      (hagenda.trans (arriveAndServe_concat i bytes b rest))
    have hchan : (arrived i b (received i bytes (s.setAgenda rest))).chan i =
        { s.chan i with rxd := { (s.chan i).rxd with cur := BitVec.ofNat 32 bytes.length } } := by
      rw [arrived, emit_chan, setMem_chan, received_chan_self]
      rfl
    rw [runFor_received_arrive h hrun (by omega) (hadmitted _ (by omega)), rxAdvance_last, hchan, callback_bit hcb,
      toStep_go, ← received_concat hbits, receiveCompleted_updRxd_advance]
    · rfl
    · rw [hchan]
      exact (congrArg (· + 1) (Nat.mod_eq_of_lt hbits)).trans hlen

/-- Settles O58: by induction on the bytes, of which each but the last is a round that moves the cursor, and the last one
completes the receive. -/
theorem receiveFillsItsBufferInOrder : Obligations.ReceiveFillsItsBufferInOrder := by
  intro s i bytes rest hp hmem hi hue hre hsource hoff hempty hcur hbusy hcb hlen hne hadmitted hagenda
  have h : Receiving i s := ⟨hi, (Params.wf.depths hp).2, hue, hre, hsource, hoff, hempty⟩
  refine ⟨fun n hn => ?partly, ?all⟩
  case partly =>
    have htake : (bytes.take n).length = n := List.length_take_of_le (Nat.le_of_lt hn)
    have hsplit : s.agenda = arriveAndServe i (bytes.take n) ++ (arriveAndServe i (bytes.drop n) ++ rest) := by
      rw [← arriveAndServe_append, List.take_append_drop, hagenda]
    have hrun := runFor_received (bytes := bytes.take n) h hcur (by omega) (fun k hk => hadmitted k (by omega)) hsplit
    rw [htake] at hrun
    refine ⟨_, hrun, ?_, ?_, ?_, rfl⟩
    · rw [received_chan_self, htake]
      exact Nat.mod_eq_of_lt (by omega)
    · rw [received_chan_self]
      exact hbusy
    · exact (congrArg _ htake.symm).trans (bufferBytes_writeBytes hmem _ _)
  case all =>
    refine ⟨_, runFor_received_last h hcur hcb hlen hne hadmitted hagenda, rfl, bufferBytes_writeBytes hmem _ _,
      fun a ha => Memory.read_writeBytes_outside hmem ha, fun b hb => getLsbD_callback_bit _ _ _ hb, ?_, ?_⟩
    · exact (otherChannels_received i bytes (s.setAgenda rest)).trans (otherChannels_receiveCompleted i _)
    · refine (receiveCompleted_chan_self i _).trans ?_
      rw [received_chan_self]
      rfl

end Sys2Proof.Machine
end

section
/-! A buffer submitted to an empty FIFO, then sent and served byte by byte (41_transfer_engine.md R121, R126;
40_serial_fifo.md R108; 90_conflicts.md C5): one round for each byte, and the state after any number of rounds. -/

namespace Sys2Proof.Machine

variable {s : State} {i : Engine} {b : Byte} {c : Channel} {irq : Word} {rest : List Action}

/-! ### The wire -/

theorem wireBytes_append (i : Engine) (e f : List Event) : wireBytes i (e ++ f) = wireBytes i e ++ wireBytes i f :=
  List.filterMap_append

theorem wireBytes_wireOut (i : Engine) (bytes : List Byte) : wireBytes i (bytes.map (.wireOut i)) = bytes := by
  simp [wireBytes, List.filterMap_map]

theorem bufferBytes_succ (m : Memory) (a n : Nat) : bufferBytes m a (n + 1) = bufferBytes m a n ++ [m.read (a + n)] := by
  simp [bufferBytes, List.range_succ]

/-! ### One round -/

/-- What a transmit sent byte by byte needs of channel `i`, and what each round but the last keeps. -/
structure Sending (i : Engine) (s : State) : Prop where
  hasChan : i.val < s.par.numChannels
  depth : 1 ≤ s.par.txDepth
  ue : (s.chan i).cr.ue = true
  te : (s.chan i).cr.te = true
  source : (s.chan i).cr.txeie = true
  receiveOff : (s.chan i).cr.rxneie = false

/-- The oldest byte `b` put on the wire. -/
def wired (i : Engine) (b : Byte) (s : State) : State := emit (.wireOut i b) (txDrop i s)

theorem wired_chan_self (h : (s.chan i).txf = [b]) : (wired i b s).chan i = { s.chan i with txf := [] } := by
  rw [wired, emit_chan, chan_txDrop, if_pos rfl, h, List.tail_cons]

theorem otherChannels_wired (i : Engine) (b : Byte) (s : State) : OtherChannels i s (wired i b s) := fun j hj => by
  rw [wired, emit_chan, chan_txDrop, if_neg hj]

/-- The only byte of the FIFO is sent, and the service invocation does what its transmit branch finds to do. -/
theorem runFor_send_serve (h : Sending i s) (htxf : (s.chan i).txf = [b])
    (hagenda : s.agenda = .lineTx i :: .svc i :: rest)
    (hleaves : TransmitLeaves i (wired i b (s.setAgenda rest)) c irq) :
    runFor 2 s = .next (transmitted i c irq (wired i b (s.setAgenda rest))) := by
  have hsend : act (.lineTx i) (s.setAgenda (.svc i :: rest)) = .next (wired i b (s.setAgenda (.svc i :: rest))) :=
    lineTxStep_eq_next_iff.mpr ⟨b, [], htxf, h.hasChan, h.ue, h.te, rfl⟩
  have hchan : (wired i b (s.setAgenda rest)).chan i = { s.chan i with txf := [] } :=
    wired_chan_self (s := s.setAgenda rest) htxf
  rw [runFor_succ ((step_of_agenda hagenda).trans hsend)]
  refine runFor_succ ((step_of_agenda rfl).trans (act_svc_transmit (s := wired i b (s.setAgenda rest)) h.hasChan ?_ ?_ ?_
    (.inr ?_) hleaves))
  all_goals rw [hchan]
  · exact h.ue
  · exact h.depth
  · exact h.source
  · exact h.receiveOff

/-! ### Any number of rounds -/

/-- The state after `n` rounds: the bytes before byte `n` of the buffer at address `a` are on the wire, byte `n` is in the
FIFO, and the cursor is past it. -/
def sent (i : Engine) (a n : Nat) (s : State) : State :=
  State.updChan { s with events := s.events ++ (bufferBytes s.mem a n).map (.wireOut i) } i fun c =>
    { c with txd := { c.txd with cur := BitVec.ofNat 32 (n + 1) }, txf := [s.mem.read (a + n)] }

theorem sent_chan_self (i : Engine) (a n : Nat) (s : State) :
    (sent i a n s).chan i =
      { s.chan i with
        txd := { (s.chan i).txd with cur := BitVec.ofNat 32 (n + 1) }
        txf := [s.mem.read (a + n)] } :=
  chan_updChan_self _ i _

theorem sent_txf (i : Engine) (a n : Nat) (s : State) : ((sent i a n s).chan i).txf = [s.mem.read (a + n)] := by
  rw [sent_chan_self]

theorem otherChannels_sent (i : Engine) (a n : Nat) (s : State) : OtherChannels i s (sent i a n s) :=
  otherChannels_updChan i _ _

theorem sending_sent (h : Sending i s) (a n : Nat) : Sending i (sent i a n s) := by
  obtain ⟨hi, hdepth, hue, hte, hsource, hoff⟩ := h
  have hchan := sent_chan_self i a n s
  exact ⟨hi, hdepth, hchan ▸ hue, hchan ▸ hte, hchan ▸ hsource, hchan ▸ hoff⟩

theorem Sending.setAgenda (h : Sending i s) (l : List Action) : Sending i (s.setAgenda l) :=
  ⟨h.hasChan, h.depth, h.ue, h.te, h.source, h.receiveOff⟩

theorem serviceFrame_sent (i : Engine) (a n : Nat) (s : State) : ServiceFrame s (sent i a n s) := by
  constructor <;> rfl

theorem serviceFrame_wired (i : Engine) (b : Byte) (s : State) : ServiceFrame s (wired i b s) := by
  constructor <;> rfl

/-- After byte `n` has gone out, the FIFO is empty and the cursor is at byte `n + 1`. -/
theorem wired_sent_chan_self (i : Engine) (a n : Nat) (s : State) :
    (wired i (s.mem.read (a + n)) (sent i a n s)).chan i =
      { s.chan i with txd := { (s.chan i).txd with cur := BitVec.ofNat 32 (n + 1) }, txf := [] } := by
  have hchan := sent_chan_self i a n s
  rw [wired_chan_self (sent_txf i a n s), hchan]

theorem wired_sent_events (i : Engine) (a n : Nat) (s : State) :
    (wired i (s.mem.read (a + n)) (sent i a n s)).events =
      s.events ++ (bufferBytes s.mem a (n + 1)).map (.wireOut i) := by
  simp [wired, sent, bufferBytes_succ]

theorem otherChannels_wired_sent (i : Engine) (a n : Nat) (b : Byte) (s : State) :
    OtherChannels i s (wired i b (sent i a n s)) :=
  (otherChannels_sent i a n s).trans (otherChannels_wired i b _)

/-- A round that found room and a byte left: the state of one round more. -/
theorem transmitted_wired_sent {c : Channel} {a n : Nat} (hc : c = (sent i a (n + 1) s).chan i) :
    transmitted i c s.irqStatus (wired i (s.mem.read (a + n)) (sent i a n s)) = sent i a (n + 1) s := by
  have hframe := ((serviceFrame_sent i a n s).trans (serviceFrame_wired i (s.mem.read (a + n)) _)).trans
    (serviceFrame_transmitted i c s.irqStatus _)
  refine hframe.eq_of_eq (serviceFrame_sent i a (n + 1) s) rfl rfl (fun j => ?_) rfl (wired_sent_events i a n s) rfl
  by_cases hj : j = i
  · rw [hj, transmitted_chan_self, hc]
  · rw [otherChannels_transmitted _ _ _ _ j hj, otherChannels_wired_sent _ _ _ _ _ j hj, otherChannels_sent _ _ _ _ j hj]

theorem sent_zero {a : Nat} (hcur : (s.chan i).txd.cur = 1#32) (htxf : (s.chan i).txf = [s.mem.read a]) :
    sent i a 0 s = s := by
  refine (serviceFrame_sent i a 0 s).eq_of_eq (.refl s) rfl rfl (fun j => ?_) rfl (List.append_nil _) rfl
  by_cases hj : j = i
  · rw [hj, sent_chan_self]
    show { s.chan i with txd := { (s.chan i).txd with cur := 1#32 }, txf := [s.mem.read a] } = s.chan i
    rw [← hcur, ← htxf]
  · exact otherChannels_sent i a 0 s j hj

/-- What the transmit branch finds after byte `n` has gone out: byte `n + 1`, or no byte left. -/
theorem Sending.moved {a n : Nat} (h : Sending i s) (haddr : (s.chan i).txd.addr.toNat = a)
    (hleft : n + 1 < (s.chan i).txd.len.toNat) (hadmitted : readAdmitted s.par (a + (n + 1)) = true) :
    TransmitLeaves i (wired i (s.mem.read (a + n)) (sent i a n s)) ((sent i a (n + 1) s).chan i) s.irqStatus := by
  have hcur : (BitVec.ofNat 32 (n + 1)).toNat = n + 1 := Nat.mod_eq_of_lt (by omega)
  have hmoved := TransmitLeaves.moved (i := i) (s := wired i (s.mem.read (a + n)) (sent i a n s))
  rw [wired_sent_chan_self] at hmoved
  simp only [Descriptor.cursorAddr, haddr, hcur, List.nil_append] at hmoved
  rw [sent_chan_self, BitVec.ofNat_add]
  exact hmoved h.depth h.source (by rw [BitVec.lt_def, hcur]; exact hleft) hadmitted

theorem Sending.completed {a n : Nat} (h : Sending i s) (hcb : (s.chan i).txd.cb ≠ .framer)
    (hdone : (s.chan i).txd.len.toNat = n + 1) :
    TransmitLeaves i (wired i (s.mem.read (a + n)) (sent i a n s))
      { s.chan i with
        cr := { (s.chan i).cr with txeie := false }
        txd := (s.chan i).txd.complete
        txf := [] }
      (if (s.chan i).txd.cb = .host then s.irqStatus ||| (1#32 <<< txcBit i) else s.irqStatus) := by
  have hcur : (BitVec.ofNat 32 (n + 1)).toNat = n + 1 := Nat.mod_eq_of_lt (by omega)
  have hcompleted := TransmitLeaves.completed (i := i) (s := wired i (s.mem.read (a + n)) (sent i a n s))
  rw [wired_sent_chan_self] at hcompleted
  exact hcompleted h.depth h.source (by rw [BitVec.le_def, hcur]; exact hdone.le) hcb

theorem sendAndServe_succ (i : Engine) (n : Nat) (rest : List Action) :
    sendAndServe i (n + 1) ++ rest = sendAndServe i n ++ (.lineTx i :: .svc i :: rest) := by
  simp [sendAndServe, List.replicate_succ']

/-- The round in which byte `n` goes out. -/
theorem runFor_sent_round {a n : Nat} (h : Sending i s)
    (hrun : runFor (2 * n) s = .next (sent i a n (s.setAgenda (.lineTx i :: .svc i :: rest))))
    (hleaves : TransmitLeaves i (wired i (s.mem.read (a + n)) (sent i a n (s.setAgenda rest))) c irq) :
    runFor (2 * (n + 1)) s =
      .next (transmitted i c irq (wired i (s.mem.read (a + n)) (sent i a n (s.setAgenda rest)))) := by
  rw [Nat.mul_add, runFor_add hrun]
  exact runFor_send_serve (sending_sent (h.setAgenda _) a n) (sent_txf i a n _) rfl hleaves

section
variable {a n : Nat} (h : Sending i s) (haddr : (s.chan i).txd.addr.toNat = a) (hcur : (s.chan i).txd.cur = 1#32)
  (htxf : (s.chan i).txf = [s.mem.read a])
  (hadmitted : ∀ k, k < (s.chan i).txd.len.toNat → readAdmitted s.par (a + k) = true)
include h haddr hcur htxf hadmitted

theorem runFor_sent (hfew : n < (s.chan i).txd.len.toNat) (hagenda : s.agenda = sendAndServe i n ++ rest) :
    runFor (2 * n) s = .next (sent i a n (s.setAgenda rest)) := by
  induction n generalizing rest with
  | zero =>
    rw [setAgenda_of_agenda_eq (l := rest) hagenda, sent_zero hcur htxf]
    rfl
  | succ n ih =>
    rw [sendAndServe_succ] at hagenda
    rw [runFor_sent_round h (ih (by omega) hagenda) ((h.setAgenda rest).moved haddr hfew (hadmitted _ hfew))]
    exact congrArg _ (transmitted_wired_sent (s := s.setAgenda rest) rfl)

/-- The last round: the last byte goes out, and the invocation completes the transmit. -/
theorem runFor_sent_last (hcb : (s.chan i).txd.cb ≠ .framer) (hlen : (s.chan i).txd.len.toNat = n + 1)
    (hagenda : s.agenda = sendAndServe i (n + 1) ++ rest) :
    runFor (2 * (n + 1)) s =
      .next (transmitted i
        { s.chan i with cr := { (s.chan i).cr with txeie := false }, txd := (s.chan i).txd.complete, txf := [] }
        (if (s.chan i).txd.cb = .host then s.irqStatus ||| (1#32 <<< txcBit i) else s.irqStatus)
        (wired i (s.mem.read (a + n)) (sent i a n (s.setAgenda rest)))) := by
  rw [sendAndServe_succ] at hagenda
  exact runFor_sent_round h (runFor_sent h haddr hcur htxf hadmitted (by omega) hagenda)
    ((h.setAgenda rest).completed hcb hlen)

end

/-! ### From the command on -/

/-- The state after a SUBMIT_SEND that found an empty FIFO (41_transfer_engine.md R121). -/
def submittedSend (i : Engine) (hostcb : Bool) (s : State) : State :=
  finish .submitSend .ok
    (s.updChan i (sendSubmitted s.arg0 s.arg1 (hostCallback hostcb) 1#32 [s.mem.read s.arg0.toNat]))

theorem submittedSend_chan_self (hempty : (s.chan i).txf = []) (hostcb : Bool) :
    (submittedSend i hostcb s).chan i =
      { s.chan i with
        cr := { (s.chan i).cr with te := true, txeie := true }
        txd := { submitted s.arg0 s.arg1 (hostCallback hostcb) with cur := 1#32 }
        txf := [s.mem.read s.arg0.toNat] } := by
  rw [submittedSend, finish_chan, chan_updChan_self, sendSubmitted, hempty, List.nil_append]

theorem otherChannels_submittedSend (i : Engine) (hostcb : Bool) (s : State) :
    OtherChannels i s (submittedSend i hostcb s) := fun j hj => by
  rw [submittedSend, finish_chan, chan_updChan_ne s _ hj]

theorem hostCallback_beq_host (hostcb : Bool) : (hostCallback hostcb == .host) = hostcb := by
  cases hostcb <;> rfl

/-- The state after the `n + 1` bytes of a submitted buffer have been sent and served. -/
def sendCompleted (i : Engine) (hostcb : Bool) (n : Nat) (s : State) : State :=
  transmitted i
    { s.chan i with
      cr := { (s.chan i).cr with te := true, txeie := false }
      txd := (submitted s.arg0 s.arg1 (hostCallback hostcb)).complete
      txf := [] }
    (if hostCallback hostcb = .host then s.irqStatus ||| (1#32 <<< txcBit i) else s.irqStatus)
    (wired i (s.mem.read (s.arg0.toNat + n)) (sent i s.arg0.toNat n (submittedSend i hostcb s)))

section
variable {ch n : Nat} (hlen : s.arg1.toNat = n + 1)
  (hadmitted : ∀ k, k < s.arg1.toNat → readAdmitted s.par (s.arg0.toNat + k) = true)
  (hdepth : 1 ≤ s.par.txDepth) (hempty : (s.chan i).txf = [])
include hlen hadmitted hdepth hempty

theorem exec_submitSend_empty (hi : chanMap s.par ch = some i) (haddr : s.arg0 ≠ 0#32)
    (hfit : s.arg0.toNat + s.arg1.toNat ≤ 2 ^ 32) (hready : (s.chan i).txd.state = .ready) (hostcb : Bool) :
    exec (.submitSend ch hostcb) s = .next (submittedSend i hostcb s) := by
  have hroom : (s.chan i).txf.length < s.par.txDepth := by rw [hempty]; exact hdepth
  rw [exec_submitSend_ready hi haddr (by bv_omega) hfit hready, sendStart_room hroom (hadmitted 0 (by omega)), toStep_go]
  rfl

theorem runFor_submittedSend (hi : i.val < s.par.numChannels) (hue : (s.chan i).cr.ue = true)
    (hoff : (s.chan i).cr.rxneie = false) (hostcb : Bool) (hagenda : s.agenda = sendAndServe i (n + 1) ++ rest) :
    runFor (2 * (n + 1)) (submittedSend i hostcb s) = .next (sendCompleted i hostcb n (s.setAgenda rest)) := by
  have hchan := submittedSend_chan_self hempty hostcb
  have hsending : Sending i (submittedSend i hostcb s) :=
    ⟨hi, hdepth, by rw [hchan]; exact hue, by rw [hchan], by rw [hchan], by rw [hchan]; exact hoff⟩
  have hrun := runFor_sent_last (a := s.arg0.toNat) (n := n) (rest := rest) hsending
  rw [hchan] at hrun
  exact hrun rfl rfl rfl hadmitted (hostCallback_ne_framer hostcb) hlen hagenda

end

/-- Nothing else is written. -/
theorem sendCompleted_eq (i : Engine) (hostcb : Bool) (n : Nat) (s : State) :
    sendCompleted i hostcb n s =
      { s with
        result := .ok
        irqStatus := (sendCompleted i hostcb n s).irqStatus
        chans := (sendCompleted i hostcb n s).chans
        events := (sendCompleted i hostcb n s).events } := by
  apply State.ext_chan
  case chan => exact fun j => chan_congr (by dsimp only) j
  case irqStatus | events => rfl
  all_goals simp [sendCompleted, transmitted, wired, sent, submittedSend]

theorem sendCompleted_wireBytes (i : Engine) (hostcb : Bool) (n : Nat) (s : State) :
    wireBytes i (sendCompleted i hostcb n s).events =
      wireBytes i s.events ++ bufferBytes s.mem s.arg0.toNat (n + 1) := by
  have hevents : (sendCompleted i hostcb n s).events =
      s.events ++ [.cmdDone .submitSend .ok] ++ (bufferBytes s.mem s.arg0.toNat (n + 1)).map (.wireOut i) :=
    wired_sent_events i s.arg0.toNat n (submittedSend i hostcb s)
  have hdone : wireBytes i [.cmdDone .submitSend .ok] = [] := rfl
  rw [hevents, wireBytes_append, wireBytes_append, wireBytes_wireOut, hdone, List.append_nil]

theorem otherChannels_sendCompleted (i : Engine) (hostcb : Bool) (n : Nat) (s : State) :
    OtherChannels i s (sendCompleted i hostcb n s) :=
  ((otherChannels_submittedSend i hostcb s).trans (otherChannels_wired_sent i _ n _ _)).trans
    (otherChannels_transmitted i _ _ _)

/-- Settles O59: the command pushes byte 0 (C5); then by induction on the bytes, of which each but the last is a round
that pushes the next one, and the last one completes the transmit. -/
theorem submittedBytesAreSentOnceInOrder : Obligations.SubmittedBytesAreSentOnceInOrder := by
  intro s ch hostcb i rest hp hch hi hidle haddr hlen hfit hready hempty hue hoff hadmitted hagenda
  have hdepth : 1 ≤ s.par.txDepth := (Params.wf.depths hp).1
  have hwf : (Instr.submitSend ch hostcb).wellFormed = true := decide_eq_true hch
  obtain ⟨n, hn⟩ : ∃ n, s.arg1.toNat = n + 1 := Nat.exists_eq_add_of_le' (by bv_omega)
  obtain ⟨acts, hacts⟩ : ∃ acts, acts = sendAndServe i s.arg1.toNat ++ rest := ⟨_, rfl⟩
  rw [← hacts] at hagenda
  have hstep : step s = .next (submittedSend i hostcb (s.setAgenda acts)) := by
    rw [step_cmdWrite hagenda hidle, command_of_ok (decode_encode hwf)]
    exact exec_submitSend_empty (s := s.setAgenda acts) hn hadmitted hdepth hempty hi haddr hfit hready hostcb
  have hrun := runFor_submittedSend (s := s.setAgenda acts) hn hadmitted hdepth hempty (chanMap_lt hp hi) hue hoff hostcb
    (hacts.trans (by rw [hn]))
  refine ⟨sendCompleted i hostcb n (s.setAgenda rest), ?_, sendCompleted_eq i hostcb n _, ?_,
    otherChannels_sendCompleted i hostcb n _, fun b hb => ?_, ?_⟩
  · rw [Nat.add_comm, runFor_succ hstep, hn]
    exact hrun
  · rw [sendCompleted_wireBytes, hn]
    rfl
  · exact (getLsbD_callback_bit _ _ _ hb).trans (by rw [hostCallback_beq_host]; rfl)
  · rw [sendCompleted, transmitted_chan_self, ← hempty]
    rfl

end Sys2Proof.Machine
end

section
/-! INIT: the closed form of the baud divisor (42_channel_registry.md R152), the channel that INIT programs (R151, R153),
and the order of its failures (60_exceptions.md R193). -/

namespace Sys2Proof.Machine

variable {s : State} {i : Engine} {ch : Nat} {over8 : Bool} {d : Nat × Nat}

/-! ### The baud divisor -/

/-- The model's `ceilDiv` is the library's ceiling division. -/
theorem ceilDiv_eq (a b : Nat) : ceilDiv a b = a ⌈/⌉ b := (Nat.ceilDiv_eq_add_pred_div a b).symm

theorem ceilDiv_mul_mul_left {S b : Nat} (hS : 0 < S) (hb : 0 < b) (a : Nat) : ceilDiv (a * S) (S * b) = ceilDiv a b := by
  rw [ceilDiv_eq, ceilDiv_eq]
  refine eq_of_forall_ge_iff fun c => ?_
  rw [ceilDiv_le_iff_le_mul (Nat.mul_pos hS hb), ceilDiv_le_iff_le_mul hb, Nat.mul_comm a, Nat.mul_assoc,
    Nat.mul_le_mul_left_iff hS]

theorem ceilDiv_mul_add {b : Nat} (hb : 0 < b) (k a : Nat) : ceilDiv (b * k + a) b = k + ceilDiv a b := by
  rw [ceilDiv, ceilDiv, ← Nat.mul_add_div hb, Nat.add_assoc, Nat.add_sub_assoc (by omega)]

/-- The ceiling of clock over baud, counted in whole multiples of `S * baud` and a rest rounded up. -/
theorem ceilDiv_split {S b : Nat} (hS : 0 < S) (hb : 0 < b) (clk : Nat) :
    ceilDiv clk b = S * (clk / (S * b)) + ceilDiv (clk % (S * b) * S) (S * b) :=
  calc ceilDiv clk b
    _ = ceilDiv (b * (S * (clk / (S * b))) + clk % (S * b)) b := by
      rw [← Nat.mul_assoc, Nat.mul_comm b, Nat.div_add_mod]
    _ = S * (clk / (S * b)) + ceilDiv (clk % (S * b) * S) (S * b) := by
      rw [ceilDiv_mul_add hb, ceilDiv_mul_mul_left hS hb]

/-- The carry of R152 makes quotient and remainder of a sum whose low part may reach `S`. -/
theorem carry_eq_divMod {S m f : Nat} (hS : 0 < S) (hf : f ≤ S) :
    (if f = S then (m + 1, 0) else (m, f)) = ((S * m + f) / S, (S * m + f) % S) := by
  rw [Nat.mul_add_div hS, Nat.mul_add_mod]
  split
  next hfull => rw [hfull, Nat.div_self hS, Nat.mod_self]
  next hnot =>
    have hlt : f < S := by omega
    rw [Nat.div_eq_of_lt hlt, Nat.mod_eq_of_lt hlt, Nat.add_zero]

theorem oversampling_eq (over8 : Bool) : oversampling over8 = if over8 then 8 else 16 := by cases over8 <;> rfl

theorem oversampling_pos (over8 : Bool) : 0 < oversampling over8 := by cases over8 <;> decide

theorem oversampling_le (over8 : Bool) : oversampling over8 ≤ 16 := by cases over8 <;> decide

theorem baudDivisor_zero (mantMax clk : Nat) (over8 : Bool) : baudDivisor mantMax clk 0 over8 = none := if_pos rfl

theorem baudDivisor_of_pos {baud : Nat} (hbaud : 0 < baud) (mantMax clk : Nat) (over8 : Bool) :
    baudDivisor mantMax clk baud over8 =
      if 1 ≤ ceilDiv clk baud / oversampling over8 ∧ ceilDiv clk baud / oversampling over8 ≤ mantMax then
        some (ceilDiv clk baud / oversampling over8, ceilDiv clk baud % oversampling over8)
      else none := by
  have hS := oversampling_pos over8
  have hrange (m : Nat) : (1 ≤ m ∧ m ≤ mantMax) ↔ ¬ (m = 0 ∨ mantMax < m) := by omega
  simp only [baudDivisor, hbaud.ne', if_false, carry_eq_divMod hS (ceilDiv_rem_le (Nat.mul_pos hS hbaud)),
    ← ceilDiv_split hS hbaud, hrange, ite_not]

/-- Settles O10: mantissa and fraction are the quotient and the remainder of one ceiling by the oversampling factor. -/
theorem baudDivisorIsCeilingOfClockOverBaud : Obligations.BaudDivisorIsCeilingOfClockOverBaud := by
  intro mantMax clk baud over8
  refine ⟨fun hzero => hzero ▸ baudDivisor_zero mantMax clk over8, fun hbaud => ?_⟩
  rw [baudDivisor_of_pos hbaud, oversampling_eq]
  rfl

/-! ### The channel INIT programs -/

theorem brrWord_frac {f : Nat} (m : Nat) (hf : f < 16) : ((brrWord m f).extractLsb' 0 4).toNat = f := by
  rw [BitVec.extractLsb'_toNat, brrWord_toNat, Nat.shiftRight_zero]
  omega

theorem reinitBusy_iff (c : Channel) :
    reinitBusy c = true ↔ c.cr.ue = true ∧ (c.txd.state = .busy ∨ c.rxd.state = .busy) := by
  simp [reinitBusy]

theorem execInit_unmapped (h : chanMap s.par ch = none) (over8 : Bool) :
    execInit ch over8 s = .next (finish .init .invalidChannel s) := by
  simp only [execInit, h]

section
variable (hi : chanMap s.par ch = some i)
include hi

theorem execInit_noDivisor (h : baudDivisor s.par.mantMax s.par.coreClock s.arg0.toNat over8 = none) :
    execInit ch over8 s = .next (finish .init .invalidArgument s) := by
  simp only [execInit, hi, h]

theorem execInit_divisor (h : baudDivisor s.par.mantMax s.par.coreClock s.arg0.toNat over8 = some d) :
    execInit ch over8 s =
      if reinitBusy (s.chan i) then .next (finish .init .busy s)
      else .next (finish .init .ok (s.updChan i (initChannel over8 d))) := by
  simp only [execInit, hi, h]

end

/-- Settles O11: the divisor's bounds are what the fields of `BRR` hold. -/
theorem initProgramsTheChannel : Obligations.InitProgramsTheChannel := by
  intro s ch over8 i mant frac hmax hi hdivisor hready
  obtain ⟨-, hmant, hfrac⟩ := baudDivisor_some hdivisor
  obtain ⟨hhigh, hmantField, -⟩ := brrWord_fields mant frac (hmant.trans hmax)
  have hfree : ¬ reinitBusy (s.chan i) = true := fun hbusy => by
    obtain ⟨hue, hdesc⟩ := (reinitBusy_iff _).mp hbusy
    obtain ⟨htx, hrx⟩ := hready hue
    simp [htx, hrx] at hdesc
  refine ⟨finish .init .ok (s.updChan i (initChannel over8 (mant, frac))), ?_, endsOk_of_updChan i _ _ s, ?_⟩
  · exact (execInit_divisor hi hdivisor).trans (if_neg hfree)
  · rw [finish_chan, chan_updChan_self]
    exact ⟨hmantField, brrWord_frac mant (hfrac.trans_le (oversampling_le over8)), hhigh, rfl⟩

/-- Settles O12: one branch of INIT for each failure. -/
theorem initRejectsInOrder : Obligations.InitRejectsInOrder := by
  intro s ch over8
  refine ⟨fun hunmapped => ?unmapped, fun i hi => ⟨fun hnone => ?noDivisor, fun hsome hue hdesc => ?busy⟩⟩ <;>
    apply endsAtOnce_of_exec
  case unmapped => exact execInit_unmapped hunmapped over8
  case noDivisor => exact execInit_noDivisor hi hnone
  case busy =>
    obtain ⟨d, hd⟩ := Option.ne_none_iff_exists'.mp hsome
    exact (execInit_divisor hi hd).trans (if_pos ((reinitBusy_iff _).mpr ⟨hue, hdesc⟩))

end Sys2Proof.Machine
end

section
/-! The first step of FRAMER_START and of SEND_FRAME (43_framer.md R161, R168): the buffer check over intervals, then
each command's checks in their order (60_exceptions.md R193) and its effect once they pass. -/

namespace Sys2Proof.Machine

variable {s : State} {i : Engine} {ch : Nat}

/-! ### The operand checks -/

theorem leavesMemory_iff {addr len : Nat} : leavesMemory addr len = true ↔ 2 ^ 32 < addr + len := decide_eq_true_iff

theorem rangesOverlap_iff {a n b m : Nat} : rangesOverlap a n b m = true ↔ a < b + m ∧ b < a + n := decide_eq_true_iff

theorem framerBuffersBad_iff {n : Nat} {hdr pay cap : Word} :
    framerBuffersBad n hdr pay cap = true ↔
      ((cap = 0#32 ∨ 2 ^ 32 < hdr.toNat + n) ∨ 2 ^ 32 < pay.toNat + cap.toNat) ∨
        hdr.toNat < pay.toNat + cap.toNat ∧ pay.toNat < hdr.toNat + n := by
  simp only [framerBuffersBad, Bool.or_eq_true, decide_eq_true_eq, leavesMemory_iff, rangesOverlap_iff]

/-- Buffers that pass the check; `framerBuffersBad_false` is the converse. -/
theorem framerBuffersBad_of_disjoint {n : Nat} {hdr pay cap : Word} (hcap : cap ≠ 0#32) (hhdr : hdr.toNat + n ≤ 2 ^ 32)
    (hpay : pay.toNat + cap.toNat ≤ 2 ^ 32)
    (hdisjoint : hdr.toNat + n ≤ pay.toNat ∨ pay.toNat + cap.toNat ≤ hdr.toNat) :
    ¬ framerBuffersBad n hdr pay cap = true := by
  simp only [framerBuffersBad_iff, hcap, false_or]
  omega

/-! ### FRAMER_START -/

theorem execFramerStart_null (h : s.arg0 = 0#32 ∨ s.arg1 = 0#32) (ch : Nat) :
    execFramerStart ch s = .next (finish .framerStart .nullReference s) := if_pos h

section
variable (hhdr : s.arg0 ≠ 0#32) (hpay : s.arg1 ≠ 0#32)
include hhdr hpay

theorem execFramerStart_unmapped (hi : chanMap s.par ch = none) :
    execFramerStart ch s = .next (finish .framerStart .invalidChannel s) := by
  simp [execFramerStart, hhdr, hpay, hi]

theorem execFramerStart_mapped (hi : chanMap s.par ch = some i) :
    execFramerStart ch s =
      if framerBuffersBad s.par.hdrLen s.arg0 s.arg1 s.arg2 then .next (finish .framerStart .invalidArgument s)
      else if s.fr.active = true ∨ (s.chan i).rxd.state = .busy then .next (finish .framerStart .busy s)
      else .next (finish .framerStart .ok (framerBegin i s.arg0 s.arg1 s.arg2 s)) := by
  simp [execFramerStart, hhdr, hpay, hi]

end

/-- The channel with a receive for a header armed (43_framer.md R162). -/
theorem armHeader_chan_self (i : Engine) (s : State) :
    (armHeader i s).chan i =
      { s.chan i with
        cr := { (s.chan i).cr with re := true, rxneie := true }
        rxd := submitted s.fr.hdrAddr (BitVec.ofNat 32 s.par.hdrLen) .framer } := by
  rw [armHeader, arm, chan_armReceive, if_pos rfl]

theorem otherChannels_armHeader (i : Engine) (s : State) : OtherChannels i s (armHeader i s) := fun j hj => by
  rw [armHeader, arm, chan_armReceive, if_neg hj]

/-- Settles O22: the checks pass, and `framerBegin` writes `FR` and arms the header's receive. -/
theorem framerStartArmsTheHeader : Obligations.FramerStartArmsTheHeader := by
  intro s ch i hhdr hpay hi hcap hhdrFits hpayFits hdisjoint hstopped hready
  have hgood := framerBuffersBad_of_disjoint hcap hhdrFits hpayFits hdisjoint
  have hfree : ¬ (s.fr.active = true ∨ (s.chan i).rxd.state = .busy) := by simp [hstopped, hready]
  have hexec : exec (.framerStart ch) s = .next (finish .framerStart .ok (framerBegin i s.arg0 s.arg1 s.arg2 s)) :=
    ((execFramerStart_mapped hhdr hpay hi).trans (if_neg hgood)).trans (if_neg hfree)
  exact ⟨_, hexec, by constructor <;> intros <;> rfl, otherChannels_armHeader i _, rfl, rfl, rfl, rfl,
    armHeader_chan_self i _⟩

/-- Settles O23: one branch of FRAMER_START for each failure; two buffers that share an address overlap. -/
theorem framerStartRejectsInOrder : Obligations.FramerStartRejectsInOrder := by
  intro s ch _
  refine ⟨fun hnull => ?null, fun hhdr hpay hunmapped => ?unmapped, fun i hhdr hpay hi =>
    ⟨fun hbad => ?buffers, fun hcap hhdrFits hpayFits hdisjoint hbusy => ?busy⟩⟩ <;> apply endsAtOnce_of_exec
  case null => exact execFramerStart_null hnull ch
  case unmapped => exact execFramerStart_unmapped hhdr hpay hunmapped
  case buffers =>
    refine (execFramerStart_mapped hhdr hpay hi).trans (if_pos (framerBuffersBad_iff.mpr ?_))
    rcases hbad with hcap | hhdrLeaves | hpayLeaves | ⟨a, hhdrHas, hpayHas⟩
    · exact .inl (.inl (.inl hcap))
    · exact .inl (.inl (.inr hhdrLeaves))
    · exact .inl (.inr hpayLeaves)
    · exact .inr (by omega)
  case busy =>
    have hgood := framerBuffersBad_of_disjoint hcap hhdrFits hpayFits hdisjoint
    exact ((execFramerStart_mapped hhdr hpay hi).trans (if_neg hgood)).trans (if_pos hbusy)

/-! ### SEND_FRAME -/

theorem execSendFrame_null (hpay : s.arg0 = 0#32) (hlen : s.arg1 ≠ 0#32) (ch : Nat) :
    execSendFrame ch s = .next (finish .sendFrame .nullReference s) := if_pos ⟨hpay, by bv_omega⟩

section
variable (hpay : s.arg0 ≠ 0#32 ∨ s.arg1 = 0#32)
include hpay

theorem not_null_of_present : ¬ (s.arg0 = 0#32 ∧ 0#32 < s.arg1) := by bv_omega

theorem execSendFrame_unmapped (hi : chanMap s.par ch = none) :
    execSendFrame ch s = .next (finish .sendFrame .invalidChannel s) := by
  simp only [execSendFrame, not_null_of_present hpay, hi, if_false]

theorem execSendFrame_mapped (hi : chanMap s.par ch = some i) :
    execSendFrame ch s =
      if leavesMemory s.arg0.toNat s.arg1.toNat then .next (finish .sendFrame .invalidArgument s)
      else if (s.chan i).txd.state = .busy then .next (finish .sendFrame .busy s)
      else
        .next ((holdTx i s).setCmdState (.sendFrame i (headerEncode s.par s.arg2 s.arg1) s.arg0 s.arg1 0 0)) := by
  simp only [execSendFrame, not_null_of_present hpay, hi, if_false]

end

/-- Settles O24: the checks pass, and the start step holds the transmit direction. -/
theorem sendFrameStarts : Obligations.SendFrameStarts := by
  intro s ch i hpay hi hfits hready
  have hfree : ¬ (s.chan i).txd.state = .busy := by simp [hready]
  have hexec : exec (.sendFrame ch) s = _ :=
    ((execSendFrame_mapped hpay hi).trans (if_neg (leavesMemory_iff.not.mpr hfits.not_gt))).trans (if_neg hfree)
  rw [holdTx_eq] at hexec
  refine ⟨_, hexec, starts_of_updChan i _ _ s, ?_⟩
  rw [setCmdState_chan, chan_updChan_self]
  rfl

/-- Settles O25: one branch of SEND_FRAME for each failure. -/
theorem sendFrameRejectsInOrder : Obligations.SendFrameRejectsInOrder := by
  intro s ch
  refine ⟨fun hpay hlen => ?null, fun hpay hunmapped => ?unmapped, fun i hpay hi =>
    ⟨fun hleaves => ?range, fun hfits hbusy => ?busy⟩⟩ <;> apply endsAtOnce_of_exec
  case null => exact execSendFrame_null hpay hlen ch
  case unmapped => exact execSendFrame_unmapped hpay hunmapped
  case range => exact (execSendFrame_mapped hpay hi).trans (if_pos (leavesMemory_iff.mpr hleaves))
  case busy =>
    exact ((execSendFrame_mapped hpay hi).trans (if_neg (leavesMemory_iff.not.mpr hfits.not_gt))).trans (if_pos hbusy)

end Sys2Proof.Machine
end

section
/-! The polls of SEND_FRAME (43_framer.md R168): what one of them does, and the frame on the wire where a line step
follows each of them (40_serial_fifo.md R108). -/

namespace Sys2Proof.Machine

variable {s : State} {i : Engine} {hb : List Byte} {pay len : Word} {pos k : Nat} {b : Byte} {rest : List Action}

/-! ### One poll -/

theorem act_poll_sendFrame (h : s.cmdState = .sendFrame i hb pay len pos k) :
    act .poll s = pollSendFrame i hb pay len pos k s := by
  simp only [act, pollStep, h]

/-- The frame of SEND_FRAME has byte `b` at position `pos`: a header byte, or a payload byte that memory admits. -/
def FrameByte (s : State) (hb : List Byte) (pay : Word) (pos : Nat) (b : Byte) : Prop :=
  (pos < s.par.hdrLen ∧ hb[pos]? = some b) ∨
    (s.par.hdrLen ≤ pos ∧ readAdmitted s.par (pay.toNat + pos - s.par.hdrLen) = true ∧
      b = s.mem.read (pay.toNat + pos - s.par.hdrLen))

section
variable (hroom : (s.chan i).txf.length < s.par.txDepth)
include hroom

theorem pollSendFrame_room (hbyte : FrameByte s hb pay pos b) (len : Word) (k : Nat) :
    pollSendFrame i hb pay len pos k s = .next (frameBytePushed i hb pay len pos b s) := by
  rw [pollSendFrame, if_pos (txe_iff.mpr hroom)]
  rcases hbyte with ⟨hheader, hget⟩ | ⟨hpayload, hadmitted, rfl⟩
  · rw [if_pos hheader, hget]
  · have hread : memRead (framePayloadAddr s.par pay pos) s = .ok _ := memRead_ok.mpr ⟨hadmitted, rfl⟩
    rw [if_neg hpayload.not_gt, hread]
    rfl

theorem pollSendFrame_refused (hpayload : s.par.hdrLen ≤ pos)
    (hrefused : readAdmitted s.par (pay.toNat + pos - s.par.hdrLen) = false) (hb : List Byte) (len : Word) (k : Nat) :
    pollSendFrame i hb pay len pos k s = .next (raise (.busError (pay.toNat + pos - s.par.hdrLen)) s) := by
  have hread : memRead (framePayloadAddr s.par pay pos) s = .error _ := memRead_error.mpr ⟨hrefused, rfl⟩
  rw [pollSendFrame, if_pos (txe_iff.mpr hroom), if_neg hpayload.not_gt, hread]
  rfl

end

theorem pollSendFrame_full (hfull : s.par.txDepth ≤ (s.chan i).txf.length) (hb : List Byte) (pay len : Word)
    (pos k : Nat) :
    pollSendFrame i hb pay len pos k s =
      .next (if k + 1 = s.par.spinBound then endTx .sendFrame i .timeout s
        else s.setCmdState (.sendFrame i hb pay len pos (k + 1))) := by
  rw [pollSendFrame, if_neg (txe_iff.not.mpr hfull.not_gt)]
  split <;> rfl

/-- The last byte of a blocking send pushed, and the transmit direction given back, as one update of the channel. -/
theorem endTx_txPush (op : CmdOp) (i : Engine) (code : ResultCode) (b : Byte) (s : State) :
    endTx op i code (txPush i b s) =
      finish op code
        ((s.setCmdState .idle).updChan i fun c => { c with txd := c.txd.restore, txf := c.txf ++ [b] }) := by
  rw [endTx_eq]
  exact congrArg _ (updChan_updChan (s.setCmdState .idle) i (fun c => { c with txf := c.txf ++ [b] }) _)

theorem frameBytePushed_more (h : pos + 1 ≠ s.par.hdrLen + len.toNat) (i : Engine) (hb : List Byte) (pay : Word)
    (b : Byte) :
    frameBytePushed i hb pay len pos b s = (txPush i b s).setCmdState (.sendFrame i hb pay len (pos + 1) 0) := if_neg h

theorem frameBytePushed_last (h : pos + 1 = s.par.hdrLen + len.toNat) (i : Engine) (hb : List Byte) (pay : Word)
    (b : Byte) : frameBytePushed i hb pay len pos b s = endTx .sendFrame i .ok (txPush i b s) := if_pos h

theorem otherChannels_txPush (i : Engine) (b : Byte) (s : State) : OtherChannels i s (txPush i b s) :=
  otherChannels_updChan i _ s

/-- Settles O26: the poll with room and a readable byte pushes it, the one without room waits or times out, and the one
whose payload byte is refused raises. -/
theorem sendFramePollMovesOneByteOrWaits : Obligations.SendFramePollMovesOneByteOrWaits := by
  intro s i hb pay len pos k hcmd
  rw [act_poll_sendFrame hcmd]
  refine ⟨fun b hroom hbyte => ?room, fun hfull hk => ?waits, fun hfull hk => ?timeout,
    fun hroom hpayload hrefused => ?refused⟩
  case room =>
    rw [pollSendFrame_room hroom hbyte]
    refine ⟨fun hmore => ?more, fun hlast => ?last⟩
    case more =>
      rw [frameBytePushed_more hmore]
      exact ⟨_, rfl, otherChannels_txPush i b s, rfl, (chan_txPush i i b s).trans (if_pos rfl)⟩
    case last =>
      rw [frameBytePushed_last hlast, endTx_txPush]
      refine ⟨_, rfl, endsOk_of_updChan i _ _ (s.setCmdState .idle), ?_⟩
      rw [finish_chan, chan_updChan_self]
      rfl
  case waits =>
    rw [pollSendFrame_full hfull, if_neg hk]
    rfl
  case timeout =>
    rw [pollSendFrame_full hfull, if_pos hk]
    exact ⟨_, rfl, by constructor <;> intros <;> rfl, otherChannels_endTx _ _ _ _, rfl, rfl, rfl, rfl,
      chan_endTx_self ..⟩
  case refused => exact ⟨_, pollSendFrame_refused hroom hpayload hrefused hb len k, onlyFaults_raise _ s⟩

/-! ### A poll and a line step -/

/-- What a frame sent byte by byte needs of channel `i`, and what each round keeps. -/
structure Framing (i : Engine) (s : State) : Prop where
  hasChan : i.val < s.par.numChannels
  depth : 1 ≤ s.par.txDepth
  ue : (s.chan i).cr.ue = true
  te : (s.chan i).cr.te = true
  empty : (s.chan i).txf = []

theorem Framing.setAgenda (h : Framing i s) (l : List Action) : Framing i (s.setAgenda l) :=
  ⟨h.hasChan, h.depth, h.ue, h.te, h.empty⟩

theorem frameBytePushed_par (i : Engine) (hb : List Byte) (pay len : Word) (pos : Nat) (b : Byte) (s : State) :
    (frameBytePushed i hb pay len pos b s).par = s.par := by
  unfold frameBytePushed
  split <;> rfl

theorem frameBytePushed_setAgenda (i : Engine) (hb : List Byte) (pay len : Word) (pos : Nat) (b : Byte) (s : State)
    (l : List Action) :
    frameBytePushed i hb pay len pos b (s.setAgenda l) = (frameBytePushed i hb pay len pos b s).setAgenda l := by
  unfold frameBytePushed
  rw [setAgenda_par]
  split <;> rfl

/-- Whether the byte is the last one or not, the line finds it behind the bytes before it, with the enables as they
were. -/
theorem frameBytePushed_chan_self (i : Engine) (hb : List Byte) (pay len : Word) (pos : Nat) (b : Byte) (s : State) :
    ((frameBytePushed i hb pay len pos b s).chan i).txf = (s.chan i).txf ++ [b] ∧
      ((frameBytePushed i hb pay len pos b s).chan i).cr = (s.chan i).cr := by
  unfold frameBytePushed
  split
  · rw [endTx_txPush, finish_chan, chan_updChan_self]
    exact ⟨rfl, rfl⟩
  · rw [setCmdState_chan, chan_txPush, if_pos rfl]
    exact ⟨rfl, rfl⟩

/-- From an empty FIFO, a poll pushes the byte of its position and the line step sends it. -/
theorem Framing.runFor_poll_send (h : Framing i s) (hcmd : s.cmdState = .sendFrame i hb pay len pos k)
    (hbyte : FrameByte s hb pay pos b) (hagenda : s.agenda = .poll :: .lineTx i :: rest) :
    runFor 2 s = .next (wired i b (frameBytePushed i hb pay len pos b (s.setAgenda rest))) := by
  have hroom : (s.chan i).txf.length < s.par.txDepth := by rw [h.empty]; exact h.depth
  obtain ⟨htxf, hcr⟩ := frameBytePushed_chan_self i hb pay len pos b (s.setAgenda rest)
  have hpoll : act .poll (s.setAgenda (.lineTx i :: rest)) =
      .next (frameBytePushed i hb pay len pos b (s.setAgenda (.lineTx i :: rest))) :=
    (act_poll_sendFrame (s := s.setAgenda (.lineTx i :: rest)) hcmd).trans
      (pollSendFrame_room (s := s.setAgenda (.lineTx i :: rest)) hroom hbyte len k)
  have hsend : act (.lineTx i) (frameBytePushed i hb pay len pos b (s.setAgenda rest)) =
      .next (wired i b (frameBytePushed i hb pay len pos b (s.setAgenda rest))) := by
    refine lineTxStep_eq_next_iff.mpr ⟨b, [], ?_, ?_, ?_, ?_, rfl⟩
    · rw [htxf, setAgenda_chan, h.empty, List.nil_append]
    · rw [frameBytePushed_par]
      exact h.hasChan
    · rw [hcr]
      exact h.ue
    · rw [hcr]
      exact h.te
  rw [frameBytePushed_setAgenda] at hpoll hsend ⊢
  rw [runFor_succ ((step_of_agenda hagenda).trans hpoll)]
  exact runFor_succ ((step_of_agenda rfl).trans hsend)

/-! ### Any number of rounds -/

/-- The bytes of a frame in the order of the wire: the header, then the payload. -/
def frameBytes (m : Memory) (hb : List Byte) (pay len : Word) : List Byte := hb ++ bufferBytes m pay.toNat len.toNat

theorem length_frameBytes (m : Memory) (hb : List Byte) (pay len : Word) :
    (frameBytes m hb pay len).length = hb.length + len.toNat := by
  simp [frameBytes, bufferBytes]

/-- Byte `n` of the frame is the one its poll at position `n` pushes. -/
theorem frameByte_getElem (hlen : hb.length = s.par.hdrLen)
    (hadmitted : ∀ k, k < len.toNat → readAdmitted s.par (pay.toNat + k) = true) {n : Nat}
    (hn : n < (frameBytes s.mem hb pay len).length) : FrameByte s hb pay n (frameBytes s.mem hb pay len)[n] := by
  by_cases hheader : n < hb.length
  · refine .inl ⟨hlen ▸ hheader, ?_⟩
    simp [frameBytes, hheader]
  · rw [length_frameBytes] at hn
    have haddr : pay.toNat + n - s.par.hdrLen = pay.toNat + (n - hb.length) := by omega
    refine .inr ⟨by omega, ?_, ?_⟩
    · rw [haddr]
      exact hadmitted _ (by omega)
    · simp [frameBytes, bufferBytes, List.getElem_append_right (Nat.le_of_not_lt hheader), haddr]

/-- A byte pushed to an empty FIFO and sent leaves the channel as it was. -/
theorem wired_txPush (hempty : (s.chan i).txf = []) (b : Byte) : wired i b (txPush i b s) = emit (.wireOut i b) s := by
  have hsame : ({ s.chan i with txf := ((s.chan i).txf ++ [b]).tail } : Channel) = s.chan i := by
    rw [hempty, List.nil_append, List.tail_cons, ← hempty]
  rw [wired, txDrop, txPush, updChan_updChan, State.updChan, hsame]
  simp [State.chan]

theorem wired_setCmdState (i : Engine) (b : Byte) (c : CmdState) (s : State) :
    wired i b (s.setCmdState c) = (wired i b s).setCmdState c := rfl

theorem txPush_setCmdState (i : Engine) (b : Byte) (c : CmdState) (s : State) :
    txPush i b (s.setCmdState c) = (txPush i b s).setCmdState c := rfl

theorem setCmdState_setCmdState (s : State) (c d : CmdState) : (s.setCmdState c).setCmdState d = s.setCmdState d := rfl

theorem endTx_setCmdState (op : CmdOp) (i : Engine) (code : ResultCode) (c : CmdState) (s : State) :
    endTx op i code (s.setCmdState c) = endTx op i code s := rfl

/-- `bytes` put on the wire of channel `i`, with no other effect. -/
def onWire (i : Engine) (bytes : List Byte) (s : State) : State :=
  { s with events := s.events ++ bytes.map (.wireOut i) }

theorem onWire_nil (i : Engine) (s : State) : onWire i [] s = s := by
  simp [onWire]

theorem onWire_concat (i : Engine) (bytes : List Byte) (b : Byte) (s : State) :
    onWire i (bytes ++ [b]) s = emit (.wireOut i b) (onWire i bytes s) := by
  simp [onWire, emit]

@[simp] theorem onWire_chan (i : Engine) (bytes : List Byte) (s : State) (j : Engine) :
    (onWire i bytes s).chan j = s.chan j := rfl

/-- The state after the last round: `b` has gone out behind `bytes`, and the command has ended. -/
def frameEnded (i : Engine) (bytes : List Byte) (b : Byte) (s : State) : State :=
  wired i b (endTx .sendFrame i .ok (txPush i b (onWire i bytes s)))

theorem frameEnded_writes (i : Engine) (bytes : List Byte) (b : Byte) (s : State) :
    frameEnded i bytes b s =
      { s with
        result := .ok, events := (frameEnded i bytes b s).events, cmdState := .idle
        chans := (frameEnded i bytes b s).chans } := by
  apply State.ext_chan
  case chan => exact fun j => chan_congr (by dsimp only) j
  case events => dsimp only
  all_goals simp [frameEnded, wired, endTx_eq, onWire]

theorem frameEnded_wireBytes (i : Engine) (bytes : List Byte) (b : Byte) (s : State) :
    wireBytes i (frameEnded i bytes b s).events = wireBytes i s.events ++ (bytes ++ [b]) := by
  have hevents : (frameEnded i bytes b s).events =
      s.events ++ bytes.map (.wireOut i) ++ [.cmdDone .sendFrame .ok] ++ [b].map (.wireOut i) := rfl
  have hdone : wireBytes i [.cmdDone .sendFrame .ok] = [] := rfl
  rw [hevents, wireBytes_append, wireBytes_append, wireBytes_append, hdone, List.append_nil, wireBytes_wireOut,
    wireBytes_wireOut, List.append_assoc]

theorem otherChannels_frameEnded (i : Engine) (bytes : List Byte) (b : Byte) (s : State) :
    OtherChannels i s (frameEnded i bytes b s) :=
  ((otherChannels_txPush i b (onWire i bytes s)).trans (otherChannels_endTx _ i _ _)).trans
    (otherChannels_wired i b _)

theorem frameEnded_chan_self (hempty : (s.chan i).txf = []) (bytes : List Byte) (b : Byte) :
    (frameEnded i bytes b s).chan i = { s.chan i with txd := (s.chan i).txd.restore } := by
  have hchan : (endTx .sendFrame i .ok (txPush i b (onWire i bytes s))).chan i =
      { s.chan i with txd := (s.chan i).txd.restore, txf := [b] } := by
    rw [chan_endTx_self, chan_txPush, if_pos rfl, onWire_chan, hempty, List.nil_append]
  rw [frameEnded, wired_chan_self (by rw [hchan]), hchan, ← hempty]

/-- The state after `n` rounds: the first `n` bytes of the frame are on the wire, and the poll for the next one is
pending. -/
def framed (i : Engine) (hb : List Byte) (pay len : Word) (frame : List Byte) (n : Nat) (s : State) : State :=
  (onWire i (frame.take n) s).setCmdState (.sendFrame i hb pay len n 0)

theorem Framing.framed (h : Framing i s) (hb : List Byte) (pay len : Word) (frame : List Byte) (n : Nat) :
    Framing i (framed i hb pay len frame n s) := ⟨h.hasChan, h.depth, h.ue, h.te, h.empty⟩

theorem framed_zero (hcmd : s.cmdState = .sendFrame i hb pay len 0 0) (frame : List Byte) :
    framed i hb pay len frame 0 s = s := by
  rw [framed, List.take_zero, onWire_nil, ← hcmd]
  rfl

theorem pollAndSend_succ (i : Engine) (n : Nat) (rest : List Action) :
    pollAndSend i (n + 1) ++ rest = pollAndSend i n ++ (.poll :: .lineTx i :: rest) := by
  simp [pollAndSend, List.replicate_succ']

section
variable {frame : List Byte} {n : Nat} (hlen : frame.length = s.par.hdrLen + len.toNat)
include hlen

/-- A byte that is not the last leaves the FIFO empty again: the state of one round more. -/
theorem wired_framed_more (hempty : (s.chan i).txf = []) (hn : n + 1 < frame.length) :
    wired i frame[n] (frameBytePushed i hb pay len n frame[n] (framed i hb pay len frame n s)) =
      framed i hb pay len frame (n + 1) s := by
  have hmore : n + 1 ≠ (framed i hb pay len frame n s).par.hdrLen + len.toNat := by
    rw [hlen] at hn
    exact hn.ne
  rw [frameBytePushed_more hmore, framed, txPush_setCmdState, setCmdState_setCmdState, wired_setCmdState,
    wired_txPush (s := onWire i _ s) hempty, ← onWire_concat, List.take_append_getElem, framed]

theorem wired_framed_last (hn : frame.length = n + 1) :
    wired i frame[n] (frameBytePushed i hb pay len n frame[n] (framed i hb pay len frame n s)) =
      frameEnded i (frame.take n) frame[n] s := by
  have hlast : n + 1 = (framed i hb pay len frame n s).par.hdrLen + len.toNat := hn.symm.trans hlen
  rw [frameBytePushed_last hlast, framed, txPush_setCmdState, endTx_setCmdState, frameEnded]

end

section
variable {frame : List Byte} {n : Nat} (h : Framing i s) (hcmd : s.cmdState = .sendFrame i hb pay len 0 0)
  (hlen : frame.length = s.par.hdrLen + len.toNat)
  (hbytes : ∀ (k : Nat) (hk : k < frame.length), FrameByte s hb pay k frame[k])
include h hbytes

/-- The round in which byte `n` goes out. -/
theorem runFor_framed_round (hn : n < frame.length)
    (hrun : runFor (2 * n) s = .next (framed i hb pay len frame n (s.setAgenda (.poll :: .lineTx i :: rest)))) :
    runFor (2 * (n + 1)) s =
      .next (wired i frame[n] (frameBytePushed i hb pay len n frame[n]
        (framed i hb pay len frame n (s.setAgenda rest)))) := by
  rw [Nat.mul_add, runFor_add hrun]
  exact ((h.setAgenda _).framed ..).runFor_poll_send rfl (hbytes n hn) rfl

include hcmd hlen

theorem runFor_framed (hn : n < frame.length) (hagenda : s.agenda = pollAndSend i n ++ rest) :
    runFor (2 * n) s = .next (framed i hb pay len frame n (s.setAgenda rest)) := by
  induction n generalizing rest with
  | zero =>
    rw [setAgenda_of_agenda_eq (l := rest) hagenda, framed_zero hcmd]
    rfl
  | succ n ih =>
    rw [pollAndSend_succ] at hagenda
    rw [runFor_framed_round h hbytes (by omega) (ih (by omega) hagenda)]
    exact congrArg _ (wired_framed_more (s := s.setAgenda rest) hlen h.empty hn)

theorem runFor_frameEnded (hn : frame.length = n + 1) (hagenda : s.agenda = pollAndSend i (n + 1) ++ rest) :
    runFor (2 * (n + 1)) s = .next (frameEnded i (frame.take n) frame[n] (s.setAgenda rest)) := by
  rw [pollAndSend_succ] at hagenda
  rw [runFor_framed_round h hbytes (by omega) (runFor_framed h hcmd hlen hbytes (by omega) hagenda)]
  exact congrArg _ (wired_framed_last (s := s.setAgenda rest) hlen hn)

end

/-- Settles O27: by induction on the bytes of the frame, of which each but the last is a round that leaves the channel
as it was, and the last one ends the command. -/
theorem sendFrameWiresHeaderThenPayload : Obligations.SendFrameWiresHeaderThenPayload := by
  intro s i hb pay len rest hp hi hcmd hhb hempty hue hte hadmitted hagenda
  obtain ⟨-, -, -, -, -, hdepth, -, -, hhdr, -⟩ := hp
  have hlen : (frameBytes s.mem hb pay len).length = s.par.hdrLen + len.toNat := by rw [length_frameBytes, hhb]
  obtain ⟨n, hn⟩ : ∃ n, s.par.hdrLen + len.toNat = n + 1 := Nat.exists_eq_add_of_le' (by omega)
  rw [hn] at hagenda ⊢
  have hrun := runFor_frameEnded ⟨hi, hdepth, hue, hte, hempty⟩ hcmd hlen
    (fun _ hk => frameByte_getElem hhb hadmitted hk) (hlen.trans hn) hagenda
  refine ⟨frameEnded i ((frameBytes s.mem hb pay len).take n) (frameBytes s.mem hb pay len)[n] (s.setAgenda rest), hrun,
    frameEnded_writes i _ _ (s.setAgenda rest), ?wire, otherChannels_frameEnded i _ _ (s.setAgenda rest),
    frameEnded_chan_self (s := s.setAgenda rest) hempty _ _⟩
  case wire =>
    rw [frameEnded_wireBytes, List.take_append_getElem, List.take_of_length_le (hlen.trans hn).le, frameBytes,
      List.append_assoc]
    rfl

end Sys2Proof.Machine
end

section
/-! The action of the frame parser (43_framer.md R163 to R166): what a buffer's bytes lead to where memory admits them
all, and the bus error where it refuses one. -/

namespace Sys2Proof.Machine

variable {s t : State} {i : Engine} {id len : Word} {p bytes : List Byte}

/-! ### Dispatch -/

theorem dispatch_unmapped (hid : id ∉ s.par.dispatchIds) (p : List Byte) :
    dispatch id p s = frameRejected .unmappedId s := if_neg hid

section
variable (hid : id ∈ s.par.dispatchIds)
include hid

theorem dispatch_undecodable (h : payloadDecode s.par id p = none) :
    dispatch id p s = frameRejected .decodeFailure s := by
  simp only [dispatch, if_pos hid, h]

theorem dispatch_handled {m : Message} (h : payloadDecode s.par id p = some m) :
    dispatch id p s =
      setIrq frameDoneBit ((emit (.handlerCall id m) s).updFr fun f => { f with lastResult := .ok }) := by
  simp only [dispatch, if_pos hid, h]

end

/-- Settles O35: the three outcomes of Dispatch; `FRAME_ERR` is bit 17 and `FRAME_DONE` bit 16. -/
theorem dispatchChecksTheIdentifierFirst : Obligations.DispatchChecksTheIdentifierFirst := by
  intro s id p
  refine ⟨fun hid => ?unmapped, fun hid hnone => ?undecodable, fun m hid hsome => ?handled⟩
  case unmapped =>
    rw [dispatch_unmapped hid]
    rfl
  case undecodable =>
    rw [dispatch_undecodable hid hnone]
    rfl
  case handled =>
    rw [dispatch_handled hid hsome]
    rfl

/-! ### The buffer of a completed receive -/

/-- The first refused byte of a buffer stops its reading (20_memory.md R66). -/
theorem memReadList_refused {a n k : Nat} (hk : k < n) (hbefore : ∀ j, j < k → readAdmitted s.par (a + j) = true)
    (hrefused : readAdmitted s.par (a + k) = false) : memReadList a n s = .error (.busError (a + k)) := by
  rcases memReadList_cases a n s with ⟨-, hadmitted⟩ | ⟨l, -, hl, hbelow, hread⟩
  · simp [hadmitted k hk] at hrefused
  · rcases Nat.lt_trichotomy k l with h | rfl | h
    · simp [hbelow k h] at hrefused
    · exact hread
    · simp [hbefore l h] at hl

section
variable (hstate : s.fr.state = .headerWait)
include hstate

theorem framerOnRx_header (hadmitted : ∀ k, k < s.par.hdrLen → readAdmitted s.par (s.fr.hdrAddr.toNat + k) = true) :
    framerOnRx i s = .go (headerParsed i (bufferBytes s.mem s.fr.hdrAddr.toNat s.par.hdrLen) s) := by
  simp only [framerOnRx, hstate, headerDone, memReadList_ok hadmitted, bufferBytes]

theorem framerOnRx_header_refused {k : Nat} (hk : k < s.par.hdrLen)
    (hbefore : ∀ j, j < k → readAdmitted s.par (s.fr.hdrAddr.toNat + j) = true)
    (hrefused : readAdmitted s.par (s.fr.hdrAddr.toNat + k) = false) :
    framerOnRx i s = .stop (raise (.busError (s.fr.hdrAddr.toNat + k)) s) := by
  simp only [framerOnRx, hstate, headerDone, memReadList_refused hk hbefore hrefused]

end

section
variable (hstate : s.fr.state = .payloadWait)
include hstate

theorem framerOnRx_payload
    (hadmitted : ∀ k, k < s.fr.lastLen.toNat → readAdmitted s.par (s.fr.payAddr.toNat + k) = true) :
    framerOnRx i s = .go (payloadParsed i (bufferBytes s.mem s.fr.payAddr.toNat s.fr.lastLen.toNat) s) := by
  simp only [framerOnRx, hstate, payloadDone, memReadList_ok hadmitted, bufferBytes]

theorem framerOnRx_payload_refused {k : Nat} (hk : k < s.fr.lastLen.toNat)
    (hbefore : ∀ j, j < k → readAdmitted s.par (s.fr.payAddr.toNat + j) = true)
    (hrefused : readAdmitted s.par (s.fr.payAddr.toNat + k) = false) :
    framerOnRx i s = .stop (raise (.busError (s.fr.payAddr.toNat + k)) s) := by
  simp only [framerOnRx, hstate, payloadDone, memReadList_refused hk hbefore hrefused]

end

/-- What the parser's action leaves as it was where it does not raise. -/
theorem framerOnRx_frame (h : framerOnRx i s = .go t) :
    ServiceFrame s t ∧ OtherChannels i s t ∧ ∀ a, t.mem.read a = s.mem.read a := by
  have hframe := serviceFrame_framerOnRx i s
  have hothers := (KeepsTransmit.refl i s).framerOnRx.others
  have hmem := framerOnRx_mem i s
  rw [h] at hframe hothers hmem
  exact ⟨hframe, hothers, fun a => congrArg (·.read a) hmem⟩

/-! ### The header -/

theorem headerParsed_rejected
    (h : headerDecode s.par bytes = none ∨ ∃ id len, headerDecode s.par bytes = some (id, len) ∧ s.fr.payCap < len) :
    headerParsed i bytes s = armHeader i (frameRejected .decodeFailure s) := by
  rcases h with hnone | ⟨id, len, hsome, hlong⟩
  · simp only [headerParsed, hnone]
  · simp only [headerParsed, hsome, if_pos hlong]

theorem headerParsed_accepted (hdecode : headerDecode s.par bytes = some (id, len)) (hfits : len ≤ s.fr.payCap) :
    headerParsed i bytes s = headerAccepted i id len s := by
  simp only [headerParsed, hdecode, if_neg (BitVec.not_lt.mpr hfits)]

theorem headerAccepted_payload (hlen : len ≠ 0#32) (i : Engine) (id : Word) (s : State) :
    headerAccepted i id len s =
      (armReceive i s.fr.payAddr len .framer s).updFr fun f =>
        { f with lastId := id, lastLen := len, state := .payloadWait } := by
  simp only [headerAccepted, if_neg hlen]
  rfl

/-- Settles O33: the decoded header is accepted with a payload to come. -/
theorem acceptedHeaderArmsThePayload : Obligations.AcceptedHeaderArmsThePayload := by
  intro s i id len hstate hadmitted hdecode hlen hfits
  have hrun := framerOnRx_header (i := i) hstate hadmitted
  rw [headerParsed_accepted hdecode hfits, headerAccepted_payload hlen] at hrun
  obtain ⟨hframe, hothers, hmem⟩ := framerOnRx_frame hrun
  refine ⟨_, hrun, hframe, hothers, hmem, rfl, rfl, rfl, rfl, ?_⟩
  rw [updFr_chan, chan_armReceive, if_pos rfl]
  rfl

/-- Settles O34: a rejected header sets DecodeFailure and bit 17 before the re-arm, and a refused read raises. -/
theorem rejectedHeaderRearmsTheHeader : Obligations.RejectedHeaderRearmsTheHeader := by
  refine ⟨fun s i hstate hadmitted hrejected => ?rejected, fun s i k hstate hk hbefore hrefused => ?refused⟩
  case rejected =>
    have hrun := framerOnRx_header (i := i) hstate hadmitted
    rw [headerParsed_rejected hrejected] at hrun
    obtain ⟨hframe, hothers, hmem⟩ := framerOnRx_frame hrun
    exact ⟨_, hrun, hframe, hothers, hmem, rfl, rfl, rfl, fun b hb => getLsbD_or_bit s.irqStatus frameErrBit hb,
      armHeader_chan_self i _⟩
  case refused => exact ⟨_, framerOnRx_header_refused hstate hk hbefore hrefused, onlyFaults_raise _ s⟩

/-! ### Dispatch and the re-arm -/

theorem dispatch_faults (id : Word) (p : List Byte) (s : State) : (dispatch id p s).faults = s.faults := by
  unfold dispatch
  split
  · split <;> rfl
  · rfl

/-- What the parser does once a frame has been dispatched: a header receive armed, in HeaderWait (43_framer.md R165). -/
def rearmed (i : Engine) (s : State) : State := (armHeader i s).updFr fun f => { f with state := .headerWait }

theorem payloadParsed_eq_rearmed (i : Engine) (p : List Byte) (s : State) :
    payloadParsed i p s = rearmed i (dispatch s.fr.lastId p s) := rfl

theorem rearmed_of_headerWait (h : s.fr.state = .headerWait) (i : Engine) : rearmed i s = armHeader i s := by
  have hsame : { s.fr with state := .headerWait } = s.fr := by rw [← h]
  show { armHeader i s with fr := { s.fr with state := .headerWait } } = armHeader i s
  rw [hsame]
  rfl

theorem rearmed_chan_self (i : Engine) (s : State) :
    (rearmed i s).chan i =
      { s.chan i with
        cr := { (s.chan i).cr with re := true, rxneie := true }
        rxd := submitted s.fr.hdrAddr (BitVec.ofNat 32 s.par.hdrLen) .framer } := armHeader_chan_self i s

/-- An empty payload is dispatched in HeaderWait, so the re-arm need not write the state (43_framer.md R164). -/
theorem headerAccepted_empty (hstate : s.fr.state = .headerWait) (i : Engine) (id : Word) :
    headerAccepted i id 0#32 s =
      rearmed i (dispatch id [] (s.updFr fun f => { f with lastId := id, lastLen := 0#32 })) := by
  obtain ⟨hfr, -, -⟩ := dispatch_fr id [] (s.updFr fun f => { f with lastId := id, lastLen := 0#32 })
  rw [rearmed_of_headerWait (by rw [hfr]; exact hstate), headerAccepted, if_pos rfl]

/-- Settles O36: both ways to a dispatch go through `rearmed`, and a refused read raises. -/
theorem dispatchIsFollowedByAHeaderRearm : Obligations.DispatchIsFollowedByAHeaderRearm := by
  refine ⟨fun s i id p before hcases => ?dispatched, fun s i k hstate hk hbefore hrefused => ?refused⟩
  case dispatched =>
    obtain ⟨hrun, hhdr⟩ : framerOnRx i s = .go (rearmed i (dispatch id p { s with fr := before })) ∧
        before.hdrAddr = s.fr.hdrAddr := by
      rcases hcases with ⟨hstate, rfl, rfl, hadmitted, hdecode⟩ | ⟨hstate, rfl, rfl, hadmitted, rfl⟩
      · rw [framerOnRx_header hstate hadmitted, headerParsed_accepted hdecode (BitVec.le_def.mpr (Nat.zero_le _)),
          headerAccepted_empty hstate]
        exact ⟨rfl, rfl⟩
      · rw [framerOnRx_payload hstate hadmitted, payloadParsed_eq_rearmed]
        exact ⟨rfl, rfl⟩
    obtain ⟨hframe, hothers, hmem⟩ := framerOnRx_frame hrun
    obtain ⟨hfr, hchan, hpar⟩ := dispatch_fr id p { s with fr := before }
    refine ⟨_, hrun, hframe, hothers, hmem, dispatch_faults id p _, rfl, rfl, rfl, ?_⟩
    rw [rearmed_chan_self, hchan, hfr, hpar, ← hhdr]
    rfl
  case refused => exact ⟨_, framerOnRx_payload_refused hstate hk hbefore hrefused, onlyFaults_raise _ s⟩

end Sys2Proof.Machine
end

section
/-! When the SEQ can serve a channel (60_exceptions.md R195), and the host interrupt line (R198, R199). -/

namespace Sys2Proof.Machine

variable {s : State}

/-- Settles O28: the pending invocation runs exactly on a request of a channel that exists. -/
theorem serviceRunsExactlyOnRequest : Obligations.ServiceRunsExactlyOnRequest := by
  intro s i rest hagenda
  have hrequest := serviceRequest_iff (s := s.setAgenda rest) (i := i)
  simp only [step_of_agenda hagenda, act_svc_eq_next_iff, hrequest, setAgenda_par, setAgenda_chan, exists_and_left,
    exists_eq', and_true]

/-! ### The host interrupt line -/

/-- A word is not 0 exactly when one of its bits is set. -/
theorem ne_zero_iff_exists_bit {w : Word} : w ≠ 0#32 ↔ ∃ b, b < 32 ∧ w.getLsbD b = true := by
  rw [← not_iff_not, not_not, BitVec.zero_iff_eq_false]
  constructor
  · rintro h ⟨b, -, hb⟩
    simp [h b] at hb
  · intro h b
    by_contra hb
    have hset : w.getLsbD b = true := by simpa using hb
    exact h ⟨b, BitVec.lt_of_getLsbD hset, hset⟩

theorem getLsbD_irqWords {b : Nat} (hb : b < 32) :
    (irqStatusWord s &&& irqEnableWord s).getLsbD b = true ↔
      (b < 2 * s.par.numChannels ∨ b = 16 ∨ b = 17) ∧ s.irqStatus.getLsbD b = true ∧ s.irqEnable.getLsbD b = true := by
  simp only [irqStatusWord, irqEnableWord, BitVec.getLsbD_and, getLsbD_irqMask _ hb, Bool.and_eq_true, Bool.or_eq_true,
    decide_eq_true_eq, beq_iff_eq]
  tauto

theorem irqOut_iff :
    irqOut s = true ↔
      ∃ b, (b < 2 * s.par.numChannels ∨ b = 16 ∨ b = 17) ∧ b < 32 ∧ s.irqStatus.getLsbD b = true ∧
        s.irqEnable.getLsbD b = true := by
  rw [irqOut, decide_eq_true_iff, ne_zero_iff_exists_bit]
  refine exists_congr fun b => ?_
  rw [and_left_comm]
  exact and_congr_right getLsbD_irqWords

/-- The status that is left after its read value was written to it (20_memory.md R69) has no bit that exists. -/
theorem irqOut_acknowledged (s : State) : irqOut (writeReg .irqStatus (irqStatusWord s) s) = false := by
  rw [← Bool.not_eq_true, irqOut_iff]
  rintro ⟨b, hexists, hb, hstatus, -⟩
  change b < 2 * s.par.numChannels ∨ b = 16 ∨ b = 17 at hexists
  change (s.irqStatus &&& ~~~irqStatusWord s).getLsbD b = true at hstatus
  have hmask : (irqMask s.par).getLsbD b = true := by
    rw [getLsbD_irqMask _ hb]
    simpa [or_assoc] using hexists
  rw [getLsbD_and_not, irqStatusWord, BitVec.getLsbD_and, hmask, Bool.and_true, Bool.and_not_self] at hstatus
  cases hstatus

/-- Settles O47: `irqOut_iff`, and the write clears each bit that it reads as 1. -/
theorem acknowledgingLowersIrqOut : Obligations.AcknowledgingLowersIrqOut := by
  intro s
  refine ⟨irqOut_iff, fun hidle => ⟨_, ?_, irqOut_acknowledged s⟩⟩
  exact (act_host_of_idle hidle _).trans (regWrite_aligned (off := 0x018#10) rfl nofun _)

end Sys2Proof.Machine
end

section
/-! What a step records (60_exceptions.md R192; 10_state.md R32): it adds to the event history and to the fault set, and
only the receive branch can raise InvariantBroken, where its cursor is at the length (41_transfer_engine.md R127). -/

namespace Sys2Proof.Machine

variable {s t u : State} {n : Nat} {P : Set ModelFault} {i : Engine}

/-- `t` is `s` with at most `n` events more and at most one fault more, which is one of `P`. -/
structure Adds (n : Nat) (P : Set ModelFault) (s t : State) : Prop where
  par : t.par = s.par
  faults : t.faults = s.faults ∨ ∃ f ∈ P, t.faults = s.faults ++ [f]
  events : ∃ e, t.events = s.events ++ e ∧ e.length ≤ n

/-- A piece of pseudocode adds a fault only where it stops. -/
def FlowAdds (n : Nat) (P : Set ModelFault) (s : State) : Flow → Prop
  | .go t => Adds n ∅ s t
  | .stop t => Adds n P s t

/-- Every fault but the one of the unreachable branch of 41_transfer_engine.md R127. -/
def ordinaryFaults : Set ModelFault := { f | ∀ i, f ≠ .invariantBroken i }

namespace Adds

theorem nothing (hp : t.par = s.par) (hf : t.faults = s.faults) (he : t.events = s.events) : Adds n P s t :=
  ⟨hp, .inl hf, [], by rw [he, List.append_nil], Nat.zero_le n⟩

theorem event {e : Event} (hp : t.par = s.par) (hf : t.faults = s.faults) (he : t.events = s.events ++ [e]) :
    Adds (n + 1) P s t :=
  ⟨hp, .inl hf, [e], he, Nat.succ_le_succ (Nat.zero_le n)⟩

theorem fault {f : ModelFault} (hf : f ∈ P) (hp : u.par = s.par) (hfaults : u.faults = s.faults)
    (he : u.events = s.events) : Adds n P s (raise f u) := by
  refine ⟨hp, ?_, [], he.trans (List.append_nil _).symm, Nat.zero_le n⟩
  rw [raise_faults, hfaults]
  split
  · exact .inl rfl
  · exact .inr ⟨f, hf, rfl⟩

theorem faults_eq (h : Adds n ∅ s t) : t.faults = s.faults := by simpa using h.faults

theorem weaken (h : Adds n ∅ s t) : Adds n P s t := ⟨h.par, .inl h.faults_eq, h.events⟩

/-- Events add up where the first part raises nothing. -/
theorem trans {m : Nat} (h : Adds m ∅ s t) (g : Adds n P t u) : Adds (n + m) P s u := by
  obtain ⟨e, he, hm⟩ := h.events
  obtain ⟨e', he', hn⟩ := g.events
  refine ⟨g.par.trans h.par, h.faults_eq ▸ g.faults, e ++ e', ?_, ?_⟩
  · rw [he', he, List.append_assoc]
  · rw [List.length_append]
    omega

end Adds

namespace FlowAdds

theorem state {f : Flow} (h : FlowAdds n P s f) : Adds n P s f.state := by
  cases f with
  | go t => exact Adds.weaken h
  | stop t => exact h

/-- Changes before the pseudocode that record nothing. -/
theorem of_eq {f : Flow} (h : FlowAdds n P t f) (hp : t.par = s.par) (hf : t.faults = s.faults)
    (he : t.events = s.events) : FlowAdds n P s f := by
  have hbefore : Adds 0 ∅ s t := .nothing hp hf he
  cases f with
  | go u => exact hbefore.trans h
  | stop u => exact hbefore.trans h

theorem andThen {m : Nat} {f : Flow} {k : State → Flow} (h : FlowAdds m P s f)
    (hk : ∀ u, f = .go u → FlowAdds n P u (k u)) : FlowAdds (n + m) P s (f.andThen k) := by
  cases f with
  | go u =>
    have hrest := hk u rfl
    show FlowAdds (n + m) P s (k u)
    cases hku : k u with
    | go t =>
      rw [hku] at hrest
      exact Adds.trans h hrest
    | stop t =>
      rw [hku] at hrest
      exact Adds.trans h hrest
  | stop u =>
    obtain ⟨hp, hf, e, he, hm⟩ := h
    exact ⟨hp, hf, e, he, Nat.le_add_left_of_le hm⟩

end FlowAdds

/-! ### Operations that raise nothing -/

theorem sendAccepted_adds (hp : t.par = s.par) (hf : t.faults = s.faults) (he : t.events = s.events) (i : Engine) :
    Adds (n + 1) P s (sendAccepted i t) :=
  .event hp hf (congrArg (· ++ [Event.cmdDone .submitSend .ok]) he)

theorem writeReg_adds (r : Reg) (v : Word) (s : State) : Adds n P s (writeReg r v s) := by
  cases r <;> exact .nothing rfl rfl rfl

theorem frameBytePushed_adds (i : Engine) (hb : List Byte) (pay len : Word) (pos : Nat) (b : Byte) (s : State) :
    Adds (n + 1) P s (frameBytePushed i hb pay len pos b s) := by
  unfold frameBytePushed
  split
  · exact .event rfl rfl rfl
  · exact .nothing rfl rfl rfl

theorem lineRx_adds (i : Engine) (b : Byte) (s : State) : Adds (n + 1) P s (lineRx i b s) := by
  unfold lineRx
  split
  · split <;> exact .event rfl rfl rfl
  · exact .event rfl rfl rfl

theorem dispatch_adds (id : Word) (p : List Byte) (s : State) : Adds (n + 1) P s (dispatch id p s) := by
  unfold dispatch
  split
  · split
    · exact .nothing rfl rfl rfl
    · exact .event rfl rfl rfl
  · exact .nothing rfl rfl rfl

theorem headerParsed_adds (i : Engine) (bytes : List Byte) (s : State) :
    Adds (n + 1) P s (headerParsed i bytes s) := by
  unfold headerParsed headerAccepted
  split
  · exact .nothing rfl rfl rfl
  split
  · exact .nothing rfl rfl rfl
  dsimp only
  split
  · obtain ⟨hp, hf, he⟩ := dispatch_adds (n := n) (P := P) _ [] (s.updFr _)
    exact ⟨hp, hf, he⟩
  · exact .nothing rfl rfl rfl

theorem payloadParsed_adds (i : Engine) (p : List Byte) (s : State) : Adds (n + 1) P s (payloadParsed i p s) := by
  obtain ⟨hp, hf, he⟩ := dispatch_adds (n := n) (P := P) s.fr.lastId p s
  exact ⟨hp, hf, he⟩

/-! ### Reads that are refused -/

theorem memReadList_ordinary {a k : Nat} {f : ModelFault} (h : memReadList a k s = .error f) : f ∈ ordinaryFaults := by
  rcases memReadList_cases a k s with ⟨hok, -⟩ | ⟨j, -, -, -, herror⟩
  · cases hok.symm.trans h
  · cases herror.symm.trans h
    exact fun _ => nofun

theorem memRead_ordinary {a : Nat} {f : ModelFault} (h : memRead a s = .error f) : f ∈ ordinaryFaults := by
  obtain ⟨-, rfl⟩ := memRead_error.mp h
  exact fun _ => nofun

section
variable (hP : ordinaryFaults ⊆ P)
include hP

/-! ### The frame parser and the service invocation -/

theorem framerOnRx_adds (i : Engine) (s : State) : FlowAdds (n + 1) P s (framerOnRx i s) := by
  unfold framerOnRx headerDone payloadDone
  split <;> split
  · rename_i hread
    exact .fault (hP (memReadList_ordinary hread)) rfl rfl rfl
  · exact headerParsed_adds ..
  · rename_i hread
    exact .fault (hP (memReadList_ordinary hread)) rfl rfl rfl
  · exact payloadParsed_adds ..

/-- Only the parser's callback records an event. -/
theorem callback_adds {cb : Callback} (hn : cb = .framer → 1 ≤ n) (i : Engine) (bit : Nat) (s : State) :
    FlowAdds n P s (callback i bit cb s) := by
  cases cb with
  | none => exact .nothing rfl rfl rfl
  | host => exact .nothing rfl rfl rfl
  | framer =>
    obtain ⟨m, rfl⟩ := Nat.exists_eq_add_of_le' (hn rfl)
    exact framerOnRx_adds hP i s

theorem txBranch_adds (hn : (s.chan i).txd.cb = .framer → 1 ≤ n) : FlowAdds n P s (txBranch i s) := by
  unfold txBranch
  split
  · split
    · split
      · rename_i hread
        exact .fault (hP (memRead_ordinary hread)) rfl rfl rfl
      · exact .nothing rfl rfl rfl
    · refine (callback_adds hP ?_ i _ _).of_eq rfl rfl rfl
      rw [chan_updTxd, if_pos rfl, chan_updCr, if_pos rfl]
      exact hn
  · exact .nothing rfl rfl rfl

theorem rxAdvance_adds (i : Engine) (s : State) : FlowAdds (n + 1) P s (rxAdvance i s) := by
  unfold rxAdvance rxComplete
  dsimp only
  split
  · exact (callback_adds hP (fun _ => Nat.succ_le_succ (Nat.zero_le n)) i _ _).of_eq rfl rfl rfl
  · exact .nothing rfl rfl rfl

theorem rxBranch_adds
    (hbroken : (s.chan i).cr.rxneie = true → (s.chan i).rxd.len ≤ (s.chan i).rxd.cur → .invariantBroken i ∈ P) :
    FlowAdds (n + 1) P s (rxBranch i s) := by
  unfold rxBranch
  split
  · exact .nothing rfl rfl rfl
  rename_i b _ _
  split
  · rename_i hsource
    split
    · rcases memWrite_cases (s.chan i).rxd.cursorAddr b (rxDrop i s) with ⟨-, hwrite⟩ | ⟨-, hwrite⟩
      · rw [hwrite]
        exact (rxAdvance_adds hP i _).of_eq rfl rfl rfl
      · rw [hwrite]
        exact .fault (hP fun _ => nofun) rfl rfl rfl
    · rename_i hover
      exact .fault (hbroken hsource (BitVec.not_lt.mp hover)) rfl rfl rfl
  · exact .nothing rfl rfl rfl

theorem serve_adds (hn : (s.chan i).txd.cb = .framer → 1 ≤ n)
    (hbroken : ∀ u, txBranch i s = .go u → (u.chan i).cr.rxneie = true → (u.chan i).rxd.len ≤ (u.chan i).rxd.cur →
      .invariantBroken i ∈ P) : FlowAdds (n + 1) P s (serve i s) := by
  rw [Nat.add_comm]
  exact (txBranch_adds hP hn).andThen fun u htx => rxBranch_adds hP (hbroken u htx)

/-! ### The commands -/

theorem sendStart_adds (i : Engine) (addr len : Word) (cb : Callback) (s : State) :
    FlowAdds (n + 1) P s (sendStart i addr len cb s) := by
  unfold sendStart
  dsimp only
  split
  · split
    · rename_i hread
      exact .fault (hP (memRead_ordinary hread)) rfl rfl rfl
    · exact sendAccepted_adds (by simp) (by simp) (by simp) i
  · exact sendAccepted_adds (by simp) (by simp) (by simp) i

theorem Accepted.adds {c : Instr} (h : Accepted i s c t) : Adds (n + 1) P s t := by
  cases h with
  | submitSend ch hostcb => exact (sendStart_adds hP ..).state
  | init | submitRecv | framerStart => exact .event rfl rfl rfl
  | sendByte | getByte | sendFrame => exact .nothing rfl rfl rfl

theorem command_adds (w : Word) (s : State) : Leaves (Adds (n + 1) P s) (command w s) := by
  unfold command
  split
  · rename_i c _
    have houtcome := exec_outcome c s
    generalize exec c s = o at houtcome
    cases houtcome with
    | reports code => exact .event rfl rfl rfl
    | accepts mapped effect => exact effect.adds hP
  · exact .event rfl rfl rfl

/-! ### The HOST and the polls -/

theorem hostStep_adds (st : HostStmt) (s : State) : Leaves (Adds (n + 1) P s) (hostStep st s) := by
  unfold hostStep
  split
  · cases st with
    | regRead w off =>
      show Adds (n + 1) P s (regRead w off s)
      unfold regRead
      split
      · exact .nothing rfl rfl rfl
      · exact .fault (hP fun _ => nofun) rfl rfl rfl
    | regWrite w off v =>
      show Leaves _ (regWrite w off v s)
      unfold regWrite
      split
      · split
        · exact command_adds hP v s
        · exact writeReg_adds ..
      · exact .fault (hP fun _ => nofun) rfl rfl rfl
    | memRead a =>
      show Leaves _ (hostMemRead a s)
      unfold hostMemRead
      split
      · exact .fault (hP fun _ => nofun) rfl rfl rfl
      split
      · exact .fault (hP fun _ => nofun) rfl rfl rfl
      split
      · trivial
      · exact .nothing rfl rfl rfl
    | memWrite a b =>
      show Leaves _ (hostMemWrite a b s)
      unfold hostMemWrite
      split
      · exact .fault (hP fun _ => nofun) rfl rfl rfl
      split
      · exact .fault (hP fun _ => nofun) rfl rfl rfl
      split
      · trivial
      · exact .nothing rfl rfl rfl
  · trivial

theorem pollStep_adds (s : State) : Leaves (Adds (n + 1) P s) (pollStep s) := by
  unfold pollStep
  split
  case h_1 => trivial
  case h_2 i b k _ =>
    show Adds (n + 1) P s (pollSendByte i b k s)
    unfold pollSendByte
    split
    · exact .event rfl rfl rfl
    split
    · exact .event rfl rfl rfl
    · exact .nothing rfl rfl rfl
  case h_3 i k _ =>
    show Adds (n + 1) P s (pollGetByte i k s)
    unfold pollGetByte
    split
    · exact .event rfl rfl rfl
    split
    · exact .event rfl rfl rfl
    · exact .nothing rfl rfl rfl
  case h_4 i hb pay len pos k _ =>
    unfold pollSendFrame
    split
    · split
      · split
        · trivial
        · exact frameBytePushed_adds ..
      · split
        · rename_i hread
          exact .fault (hP (memRead_ordinary hread)) rfl rfl rfl
        · exact frameBytePushed_adds ..
    split
    · exact .event rfl rfl rfl
    · exact .nothing rfl rfl rfl

/-! ### Every step -/

/-- A step but reset records one event, or two where a transmit completion may run the parser (`hn`). -/
theorem act_adds (hn : ∀ i, (s.chan i).txd.cb = .framer → 1 ≤ n)
    (hbroken : ∀ i u, txBranch i s = .go u → (u.chan i).cr.rxneie = true → (u.chan i).rxd.len ≤ (u.chan i).rxd.cur →
      .invariantBroken i ∈ P) {a : Action} (ha : a ≠ .reset) (hact : act a s = .next t) : Adds (n + 1) P s t := by
  cases a with
  | host st => exact (hostStep_adds hP st s).of_next hact
  | poll => exact (pollStep_adds hP s).of_next hact
  | svc i =>
    obtain ⟨-, -, rfl⟩ := act_svc_eq_next_iff.mp hact
    exact (serve_adds hP (hn i) (hbroken i)).state
  | lineTx i =>
    obtain ⟨b, later, -, -, -, -, rfl⟩ := lineTxStep_eq_next_iff.mp hact
    exact .event rfl rfl rfl
  | lineRx i b =>
    obtain ⟨-, rfl⟩ := act_lineRx_eq_next_iff.mp hact
    exact lineRx_adds i b s
  | reset => exact absurd rfl ha

end

/-! ### The obligation -/

/-- Whatever the state, a step but reset adds at most two events and one fault. -/
theorem act_adds_two {a : Action} (ha : a ≠ .reset) (hact : act a s = .next t) : Adds 2 Set.univ s t :=
  act_adds (Set.subset_univ _) (fun _ _ => le_rfl) (fun _ _ _ _ _ => Set.mem_univ _) ha hact

/-- Under the invariant no transmit descriptor has the parser's callback, so a step adds at most one event. -/
theorem Inv.act_adds_one (h : Inv s) {a : Action} (ha : a ≠ .reset) (hact : act a s = .next t) :
    Adds 1 Set.univ s t :=
  act_adds (n := 0) (Set.subset_univ _) (fun i hcb => absurd hcb (h.bounded.channels i).txCallback)
    (fun _ _ _ _ _ => Set.mem_univ _) ha hact

/-- An armed receive has its cursor below its length (10_state.md R33 (I2), (I3)). -/
theorem Linked.armed_cursor_lt (h : Linked s) (hsource : (s.chan i).cr.rxneie = true) :
    (s.chan i).rxd.cur < (s.chan i).rxd.len := by
  obtain ⟨hbusy, hasync⟩ := (h.channels i).rxSource.mp hsource
  exact (h.channels i).rxCursor hbusy hasync

/-- In a fault-free state with the invariant the unreachable branch is not taken: the transmit branch keeps `Linked`. -/
theorem Inv.act_adds_ordinary (h : Inv s) (hfree : FaultFree s) {a : Action} (ha : a ≠ .reset)
    (hact : act a s = .next t) : Adds 2 ordinaryFaults s t :=
  act_adds subset_rfl (fun _ _ => le_rfl)
    (fun _ _ htx hsource hover =>
      absurd ((txBranch_linked (h.linked hfree) h.bounded htx).armed_cursor_lt hsource) (BitVec.not_lt.mpr hover))
    ha hact

/-- Settles O53: reset keeps the parameters and records nothing; for every other step, `act_adds` three times. -/
theorem faultsAndHistoryOnlyGrow : Obligations.FaultsAndHistoryOnlyGrow := by
  intro s t a htakes
  obtain ⟨rest, hact⟩ := htakes.act
  by_cases ha : a = .reset
  · subst ha
    cases hact
    exact ⟨rfl, fun h => absurd rfl h, fun _ _ i => List.not_mem_nil⟩
  obtain ⟨hpar, hfaults, e, he, htwo⟩ := act_adds_two ha hact
  refine ⟨hpar, fun _ => ⟨?faults, e, he, htwo, fun hinv => ?one⟩, fun hinv hfree i hmem => ?broken⟩
  case faults =>
    rcases hfaults with hsame | ⟨f, -, hmore⟩
    · exact ⟨[], hsame.trans (List.append_nil _).symm, Nat.zero_le 1⟩
    · exact ⟨[f], hmore, le_rfl⟩
  case one =>
    obtain ⟨-, -, e', he', hone⟩ := (hinv.setAgenda rest).act_adds_one ha hact
    exact List.append_cancel_left (he.symm.trans he') ▸ hone
  case broken =>
    have hnone : s.faults = [] := hfree
    rcases ((hinv.setAgenda rest).act_adds_ordinary hfree ha hact).faults with hsame | ⟨f, hf, hmore⟩
    · simp [hsame, hnone] at hmem
    · have hthis : ModelFault.invariantBroken i = f := by simpa [hmore, hnone] using hmem
      exact hf i hthis.symm

end Sys2Proof.Machine
end

section
/-! A fair run completes a transmit (60_exceptions.md R195, R197): while an asynchronous transmit is Busy, no step but its
channel's service invocation and line step touches its descriptor or its FIFO, and each of these that moves a byte lowers
the work that is left. Where that work is least, fairness takes one more such step, or the completion. -/

namespace Sys2Proof.Machine

variable {s t u : State} {i j : Engine} {a : Action}

/-! ### Steps that leave the transmit direction alone -/

/-- The transmit descriptor and FIFO of channel `i` are the same in `s` and `t`. -/
structure SameTransmit (i : Engine) (s t : State) : Prop where
  txd : (t.chan i).txd = (s.chan i).txd
  txf : (t.chan i).txf = (s.chan i).txf

namespace SameTransmit

theorem of_chan (h : t.chan i = s.chan i) : SameTransmit i s t := ⟨by rw [h], by rw [h]⟩

theorem trans (h : SameTransmit i s t) (g : SameTransmit i t u) : SameTransmit i s u :=
  ⟨g.txd.trans h.txd, g.txf.trans h.txf⟩

end SameTransmit

theorem OtherChannels.sameTransmit (h : OtherChannels j s t) (hij : i ≠ j) : SameTransmit i s t := .of_chan (h i hij)

/-- What keeps the transmit direction of one channel and writes no other channel keeps it for all. -/
theorem KeepsTransmit.sameTransmit (h : KeepsTransmit j s t) (i : Engine) : SameTransmit i s t := by
  by_cases hij : i = j
  · subst hij
    exact ⟨h.txd, h.txf⟩
  · exact h.others.sameTransmit hij

theorem writeReg_sameTransmit (r : Reg) (v : Word) (i : Engine) (s : State) : SameTransmit i s (writeReg r v s) := by
  cases r
  case sr j =>
    have hclear : KeepsTransmit j s (clearOvr j v s) := (KeepsTransmit.refl j s).updChan rfl rfl rfl
    exact hclear.sameTransmit i
  all_goals exact .of_chan rfl

theorem lineRx_sameTransmit (i j : Engine) (b : Byte) (s : State) : SameTransmit i s (lineRx j b s) := by
  have hpush : KeepsTransmit j s (rxPush j b s) := (KeepsTransmit.refl j s).updChan rfl rfl rfl
  have hoverrun : KeepsTransmit j s (s.updChan j fun c => { c with ovr := true }) :=
    (KeepsTransmit.refl j s).updChan rfl rfl rfl
  unfold lineRx
  split
  · split
    · exact (hpush.sameTransmit i).trans (.of_chan rfl)
    · exact (hoverrun.sameTransmit i).trans (.of_chan rfl)
  · exact .of_chan rfl

/-- An accepted command that is none of the three that use the transmit direction. -/
theorem Accepted.sameTransmit {c : Instr} (h : Accepted j s c t) (hsubmit : opOf c ≠ .submitSend)
    (hbyte : opOf c ≠ .sendByte) (hframe : opOf c ≠ .sendFrame) (i : Engine) : SameTransmit i s t := by
  have hrefl := KeepsTransmit.refl j s
  refine KeepsTransmit.sameTransmit (j := j) ?_ i
  cases h with
  | init ch over8 d => exact (hrefl.updChan (f := initChannel over8 d) rfl rfl rfl).of_eq rfl rfl
  | submitSend => exact absurd rfl hsubmit
  | submitRecv ch hostcb => exact (hrefl.armReceive _ _ _).of_eq rfl rfl
  | sendByte => exact absurd rfl hbyte
  | getByte ch =>
    have hheld : KeepsTransmit j s (holdRx j s) := by
      rw [holdRx_eq]
      exact hrefl.updChan rfl rfl rfl
    exact hheld.of_eq rfl rfl
  | framerStart ch =>
    exact ((hrefl.of_eq (u := s.updFr _) rfl rfl).armReceive _ _ _).of_eq rfl rfl
  | sendFrame => exact absurd rfl hframe

/-- A Busy transmit descriptor refuses the commands that use it (41_transfer_engine.md R121, R131; 43_framer.md R168). -/
theorem exec_sameTransmit (hbusy : (s.chan i).txd.state = .busy) (c : Instr) :
    Leaves (SameTransmit i s) (exec c s) := by
  have hother : ∀ {j : Engine}, ¬ (s.chan j).txd.state = .busy → i ≠ j := fun hready e => hready (e ▸ hbusy)
  have hreceive : opOf c ≠ .submitSend → opOf c ≠ .sendByte → opOf c ≠ .sendFrame →
      Leaves (SameTransmit i s) (exec c s) := fun hsubmit hbyte hframe => by
    have houtcome := exec_outcome c s
    generalize exec c s = o at houtcome
    cases houtcome with
    | reports code => exact .of_chan rfl
    | accepts mapped effect => exact effect.sameTransmit hsubmit hbyte hframe i
  cases c with
  | submitSend ch hostcb =>
    show Leaves _ (execSubmitSend ch hostcb s)
    unfold execSubmitSend
    split
    · exact .of_chan rfl
    split
    · exact .of_chan rfl
    · rename_i hready
      exact (Accepted.submitSend ch hostcb).otherChannels.sameTransmit (hother hready)
  | sendByte ch data =>
    show Leaves _ (execSendByte ch data s)
    unfold execSendByte
    split
    · exact .of_chan rfl
    split
    · exact .of_chan rfl
    · rename_i hready
      exact (Accepted.sendByte ch data).otherChannels.sameTransmit (hother hready)
  | sendFrame ch =>
    show Leaves _ (execSendFrame ch s)
    unfold execSendFrame
    split
    · exact .of_chan rfl
    split
    · exact .of_chan rfl
    split
    · exact .of_chan rfl
    split
    · exact .of_chan rfl
    · rename_i hready
      exact (Accepted.sendFrame ch).otherChannels.sameTransmit (hother hready)
  | init | submitRecv | getByte | framerStart => exact hreceive nofun nofun nofun

theorem hostStep_sameTransmit (hbusy : (s.chan i).txd.state = .busy) (st : HostStmt) :
    Leaves (SameTransmit i s) (hostStep st s) := by
  unfold hostStep
  split
  · cases st with
    | regRead w off =>
      show SameTransmit i s (regRead w off s)
      unfold regRead
      split <;> exact .of_chan rfl
    | regWrite w off v =>
      show Leaves _ (regWrite w off v s)
      unfold regWrite
      split
      · split
        · unfold command
          split
          · exact exec_sameTransmit hbusy _
          · exact .of_chan rfl
        · exact writeReg_sameTransmit ..
      · exact .of_chan rfl
    | memRead b =>
      show Leaves _ (hostMemRead b s)
      unfold hostMemRead
      split
      · exact .of_chan rfl
      split
      · exact .of_chan rfl
      split
      · trivial
      · exact .of_chan rfl
    | memWrite b v =>
      show Leaves _ (hostMemWrite b v s)
      unfold hostMemWrite
      split
      · exact .of_chan rfl
      split
      · exact .of_chan rfl
      split
      · trivial
      · exact .of_chan rfl
  · trivial

theorem otherChannels_pollSendByte (j : Engine) (b : Byte) (k : Nat) (s : State) :
    OtherChannels j s (pollSendByte j b k s) := by
  unfold pollSendByte
  split
  · exact (otherChannels_txPush j b s).trans (otherChannels_endTx _ j _ _)
  split
  · exact otherChannels_endTx _ j _ s
  · exact fun _ _ => rfl

theorem otherChannels_frameBytePushed (j : Engine) (hb : List Byte) (pay len : Word) (pos : Nat) (b : Byte)
    (s : State) : OtherChannels j s (frameBytePushed j hb pay len pos b s) := by
  unfold frameBytePushed
  split
  · exact (otherChannels_txPush j b s).trans (otherChannels_endTx _ j _ _)
  · exact otherChannels_txPush j b s

theorem otherChannels_pollSendFrame (j : Engine) (hb : List Byte) (pay len : Word) (pos k : Nat) (s : State) :
    Leaves (OtherChannels j s) (pollSendFrame j hb pay len pos k s) := by
  unfold pollSendFrame
  split
  · split
    · split
      · trivial
      · exact otherChannels_frameBytePushed j hb pay len pos _ s
    · split
      · exact fun _ _ => rfl
      · exact otherChannels_frameBytePushed j hb pay len pos _ s
  split
  · exact otherChannels_endTx _ j _ s
  · exact fun _ _ => rfl

theorem pollGetByte_keepsTransmit (j : Engine) (k : Nat) (s : State) : KeepsTransmit j s (pollGetByte j k s) := by
  have hrefl := KeepsTransmit.refl j s
  unfold pollGetByte
  split
  · rename_i b _ _
    have htaken : KeepsTransmit j s ((rxDrop j s).setRdata (b.setWidth 32)) := hrefl.rxDrop.of_eq rfl rfl
    exact (htaken.updRxd _).of_eq rfl rfl
  split
  · exact (hrefl.updRxd _).of_eq rfl rfl
  · exact hrefl.of_eq rfl rfl

/-- The blocking sends poll the direction that they hold (10_state.md R33 (I6)). -/
theorem pollStep_sameTransmit (hheld : s.cmdState.holdsTx i = false) : Leaves (SameTransmit i s) (pollStep s) := by
  unfold pollStep
  split
  case h_1 => trivial
  case h_2 j b k hcmd =>
    rw [hcmd] at hheld
    exact (otherChannels_pollSendByte j b k s).sameTransmit (Ne.symm (of_decide_eq_false hheld))
  case h_3 j k _ => exact (pollGetByte_keepsTransmit j k s).sameTransmit i
  case h_4 j hb pay len pos k hcmd =>
    rw [hcmd] at hheld
    exact (otherChannels_pollSendFrame j hb pay len pos k s).mono fun _ h =>
      h.sameTransmit (Ne.symm (of_decide_eq_false hheld))

/-- A step that is neither a service invocation nor a line transmit step of the channel. -/
theorem act_sameTransmit (hbusy : (s.chan i).txd.state = .busy) (hheld : s.cmdState.holdsTx i = false)
    (hreset : a ≠ .reset) (hsvc : a ≠ .svc i) (hline : a ≠ .lineTx i) (hact : act a s = .next t) :
    SameTransmit i s t := by
  cases a with
  | host st => exact (hostStep_sameTransmit hbusy st).of_next hact
  | poll => exact (pollStep_sameTransmit hheld).of_next hact
  | svc j =>
    exact (service_or_line_frame (.inl rfl) hact).1.sameTransmit fun e => hsvc (e ▸ rfl)
  | lineTx j =>
    exact (service_or_line_frame (.inr (.inl rfl)) hact).1.sameTransmit fun e => hline (e ▸ rfl)
  | lineRx j b =>
    obtain ⟨-, rfl⟩ := act_lineRx_eq_next_iff.mp hact
    exact lineRx_sameTransmit i j b s
  | reset => exact absurd rfl hreset

/-! ### One step of a transmit -/

/-- An asynchronous transmit is under way on channel `i`, in a fault-free state with the invariant. -/
structure Transmitting (i : Engine) (s : State) : Prop where
  inv : Inv s
  faultFree : FaultFree s
  ue : (s.chan i).cr.ue = true
  te : (s.chan i).cr.te = true
  busy : (s.chan i).txd.state = .busy
  async : (s.chan i).txd.mode = .async

namespace Transmitting

theorem linked (h : Transmitting i s) : ChannelLinked s i := (h.inv.linked h.faultFree).channels i

/-- (I1) of 10_state.md R33. -/
theorem source (h : Transmitting i s) : (s.chan i).cr.txeie = true := h.linked.txSource.mpr ⟨h.busy, h.async⟩

/-- (I6) of 10_state.md R33. -/
theorem not_held (h : Transmitting i s) : s.cmdState.holdsTx i = false := by
  rw [← Bool.not_eq_true, ← h.linked.txHeld, h.async]
  nofun

end Transmitting

/-- The work left of a transmit: each byte has to be moved and then sent. -/
def transmitLeft (i : Engine) (s : State) : Nat :=
  2 * ((s.chan i).txd.len.toNat - (s.chan i).txd.cur.toNat) + (s.chan i).txf.length

theorem SameTransmit.transmitLeft_eq (h : SameTransmit i s t) : transmitLeft i t = transmitLeft i s := by
  rw [transmitLeft, transmitLeft, h.txd, h.txf]

/-- What a step that is not reset does to a transmit under way. -/
inductive TransmitEffect (i : Engine) (s : State) (a : Action) (t : State) : Prop
  /-- Nothing: no byte was sent, and an invocation of the channel found no room. -/
  | kept (same : SameTransmit i s t) (line : a ≠ .lineTx i)
      (svc : a = .svc i → s.par.txDepth ≤ (s.chan i).txf.length)
  | progressed (less : transmitLeft i t < transmitLeft i s) (async : (t.chan i).txd.mode = .async)
  | completed (ready : (t.chan i).txd.state = .ready)

namespace Transmitting

/-- The oldest byte leaves the FIFO (40_serial_fifo.md R103). -/
theorem lineTx_effect (h : Transmitting i s) (hact : act (.lineTx i) s = .next t) :
    TransmitEffect i s (.lineTx i) t := by
  obtain ⟨b, later, htxf, -, -, -, rfl⟩ := lineTxStep_eq_next_iff.mp hact
  have hchan : (emit (.wireOut i b) (txDrop i s)).chan i = { s.chan i with txf := later } := by
    rw [emit_chan, chan_txDrop, if_pos rfl, htxf, List.tail_cons]
  refine .progressed ?_ (by rw [hchan]; exact h.async)
  rw [transmitLeft, transmitLeft, hchan, htxf, List.length_cons]
  exact Nat.lt_succ_self _

/-- The transmit branch finds no room, moves a byte, or completes; the receive branch after it leaves the transmit
direction alone (41_transfer_engine.md R126, R127). -/
theorem svc_effect (h : Transmitting i s) (hfree : FaultFree t) (hact : act (.svc i) s = .next t) :
    TransmitEffect i s (.svc i) t := by
  obtain ⟨-, -, rfl⟩ := act_svc_eq_next_iff.mp hact
  rcases txBranch_cases i s (h.inv.bounded.channels i).txCallback with ⟨c, irq, hleaves⟩ | ⟨-, -, -, -, hstop⟩
  · have hsame := ((KeepsTransmit.refl i (transmitted i c irq s)).rxBranch).sameTransmit i
    rw [← serve_of_leaves hleaves] at hsame
    obtain ⟨htxd, htxf⟩ := hsame
    rw [transmitted_chan_self] at htxd htxf
    cases hleaves with
    | nothing hfull => exact .kept ⟨htxd, htxf⟩ nofun fun _ => hfull.resolve_right (by simp [h.source])
    | moved room source left admitted =>
      refine .progressed ?_ (by rw [htxd]; exact h.async)
      have hnext : ((s.chan i).txd.cur + 1#32).toNat = (s.chan i).txd.cur.toNat + 1 := by bv_omega
      rw [BitVec.lt_def] at left
      rw [transmitLeft, transmitLeft, htxd, htxf, List.length_append, List.length_singleton, hnext]
      dsimp only
      omega
    | completed room source done callback => exact .completed (by rw [htxd])
  · have hserve : serve i s = .stop (raise (.busError (s.chan i).txd.cursorAddr) s) := by
      rw [serve, hstop]
      rfl
    rw [hserve] at hfree
    exact absurd hfree (not_faultFree_raise _)

theorem effect (h : Transmitting i s) (hfree : FaultFree t) (hreset : a ≠ .reset) (hact : act a s = .next t) :
    TransmitEffect i s a t := by
  by_cases hline : a = .lineTx i
  · subst hline
    exact h.lineTx_effect hact
  by_cases hsvc : a = .svc i
  · subst hsvc
    exact h.svc_effect hfree hact
  · exact .kept (act_sameTransmit h.busy h.not_held hreset hsvc hline hact) hline fun e => absurd e hsvc

/-- A transmit that a step does not complete stays under way. -/
theorem next (h : Transmitting i s) (hfree : FaultFree t) (hreset : a ≠ .reset) (hact : act a s = .next t)
    (hunready : (t.chan i).txd.state ≠ .ready) : Transmitting i t where
  inv := (act_inv h.inv a).of_next hact
  faultFree := hfree
  ue := (((act_staysOn hreset s).of_next hact).channels i).ue h.ue
  te := (((act_staysOn hreset s).of_next hact).channels i).te h.te
  busy := by
    cases hstate : (t.chan i).txd.state with
    | ready => exact absurd hstate hunready
    | busy => rfl
  async := by
    cases h.effect hfree hreset hact with
    | kept same => exact same.txd ▸ h.async
    | progressed less async => exact async
    | completed ready => exact absurd ready hunready

theorem serviceRequest (h : Transmitting i s) (hroom : (s.chan i).txf.length < s.par.txDepth) :
    serviceRequest s i = true :=
  serviceRequest_iff.mpr ⟨h.ue, .inl ⟨hroom, h.source⟩⟩

theorem lineTxEnabled (h : Transmitting i s) (hfull : s.par.txDepth ≤ (s.chan i).txf.length) :
    lineTxEnabled s i = true := by
  have hdepth := (Params.wf.depths h.inv.bounded.params).1
  have hsome : (s.chan i).txf.length ≠ 0 := by omega
  rw [Machine.lineTxEnabled, lineTxActive_iff.mpr ⟨h.ue, h.te⟩, tc, decide_eq_false hsome]
  rfl

end Transmitting

/-! ### Runs -/

section
variable {run : Nat → State} {acts : Nat → Action} (hrun : IsRun run acts) (hreset : ∀ n, acts n ≠ .reset)
include hrun hreset

theorem run_par (n : Nat) : (run n).par = (run 0).par := by
  induction n with
  | zero => rfl
  | succ n ih => exact (act_adds_two (hreset n) (hrun n)).par.trans ih

variable (hfree : ∀ n, FaultFree (run n)) (hnever : ∀ n, ((run n).chan i).txd.state ≠ .ready)
include hfree hnever

theorem transmitting_run (h : Transmitting i (run 0)) (n : Nat) : Transmitting i (run n) := by
  induction n with
  | zero => exact h
  | succ n ih => exact ih.next (hfree (n + 1)) (hreset n) (hrun n) (hnever (n + 1))

section
variable (h : ∀ n, Transmitting i (run n)) {N : Nat} (hleast : ∀ n, transmitLeft i (run N) ≤ transmitLeft i (run n))
include h hleast

/-- Where the work left is at its least, a step that finds the transmit as it was then leaves it so. -/
theorem kept_of_least {m : Nat} (hsame : SameTransmit i (run N) (run m)) :
    SameTransmit i (run m) (run (m + 1)) ∧ acts m ≠ .lineTx i ∧
      (acts m = .svc i → (run m).par.txDepth ≤ ((run m).chan i).txf.length) := by
  cases (h m).effect (hfree (m + 1)) (hreset m) (hrun m) with
  | kept same line svc => exact ⟨same, line, svc⟩
  | progressed less =>
    rw [hsame.transmitLeft_eq] at less
    exact absurd (hleast (m + 1)) less.not_ge
  | completed ready => exact absurd ready (hnever (m + 1))

theorem same_of_least {m : Nat} (hm : N ≤ m) : SameTransmit i (run N) (run m) := by
  induction m, hm using Nat.le_induction with
  | base => exact .of_chan rfl
  | succ m _ ih => exact ih.trans (kept_of_least hrun hreset hfree hnever h hleast ih).1

/-- So fairness to the SEQ, or to the line where the FIFO is full, is broken. -/
theorem unfair_of_least (hseq : FairSeq run acts i) (hline : FairLineTx run acts i) : False := by
  have hsame : ∀ m, N ≤ m → SameTransmit i (run N) (run m) := fun m =>
    same_of_least hrun hreset hfree hnever h hleast
  have hkept := fun m hm => (kept_of_least hrun hreset hfree hnever h hleast (hsame m hm)).2
  have hlength : ∀ m, N ≤ m → ((run m).chan i).txf.length = ((run N).chan i).txf.length := fun m hm => by
    rw [(hsame m hm).txf]
  have hdepth : ∀ m, (run m).par.txDepth = (run N).par.txDepth := fun m => by
    rw [run_par hrun hreset m, run_par hrun hreset N]
  by_cases hroom : ((run N).chan i).txf.length < (run N).par.txDepth
  · obtain ⟨m, hm, hsvc⟩ := hseq N fun m hm => (h m).serviceRequest (by rw [hlength m hm, hdepth m]; exact hroom)
    have hfull := (hkept m hm).2 hsvc
    rw [hlength m hm, hdepth m] at hfull
    exact absurd hroom hfull.not_gt
  · obtain ⟨m, hm, hsent⟩ := hline N fun m hm =>
      (h m).lineTxEnabled (by rw [hlength m hm, hdepth m]; exact Nat.le_of_not_lt hroom)
    exact (hkept m hm).1 hsent

end
end

/-- Settles O60: were the transmit never Ready, its work left would have a least value, where fairness still asks for a
step that lowers it. -/
theorem fairRunsCompleteEveryTransmit : Obligations.FairRunsCompleteEveryTransmit := by
  intro run acts i hrun hinv hfree hreset hseq hline _ hue hte hbusy hasync
  by_contra hready
  have hnever : ∀ n, ((run n).chan i).txd.state ≠ .ready := not_exists.mp hready
  have htransmitting := transmitting_run hrun hreset hfree hnever ⟨hinv, hfree 0, hue, hte, hbusy, hasync⟩
  exact unfair_of_least hrun hreset hfree hnever htransmitting
    (fun n => Function.argmin_le (fun n => transmitLeft i (run n)) n) hseq hline

end Sys2Proof.Machine
end

section
/-! Reset (70_reset_and_hazards.md R220, R221), and the commands that the started parser's channel refuses (R231). -/

namespace Sys2Proof.Machine

/-! ### Reset -/

theorem resetStep_chan (s : State) (i : Engine) : (resetStep s).chan i = Channel.reset := resetOf_chan s.par s.mem i

/-- Settles O48: `resetStep` writes the reset state's fields, and `resetStep_chan` is the clause on the channels. -/
theorem resetRestoresEveryRegister : Obligations.ResetRestoresEveryRegister := fun s =>
  ⟨resetStep s, rfl, rfl, rfl, rfl, rfl, rfl, rfl, rfl, rfl, rfl, rfl, rfl, rfl, rfl, resetStep_chan s⟩

/-! ### The idle block -/

section
variable (p : Params) (m : Memory) (i : Engine)

/-- No channel requests service, since `UE` is clear (60_exceptions.md R195). -/
theorem not_serviceRequest_resetOf : ¬ serviceRequest (State.resetOf p m) i = true := by
  rw [serviceRequest_iff, resetOf_chan]
  rintro ⟨hue, -⟩
  cases hue

theorem not_svc_resetOf : ¬ ∃ t, act (.svc i) (State.resetOf p m) = .next t := by
  rintro ⟨t, hstep⟩
  obtain ⟨-, hrequest, -⟩ := act_svc_eq_next_iff.mp hstep
  exact not_serviceRequest_resetOf p m i hrequest

/-- No line has a byte to send: every transmit FIFO is empty (40_serial_fifo.md R103). -/
theorem not_lineTx_resetOf : ¬ ∃ t, act (.lineTx i) (State.resetOf p m) = .next t := by
  rintro ⟨t, hstep⟩
  obtain ⟨b, later, htxf, -⟩ := lineTxStep_eq_next_iff.mp hstep
  rw [resetOf_chan] at htxf
  cases htxf

theorem irqOut_resetOf : irqOut (State.resetOf p m) = false := by
  rw [← Bool.not_eq_true, irqOut_iff]
  rintro ⟨b, -, -, hstatus, -⟩
  exact absurd hstatus (by simp [State.resetOf])

/-- `TXE` and `TC`: the transmit FIFO is empty, and so has room (10_state.md R25). -/
theorem srWord_resetOf (hdepth : 1 ≤ p.txDepth) : srWord (State.resetOf p m) i = 0x9#32 := by
  have htxe : txe (State.resetOf p m) i = true := txe_iff.mpr (by rw [resetOf_chan]; exact hdepth)
  have hrxne : rxne (State.resetOf p m) i = false := by rw [rxne, resetOf_chan]; rfl
  have htc : tc (State.resetOf p m) i = true := by rw [tc, resetOf_chan]; rfl
  rw [srWord, htxe, hrxne, htc, resetOf_chan]
  decide

/-- The line's receive side is off, so the byte is lost (40_serial_fifo.md R104). -/
theorem lineRx_resetOf (b : Byte) : lineRx i b (State.resetOf p m) = emit (.wireIn i b false) (State.resetOf p m) :=
  lineRx_of_off (.inl (by rw [resetOf_chan]; rfl)) b

end

/-- Settles O49: a lemma above for each clause. -/
theorem afterResetTheBlockIsIdle : Obligations.AfterResetTheBlockIsIdle := by
  intro p m hwf
  obtain ⟨-, -, -, -, -, htxDepth, -⟩ := hwf
  refine ⟨irqOut_resetOf p m, fun i b hi =>
    ⟨not_svc_resetOf p m i, not_lineTx_resetOf p m i, srWord_resetOf p m i htxDepth, ?discarded⟩⟩
  case discarded =>
    rw [act_lineRx hi b, lineRx_resetOf]
    rfl

/-! ### The parser's channel -/

/-- Settles O57: by (I5) the receive descriptor of the started parser's channel is Busy, which each of the three commands
checks once its operands pass. -/
theorem parserChannelIsExclusive : Obligations.ParserChannelIsExclusive := by
  intro s ch hostcb over8 hinv hfree hactive hch
  obtain ⟨hbusy, -, -⟩ := (hinv.linked hfree).parser hactive
  refine ⟨fun haddr hlen hfit => ?submitRecv, ?getByte, fun hue hdivisor => ?init⟩
  case submitRecv =>
    obtain ⟨-, -, hmapped⟩ := submitsValidateInOrder s ch hostcb
    obtain ⟨-, hvalid⟩ := hmapped _ haddr hch
    exact (hvalid hlen hfit).2 hbusy
  case getByte =>
    obtain ⟨-, hmapped⟩ := byteCommandsRejectInOrder s ch 0#8
    exact (hmapped _ hch).2 hbusy
  case init =>
    obtain ⟨-, hmapped⟩ := initRejectsInOrder s ch over8
    exact (hmapped _ hch).2 hdivisor hue (.inr hbusy)

end Sys2Proof.Machine
end
